-- ==== Sys2Proof/Word.lean ====
section
/-! DEFINITION. The words of jarr_core: elements, command words, handle selectors (spec 00 R12, 30 R71).
An element is a natural number below `2 ^ W`, as spec 00 R12 has it; `W` is a parameter of the block
(`Sys2Proof.Params`), so it stands in no type (assumption log, entry 3). -/

namespace Sys2Proof

/-- An element of the element memory: a natural number in `[0, 2^W - 1]` (R12). -/
abbrev Elem := Nat

/-- `ONES`, the element with all `w` bits set (R12). -/
def ones (w : Nat) : Elem := 2 ^ w - 1

/-- A 32-bit command word, as the host writes it to `CMD` (R70). -/
abbrev CommandWord := BitVec 32

/-- A 4-bit handle selector, the fields `hd`, `hs1`, `hs2` of a command word (R71, R73). -/
abbrev HSel := BitVec 4

end Sys2Proof
end

