-- ==== Sys2Proof/Config.lean ====
section
/-! DEFINITION. What an implementation fixes, and the free values.
The four open parameters of the spec (R6 to R9, 92 D1 to D4) are a structure; the state holds one value of it
that no step changes, so a statement about every state is a statement about every parameter value.
`Config.draw` is the spec's `draw(n)` (93 U1): opaque, without a body. -/

namespace Sys2Proof

/-- The implementation parameters `W`, `M`, `NH`, `IDXW` (R6, R7, R8, R9). -/
structure Params where
  /-- `W`, the element width in bits (R6). -/
  w : Nat
  /-- `M`, the number of elements of `EM` (R7). -/
  m : Nat
  /-- `NH`, the number of handle registers (R8). -/
  nh : Nat
  /-- `IDXW`, the width of the operand registers and of the handle's counts and indices (R9). -/
  idxw : Nat
  deriving DecidableEq, Repr

/-- The values the spec's test vectors use: `W = 8`, `M = 256`, `NH = 4`, `IDXW = 32` (R6 to R9).
DESIGN CHOICE, unsafe for a claim about `State.reset` alone: the spec leaves all four open (log entry 2). -/
def Params.vectors : Params := { w := 8, m := 256, nh := 4, idxw := 32 }

/-- The value drawn at the `n`-th draw of a run, before it is cut to the width that is drawn (`draw(n)`, 93 U1:
"an arbitrary value, chosen afresh at each execution"). A FREE VALUE: it has no body, so nothing can be proved
of it (log entry 6). -/
opaque Config.draw (occurrence : Nat) : Nat

end Sys2Proof
end

