-- ==== Sys2Proof/Syntax.lean ====
section
/-! DEFINITION. The twenty commands, one constructor per row of spec/opcode_table.json, with the fields of the
command word that the row's format uses (30 R71, R72, R74). The operand registers `POS`, `LEN`, `BASE` are
read from the state when the command runs (R70). -/

namespace Sys2Proof

/-- A command (R74). `hd` is the handle of the array written, or the only handle named; `hs1`, `hs2` are the
source handles; `cin` is the carry-in of ADD. -/
inductive Instr where
  /-- INIT, `op = 0x10` (R92). -/
  | init (hd : HSel)
  /-- SETLEN, `op = 0x11` (R93). -/
  | setlen (hd : HSel)
  /-- SETBIT, `op = 0x20` (R101). -/
  | setbit (hd : HSel)
  /-- CLRBIT, `op = 0x21` (R102). -/
  | clrbit (hd : HSel)
  /-- TGLBIT, `op = 0x22` (R103). -/
  | tglbit (hd : HSel)
  /-- RDBIT, `op = 0x23` (R104). -/
  | rdbit (hd : HSel)
  /-- CLRALL, `op = 0x24` (R105). -/
  | clrall (hd : HSel)
  /-- SETALL, `op = 0x25` (R106). -/
  | setall (hd : HSel)
  /-- SETSEC, `op = 0x26` (R107). -/
  | setsec (hd : HSel)
  /-- CLRSEC, `op = 0x27` (R108). -/
  | clrsec (hd : HSel)
  /-- LASTVAL, `op = 0x28` (R112). -/
  | lastval (hd : HSel)
  /-- RDSEC, `op = 0x30`: `hd` the destination, `hs1` the source (R121). -/
  | rdsec (hd hs1 : HSel)
  /-- WRSEC, `op = 0x31`: `hd` the destination, `hs1` the input (R123). -/
  | wrsec (hd hs1 : HSel)
  /-- AND, `op = 0x40` (R131). -/
  | and (hd hs1 hs2 : HSel)
  /-- OR, `op = 0x41` (R132). -/
  | or (hd hs1 hs2 : HSel)
  /-- XOR, `op = 0x42` (R133). -/
  | xor (hd hs1 hs2 : HSel)
  /-- NOT, `op = 0x43` (R134). -/
  | not (hd hs1 : HSel)
  /-- ADD, `op = 0x50` (R140). -/
  | add (hd hs1 hs2 : HSel) (cin : Bool)
  /-- LSH, `op = 0x60` (R151). -/
  | lsh (hd hs1 : HSel)
  /-- RSH, `op = 0x61` (R152). -/
  | rsh (hd hs1 : HSel)
  deriving DecidableEq, Repr

end Sys2Proof
end

