-- ==== Sys2Proof/WellFormed.lean ====
section
/-! DEFINITION. When parameters are admissible (R6 to R9) and when a decoded command is legal on a block with
`NH` handles: "every used selector is below `NH`" (30 R75). -/

namespace Sys2Proof

/-- What the spec asks of the parameters: `W >= 1` (R6), `M >= 1` (R7), `3 <= NH <= 16` (R8),
`2^IDXW > M * W` (R9). -/
abbrev Params.wf (p : Params) : Prop :=
  1 ≤ p.w ∧ 1 ≤ p.m ∧ 3 ≤ p.nh ∧ p.nh ≤ 16 ∧ p.m * p.w < 2 ^ p.idxw

/-- The handle selectors a command's format uses, `hd` first (R72, R74). -/
def Instr.selectors : Instr → List HSel
  | .init hd | .setlen hd | .setbit hd | .clrbit hd | .tglbit hd | .rdbit hd
  | .clrall hd | .setall hd | .setsec hd | .clrsec hd | .lastval hd => [hd]
  | .rdsec hd hs1 | .wrsec hd hs1 | .not hd hs1 | .lsh hd hs1 | .rsh hd hs1 => [hd, hs1]
  | .and hd hs1 hs2 | .or hd hs1 hs2 | .xor hd hs1 hs2 => [hd, hs1, hs2]
  | .add hd hs1 hs2 _ => [hd, hs1, hs2]

/-- A command is well formed on a block with `nh` handles when every selector it uses is below `nh` (R75). -/
abbrev Instr.wf (nh : Nat) (i : Instr) : Prop := ∀ h ∈ i.selectors, h.toNat < nh

end Sys2Proof
end

