-- ==== Sys2Proof/Decode.lean ====
section
/-! DEFINITION. The decoder of command words, total on all 32-bit words, and the encoder written from the same
tables (30 R71, R72, R74, R75). A selector at or above `NH` is judged where the command runs, since `NH` is a
parameter of the block: `Instr.wf`, `Machine.selectorsLegal` (DEDUCED, safe, log entry 13). -/

namespace Sys2Proof

/-- Why a word is no command (R75). Each case raises `InvalidArgument(ILLEGAL_COMMAND)` in the machine. -/
inductive DecodeError where
  /-- "a bit of `rsv` is 1". -/
  | reservedBitSet
  /-- "its `op` is not one of the twenty values of rule R74". -/
  | unknownOp
  /-- "a field its format does not use is nonzero". -/
  | unusedFieldSet
  deriving DecidableEq, Repr

/-- `op`, bits 7:0 (R71). -/
def opField (cw : CommandWord) : BitVec 8 := cw.extractLsb' 0 8

/-- `hd`, bits 11:8 (R71). -/
def hdField (cw : CommandWord) : HSel := cw.extractLsb' 8 4

/-- `hs1`, bits 15:12 (R71). -/
def hs1Field (cw : CommandWord) : HSel := cw.extractLsb' 12 4

/-- `hs2`, bits 19:16 (R71). -/
def hs2Field (cw : CommandWord) : HSel := cw.extractLsb' 16 4

/-- `cin`, bit 20 (R71). -/
def cinField (cw : CommandWord) : BitVec 1 := cw.extractLsb' 20 1

/-- `rsv`, bits 31:21 (R71). -/
def rsvField (cw : CommandWord) : BitVec 11 := cw.extractLsb' 21 11

/-- Format F1: `op`, `hd`; `hs1`, `hs2`, `cin` must be 0 (R72, R75). -/
def decodeF1 (cw : CommandWord) (mk : HSel → Instr) : Except DecodeError Instr :=
  if hs1Field cw = 0 ∧ hs2Field cw = 0 ∧ cinField cw = 0 then .ok (mk (hdField cw)) else .error .unusedFieldSet

/-- Format F2: `op`, `hd`, `hs1`; `hs2`, `cin` must be 0 (R72, R75). -/
def decodeF2 (cw : CommandWord) (mk : HSel → HSel → Instr) : Except DecodeError Instr :=
  if hs2Field cw = 0 ∧ cinField cw = 0 then .ok (mk (hdField cw) (hs1Field cw)) else .error .unusedFieldSet

/-- Format F3: `op`, `hd`, `hs1`, `hs2`; `cin` must be 0 (R72, R75). -/
def decodeF3 (cw : CommandWord) (mk : HSel → HSel → HSel → Instr) : Except DecodeError Instr :=
  if cinField cw = 0 then .ok (mk (hdField cw) (hs1Field cw) (hs2Field cw)) else .error .unusedFieldSet

/-- Format F3C: every field is used (R72). -/
def decodeF3C (cw : CommandWord) (mk : HSel → HSel → HSel → Bool → Instr) : Except DecodeError Instr :=
  .ok (mk (hdField cw) (hs1Field cw) (hs2Field cw) (cinField cw == 1))

/-- The decoder: "every 32-bit word is either one of the twenty commands or illegal" (R75). The operation map is
R74's. -/
def decode (cw : CommandWord) : Except DecodeError Instr :=
  if rsvField cw = 0 then
    match (opField cw).toNat with
    | 0x10 => decodeF1 cw .init
    | 0x11 => decodeF1 cw .setlen
    | 0x20 => decodeF1 cw .setbit
    | 0x21 => decodeF1 cw .clrbit
    | 0x22 => decodeF1 cw .tglbit
    | 0x23 => decodeF1 cw .rdbit
    | 0x24 => decodeF1 cw .clrall
    | 0x25 => decodeF1 cw .setall
    | 0x26 => decodeF1 cw .setsec
    | 0x27 => decodeF1 cw .clrsec
    | 0x28 => decodeF1 cw .lastval
    | 0x30 => decodeF2 cw .rdsec
    | 0x31 => decodeF2 cw .wrsec
    | 0x40 => decodeF3 cw .and
    | 0x41 => decodeF3 cw .or
    | 0x42 => decodeF3 cw .xor
    | 0x43 => decodeF2 cw .not
    | 0x50 => decodeF3C cw .add
    | 0x60 => decodeF2 cw .lsh
    | 0x61 => decodeF2 cw .rsh
    | _ => .error .unknownOp
  else .error .reservedBitSet

/-- The `op` byte of a command (R74). -/
def Instr.op : Instr → BitVec 8
  | .init _ => 0x10
  | .setlen _ => 0x11
  | .setbit _ => 0x20
  | .clrbit _ => 0x21
  | .tglbit _ => 0x22
  | .rdbit _ => 0x23
  | .clrall _ => 0x24
  | .setall _ => 0x25
  | .setsec _ => 0x26
  | .clrsec _ => 0x27
  | .lastval _ => 0x28
  | .rdsec _ _ => 0x30
  | .wrsec _ _ => 0x31
  | .and _ _ _ => 0x40
  | .or _ _ _ => 0x41
  | .xor _ _ _ => 0x42
  | .not _ _ => 0x43
  | .add _ _ _ _ => 0x50
  | .lsh _ _ => 0x60
  | .rsh _ _ => 0x61

/-- The format's `mask` column: the bits of the word that must match (R72). -/
def Instr.formatMask : Instr → CommandWord
  | .init _ | .setlen _ | .setbit _ | .clrbit _ | .tglbit _ | .rdbit _
  | .clrall _ | .setall _ | .setsec _ | .clrsec _ | .lastval _ => 0xFFFFF0FF
  | .rdsec _ _ | .wrsec _ _ | .not _ _ | .lsh _ _ | .rsh _ _ => 0xFFFF00FF
  | .and _ _ _ | .or _ _ _ | .xor _ _ _ => 0xFFF000FF
  | .add _ _ _ _ => 0xFFE000FF

/-- The `match` value: "the `op` value with every other bit 0" (R72). -/
def Instr.formatMatch (i : Instr) : CommandWord := i.op.setWidth 32

/-- Lay out the fields of R71, bit 0 last. -/
def layOut (op : BitVec 8) (hd hs1 hs2 : HSel) (cin : Bool) : CommandWord :=
  (0 : BitVec 11) ++ (BitVec.ofBool cin ++ (hs2 ++ (hs1 ++ (hd ++ op))))

/-- The word of a command: the fields its format uses, every other bit 0 (R72, R75). -/
def encode (i : Instr) : CommandWord :=
  match i with
  | .init hd | .setlen hd | .setbit hd | .clrbit hd | .tglbit hd | .rdbit hd
  | .clrall hd | .setall hd | .setsec hd | .clrsec hd | .lastval hd => layOut i.op hd 0 0 false
  | .rdsec hd hs1 | .wrsec hd hs1 | .not hd hs1 | .lsh hd hs1 | .rsh hd hs1 => layOut i.op hd hs1 0 false
  | .and hd hs1 hs2 | .or hd hs1 hs2 | .xor hd hs1 hs2 => layOut i.op hd hs1 hs2 false
  | .add hd hs1 hs2 cin => layOut i.op hd hs1 hs2 cin

/-- The instruction the decoder reads from a word whose low `nbits` bits are `w` and whose other bits are 0, numbered
as spec/opcode_table.json numbers them (a command is one 32-bit word, R70). -/
def decodeTableWord (nbits w : Nat) : Option Instr :=
  (decode (BitVec.ofNat 32 (w % 2 ^ nbits))).toOption

end Sys2Proof
end

