-- ==== Sys2Proof/Machine/State.lean ====
section
/-! DEFINITION. The architectural state of jarr_core (10 R20 to R35), the host's actions (70 R187, R188), the reasons
a step can stop, and the state after reset. Plain data throughout. -/

namespace Sys2Proof.Machine

/-- The element memory `EM` as its listed elements `(index, element)`: indices strictly rising, no entry equal to
what an unlisted index reads as (`Machine.Memory.wf`). An element is `W` bits wide and `W` is a parameter, and
there is no byte view of `EM` (R21, R51), so a cell is an index and an element (log entry 4). -/
abbrev Memory := List (Nat × Elem)

/-- A handle register (R23). -/
structure Handle where
  /-- 1 once an INIT has written the handle since reset. -/
  bound : Bool
  /-- Element index in `EM` of the first element of the buffer. -/
  first : Nat
  /-- Declared logical length in bits. -/
  lengthBits : Nat
  /-- `ceil(length_bits / W)`, cached. -/
  lengthElements : Nat
  /-- `length_bits mod W`; 0 means that the last element is fully used. -/
  bme : Nat
  /-- The low `bme` bits set, or all bits set when `bme = 0`. -/
  overhangMask : Elem
  /-- Index of the last element; `limiter` for an empty array. -/
  last : Nat
  /-- One past the last element. -/
  limiter : Nat
  deriving DecidableEq, Repr

/-- A handle register after reset: unbound, every other field 0 (R35). -/
def Handle.unbound : Handle :=
  { bound := false, first := 0, lengthBits := 0, lengthElements := 0, bme := 0, overhangMask := 0, last := 0, limiter := 0 }

/-- The fields of a handle register, which the host may read (R25). -/
inductive HandleField where
  | bound | first | lengthBits | lengthElements | bme | overhangMask | last | limiter
  deriving DecidableEq, Repr

/-- What the host may read between commands: the places R187 lists. `CMD` "reads as nothing" (R29) and is no port of
these. `POS`, `LEN` and `BASE` have no port either. DESIGN CHOICE, safe (log entry 14): R187's list omits them and
forbids nothing, while R176 speaks of the host's ability "to read all state between commands". -/
inductive HostPort where
  /-- `EM[k]`. -/
  | em (k : Nat)
  /-- A field of `H[h]`. -/
  | handle (h : Nat) (field : HandleField)
  | carry
  | rbit
  | rval
  | status
  deriving DecidableEq, Repr

/-- One host action (R187, R188), or the reset input (R180). -/
inductive HostAction where
  /-- Write an element of `EM`. -/
  | writeEm (k v : Nat)
  /-- Write `POS`. -/
  | writePos (v : Nat)
  /-- Write `LEN`. -/
  | writeLen (v : Nat)
  /-- Write `BASE`. -/
  | writeBase (v : Nat)
  /-- Read something; the host gets `Machine.hostRead` of it. -/
  | read (port : HostPort)
  /-- Write a command word to `CMD`: the block executes it (R29, R70). -/
  | issue (cw : CommandWord)
  /-- Reset (R180). -/
  | reset
  deriving DecidableEq, Repr

/-- Why a step stops. No command stops in a state that meets `Machine.State.Inv`: "every command on every state has a
defined outcome" (R160), and `InvalidArgument` is a NEXT state, not one of these. -/
inductive Fault where
  /-- Raised by `hostAct`: the host names an element index that is not below `M`, an address that does not exist
  (R56). Safe (log entry 9). -/
  | noSuchElement
  /-- Raised by `hostAct`: the host reads a handle register that is not below `NH` (R23). Safe (log entry 9). -/
  | noSuchHandle
  /-- Raised by `hostAct`: the host writes a value wider than the element or the register (R187). Safe (log
  entry 9). -/
  | valueTooWide
  /-- Raised by `runCommand`: an operand handle's cached geometry breaks R24, so the command could address elements
  that do not exist (R57). Only in states no run reaches. Safe (log entry 10). -/
  | brokenGeometry
  deriving DecidableEq, Repr

/-- Why a command has no meaning in the model. -/
inductive Refusal where
  /-- Raised by an arm of `exec` for an instruction that is not modelled yet. Safe. -/
  | notModelled (mnemonic : String)
  deriving DecidableEq, Repr

/-- The state (R20), with three fields of the model's own: `par`, `drawn`, `host`. -/
structure State where
  /-- The parameters `W`, `M`, `NH`, `IDXW`: constants of the block (R34), held here so that a statement over every
  state is one over every parameter value; no step changes them (log entry 1). -/
  par : Params
  /-- The element memory `EM` (R21). -/
  em : Memory
  /-- The handle register file `H[0 .. NH-1]` (R23). -/
  handles : List Handle
  /-- `CARRY`, 1 bit (R26). -/
  carry : Bool
  /-- `RBIT`, 1 bit (R27). -/
  rbit : Bool
  /-- `RVAL`, `W` bits (R28). -/
  rval : Elem
  /-- `POS`, `IDXW` bits (R29). -/
  pos : Nat
  /-- `LEN`, `IDXW` bits (R29). -/
  len : Nat
  /-- `BASE`, `IDXW` bits (R29). -/
  base : Nat
  /-- `STATUS`, 8 bits (R31). -/
  status : BitVec 8
  /-- The model's own: how many draws the run has taken, the argument of `Config.draw` (log entry 6). -/
  drawn : Nat
  /-- The model's own: the host's actions still to come, oldest first (R30, R190; log entry 8). -/
  host : List HostAction
  deriving DecidableEq, Repr

/-- The state right after reset on a block with parameters `p` whose element memory holds `m`: R35's table. `EM` is
"an arbitrary value per element, fixed for the run (a parameter of the initial state)". -/
def State.resetWith (p : Params) (m : Memory) : State :=
  { par := p, em := m, handles := List.replicate p.nh Handle.unbound, carry := false, rbit := false, rval := 0,
    pos := 0, len := 0, base := 0, status := 0, drawn := 0, host := [] }

/-- The state after reset, with the parameter values of the spec's test vectors (log entry 2) and no element listed
(log entry 5). -/
def State.reset : State := State.resetWith Params.vectors []

end Sys2Proof.Machine
end

