-- ==== Sys2Proof/Machine/Flags.lean ====
section
/-! DEFINITION. Flags: the fields of `STATUS` and the cause codes (10 R31, 60 R161, R165), and the carries of the
adder (44 R141, R143). -/

namespace Sys2Proof.Machine

/-- The causes of `InvalidArgument` (R161). -/
inductive Cause where
  | unboundHandle
  | indexRange
  | sectionRange
  | lengthMismatch
  | aliased
  | shiftRange
  | storageRange
  | empty
  | illegalCommand
  deriving DecidableEq, Repr

/-- The cause code written to `STATUS.CAUSE` (R161). -/
def causeCode : Cause → Nat
  | .unboundHandle => 1
  | .indexRange => 2
  | .sectionRange => 3
  | .lengthMismatch => 4
  | .aliased => 5
  | .shiftRange => 6
  | .storageRange => 7
  | .empty => 8
  | .illegalCommand => 9

/-- A `STATUS` value: `ERR` in bit 0, `ERRS` in bit 1, zeros in bits 3:2, `CAUSE` in bits 7:4 (R31). -/
def statusWord (err errs : Bool) (cause : Nat) : BitVec 8 :=
  BitVec.ofNat 8 (err.toNat + 2 * errs.toNat + 16 * cause)

/-- `STATUS.ERR` (R31). -/
def statusErr (st : BitVec 8) : Bool := st.getLsbD 0

/-- `STATUS.ERRS` (R31). -/
def statusErrs (st : BitVec 8) : Bool := st.getLsbD 1

/-- `STATUS.CAUSE` (R31). -/
def statusCause (st : BitVec 8) : Nat := (st.extractLsb' 4 4).toNat

/-- `STATUS` after a completing command: "`STATUS.ERR <- 0 ; STATUS.CAUSE <- 0 ; STATUS.ERRS` unchanged" (R165). -/
def statusCompleted (st : BitVec 8) : BitVec 8 := statusWord false (statusErrs st) 0

/-- `STATUS` after a raise with cause `c`: "`STATUS.ERR <- 1 ; STATUS.CAUSE <- c ; STATUS.ERRS <- 1`" (R165). -/
def statusRaised (c : Cause) : BitVec 8 := statusWord true true (causeCode c)

/-- The per-element full adder `fa(x, y, c)`: the sum in `w` bits and the next carry, 1 "if either addition step
overflowed" (R141). -/
def fullAdd (w : Nat) (x y : Elem) (c : Bool) : Elem × Bool :=
  let t := (x + c.toNat) % 2 ^ w
  let c1 := decide (t < x)
  let s := (t + y) % 2 ^ w
  let c2 := decide (s < t)
  (s, c1 || c2)

/-- The carry-out of ADD: the boundary bit read back from the last element of `out` when `bme` is not 0, the carry of
the last step otherwise (R143, 90 C2). -/
def carryOut (bme : Nat) (lastOut : Elem) (c : Bool) : Bool :=
  if bme = 0 then c else lastOut.testBit bme

end Sys2Proof.Machine
end

