-- ==== Sys2Proof/Machine/Operands.lean ====
section
/-! DEFINITION. Operand forms: index helpers (00 R15), geometry (40 R90), bit addressing (41 R100), masks and element
shifts (00 R12, R14), and the aliasing relations (00 R17, 20 R64). -/

namespace Sys2Proof.Machine

/-- `elem_index(bit) = bit div W` (R15). -/
def elemIndex (w bit : Nat) : Nat := bit / w

/-- `elem_length(bit_length) = ceil(bit_length / W)` (R15, with R12's reading of `ceil`). -/
def elemLength (w bits : Nat) : Nat := (bits + w - 1) / w

/-- The number with the low `n` bits set, `2^n - 1`. -/
def lowMask (n : Nat) : Elem := 2 ^ n - 1

/-- `~x` within `w` bits: `ONES - x` (00 section 5.2). -/
def compl (w : Nat) (x : Elem) : Elem := ones w - x

/-- `x << n`: `(x * 2^n) mod 2^W` (00 section 5.2); every use has `1 <= n <= W-1` (R14). -/
def shl (w : Nat) (x : Elem) (n : Nat) : Elem := x * 2 ^ n % 2 ^ w

/-- `x >> n`: `x div 2^n` (00 section 5.2); every use has `1 <= n <= W-1` (R14). -/
def shr (x : Elem) (n : Nat) : Elem := x / 2 ^ n

/-- `overhang_mask`: `2^bme - 1`, or `ONES` when `bme = 0` (R90). -/
def overhangMaskOf (w bme : Nat) : Elem := if bme = 0 then ones w else lowMask bme

/-- `geom(base, L)`: the fields of a handle bound to `base` with `L` bits (R90). -/
def geom (w base bits : Nat) : Handle :=
  let n := elemLength w bits
  { bound := true
    first := base
    lengthBits := bits
    lengthElements := n
    bme := bits % w
    overhangMask := overhangMaskOf w (bits % w)
    last := if bits = 0 then base + n else base + n - 1
    limiter := base + n }

/-- A bound handle's cached fields are those of its `first` and `length_bits`, and its range lies in `EM` (R24). -/
def handleConsistent (p : Params) (h : Handle) : Bool :=
  h == geom p.w h.first h.lengthBits && decide (h.limiter ≤ p.m)

/-- Handle register `H[h]`; a selector at or above `NH` names none, and is refused before it is used (R75). -/
def State.handle (s : State) (h : HSel) : Handle := s.handles.getD h.toNat Handle.unbound

/-- The element holding array bit `i` of a handle: `first + i div W` (R100, R50). -/
def bitElement (w : Nat) (h : Handle) (i : Nat) : Nat := h.first + elemIndex w i

/-- The one-bit mask of array bit `i` in its element: `2^(i mod W)` (R100). -/
def bitMask (w i : Nat) : Elem := 2 ^ (i % w)

/-- `disjoint(a, b)`: the ranges `[first, limiter)` have no index in common (R17). -/
def disjoint (a b : Handle) : Bool := decide (min a.limiter b.limiter ≤ max a.first b.first)

/-- `coincide(a, b)`: the same `first` and the same `length_bits` (R17). -/
def coincide (a b : Handle) : Bool := decide (a.first = b.first) && decide (a.lengthBits = b.lengthBits)

/-- The pairs that the bitwise and shift commands admit: disjoint or coinciding (R64). -/
def disjointOrCoincide (a b : Handle) : Bool := disjoint a b || coincide a b

/-- A relation holds between every pair of the listed handles (R64: "every pair of operand handles"). -/
def allPairs (rel : Handle → Handle → Bool) : List Handle → Bool
  | [] => true
  | a :: rest => rest.all (rel a) && allPairs rel rest

end Sys2Proof.Machine
end

