-- ==== Sys2Proof/Machine/Ops.lean ====
section
/-! DEFINITION. The shared operations: element memory, registers, the loops of the datapaths, raising
`InvalidArgument` and completing (60 R165), the checks of the preconditions in their order (60 R164), and the one
shape every command has. -/

namespace Sys2Proof.Machine

/-! ### Element memory -/

/-- What an element that nothing has written since power-up reads as. The spec leaves it arbitrary but fixed (R35,
93 U9). DESIGN CHOICE, unsafe (log entry 5). -/
def unlistedElem : Elem := 0

/-- `EM[k]` (R21); a read has no side effect (R55). -/
def emRead : Memory → Nat → Elem
  | [], _ => unlistedElem
  | (a, v) :: rest, k => if a = k then v else emRead rest k

/-- The listing of element `k` with value `v`: nothing when `v` is what an unlisted element reads as. -/
def emCell (k : Nat) (v : Elem) : Memory := if v = unlistedElem then [] else [(k, v)]

/-- `EM[k] <- v`: writes that element and nothing else (R55); an element holds `w` bits. -/
def emWrite (w : Nat) (m : Memory) (k : Nat) (v : Elem) : Memory :=
  m.filter (fun c => decide (c.1 < k)) ++ (emCell k (v % 2 ^ w) ++ m.filter (fun c => decide (k < c.1)))

/-- The canonical form of the element memory: indices strictly rising and below `M`, every element below `2^W`, none
listed that an unlisted index reads as. -/
abbrev Memory.wf (p : Params) (m : Memory) : Prop :=
  m.Pairwise (fun a b => a.1 < b.1) ∧ ∀ c ∈ m, c.1 < p.m ∧ c.2 < 2 ^ p.w ∧ c.2 ≠ unlistedElem

/-! ### Loops of the datapaths -/

/-- `for k in 0 .. n-1`, low to high. -/
def forUp {α : Type} : Nat → (Nat → α → α) → α → α
  | 0, _, a => a
  | n + 1, f, a => f n (forUp n f a)

/-- `for k = n-1 down to 0`, high to low. -/
def forDown {α : Type} : Nat → (Nat → α → α) → α → α
  | 0, _, a => a
  | n + 1, f, a => forDown n f (f n a)

/-- Low to high, step `k` writes `value k` of the memory as it then is to element `base + k`. -/
def fillUp (w base n : Nat) (value : Nat → Memory → Elem) (m : Memory) : Memory :=
  forUp n (fun k m => emWrite w m (base + k) (value k m)) m

/-- High to low, step `k` writes `value k` of the memory as it then is to element `base + k`. -/
def fillDown (w base n : Nat) (value : Nat → Memory → Elem) (m : Memory) : Memory :=
  forDown n (fun k m => emWrite w m (base + k) (value k m)) m

/-! ### Registers -/

/-- Replace the element memory. -/
def State.setEm (s : State) (m : Memory) : State := { s with em := m }

/-- Write handle register `H[h]`; only INIT and SETLEN do (R25). -/
def State.setHandle (s : State) (h : HSel) (v : Handle) : State := { s with handles := s.handles.set h.toNat v }

/-- `CARRY <- b` (R26). -/
def State.setCarry (s : State) (b : Bool) : State := { s with carry := b }

/-- `RBIT <- b` (R27). -/
def State.setRbit (s : State) (b : Bool) : State := { s with rbit := b }

/-- `RVAL <- v` (R28). -/
def State.setRval (s : State) (v : Elem) : State := { s with rval := v }

/-- Write `STATUS` (R31). -/
def State.setStatus (s : State) (st : BitVec 8) : State := { s with status := st }

/-- Write `POS`; only the host does (R29). -/
def State.setPos (s : State) (v : Nat) : State := { s with pos := v }

/-- Write `LEN`; only the host does (R29). -/
def State.setLen (s : State) (v : Nat) : State := { s with len := v }

/-- Write `BASE`; only the host does (R29). -/
def State.setBase (s : State) (v : Nat) : State := { s with base := v }

/-- Count `n` more draws. -/
def State.addDrawn (s : State) (n : Nat) : State := { s with drawn := s.drawn + n }

/-- The true value of the last element: `EM[last] & overhang_mask` (R67, R112). -/
def lastValue (m : Memory) (h : Handle) : Elem := emRead m h.last &&& h.overhangMask

/-- Replace the overhang bits of an array's last element by `d`, cut to their number (R66 (b)):
`EM[last] <- (v & overhang_mask) | (draw(W - bme) * 2^bme)`; without overhang bits, nothing (R121, R155). -/
def drawOverhang (w : Nat) (h : Handle) (d : Nat) (m : Memory) : Memory :=
  if h.bme = 0 then m
  else emWrite w m h.last (lastValue m h ||| d % 2 ^ (w - h.bme) * 2 ^ h.bme)

/-! ### Raising and completing -/

/-- `raise InvalidArgument(c)`: the block's one exception. It writes `STATUS` and nothing else; there is no vector, no
saved program counter, no mode and no return from it (R165, R166). -/
def State.raise (s : State) (c : Cause) : State := s.setStatus (statusRaised c)

/-- The end of a completing command (R165). -/
def State.complete (s : State) : State := s.setStatus (statusCompleted s.status)

/-- The cause of the first check that does not hold (R164). -/
def firstCause : List (Bool × Cause) → Option Cause
  | [] => none
  | (holds, c) :: rest => if holds then firstCause rest else some c

/-- Every command: all preconditions are evaluated in order on the state before it; if one fails the command raises
its cause, else the effect is applied and `STATUS` written (R11, R164, R165). `operands` are the handles whose
elements the effect reaches; one whose cached geometry breaks R24 stops the machine (log entry 10). -/
def runCommand (s : State) (checks : List (Bool × Cause)) (operands : List HSel) (effect : State → State) :
    Host.Outcome State Fault Refusal :=
  match firstCause checks with
  | some c => .next (s.raise c)
  | none =>
    if operands.all (fun h => handleConsistent s.par (s.handle h)) then .next (effect s).complete
    else .fault .brokenGeometry

/-! ### The checks, each with its cause (R161) -/

/-- "a handle selector its format uses is `NH` or greater" is illegal (R75). -/
def selectorsLegal (s : State) (hs : List HSel) : Bool × Cause :=
  (hs.all (fun h => decide (h.toNat < s.par.nh)), .illegalCommand)

/-- Every handle named is bound (R162). -/
def handlesBound (s : State) (hs : List HSel) : Bool × Cause :=
  (hs.all (fun h => (s.handle h).bound), .unboundHandle)

/-- `first + ceil(LEN / W) <= M` (R92, R93; R57). -/
def storageFits (s : State) (first : Nat) : Bool × Cause :=
  (decide (first + elemLength s.par.w s.len ≤ s.par.m), .storageRange)

/-- All the named handles have the `length_bits` of `hd` (R135, R140, R150). -/
def lengthsAgree (s : State) (hd : HSel) (sources : List HSel) : Bool × Cause :=
  (sources.all (fun h => decide ((s.handle h).lengthBits = (s.handle hd).lengthBits)), .lengthMismatch)

/-- The array is not empty (R112, R140). -/
def notEmpty (s : State) (h : HSel) : Bool × Cause := (decide (0 < (s.handle h).lengthBits), .empty)

/-- `POS < length_bits` (R100). -/
def indexInRange (s : State) (h : HSel) : Bool × Cause := (decide (s.pos < (s.handle h).lengthBits), .indexRange)

/-- `POS + length <= length_bits`, the sum exact (R107, R121, R123; R9). -/
def sectionInRange (s : State) (length : Nat) (host : HSel) : Bool × Cause :=
  (decide (s.pos + length ≤ (s.handle host).lengthBits), .sectionRange)

/-- `POS <= length_bits` (R150). -/
def shiftInRange (s : State) (h : HSel) : Bool × Cause := (decide (s.pos ≤ (s.handle h).lengthBits), .shiftRange)

/-- Every pair of the named handles is related as R64 asks. -/
def aliasing (s : State) (rel : Handle → Handle → Bool) (hs : List HSel) : Bool × Cause :=
  (allPairs rel (hs.map s.handle), .aliased)

end Sys2Proof.Machine
end

