-- ==== Sys2Proof/Machine/BarrelShifter.lean ====
section
/-! DEFINITION. The barrel_shifter (spec 45): LSH and RSH, logical shifts of a whole array, in place allowed. -/

namespace Sys2Proof.Machine

/-- The preconditions common to LSH and RSH, in checking order (R150). -/
def shiftChecks (s : State) (hd hs1 : HSel) : List (Bool × Cause) :=
  [selectorsLegal s [hd, hs1], handlesBound s [hd, hs1], lengthsAgree s hd [hs1], shiftInRange s hd,
    aliasing s disjointOrCoincide [hd, hs1]]

/-- Output element `k` of LSH (R153): `e` whole elements and `b` bits; "next" is the next lower element, and below the
array there are zeros. -/
def lshElem (w : Nat) (inp : Handle) (e b : Nat) (k : Nat) (m : Memory) : Elem :=
  if k < e then 0
  else if b = 0 then emRead m (inp.first + (k - e))
  else
    shl w (emRead m (inp.first + (k - e))) b |||
      (if k - e = 0 then 0 else shr (emRead m (inp.first + (k - e - 1))) (w - b))

/-- `in(k)` under RSH: the last element is masked, and above the array there are zeros (R153, R67). -/
def rshIn (inp : Handle) (k : Nat) (m : Memory) : Elem :=
  if k + 1 < inp.lengthElements then emRead m (inp.first + k)
  else if k + 1 = inp.lengthElements then emRead m (inp.first + k) &&& inp.overhangMask
  else 0

/-- Output element `k` of RSH (R153). -/
def rshElem (w : Nat) (inp : Handle) (e b : Nat) (k : Nat) (m : Memory) : Elem :=
  if inp.lengthElements ≤ k + e then 0
  else if b = 0 then rshIn inp (k + e) m
  else shr (rshIn inp (k + e) m) b ||| shl w (rshIn inp (k + e + 1) m) (w - b)

/-- The effect of LSH for any draw of the overhang bits: high to low, then the overhang (R153, R155). -/
def lshEffect (ovh : Nat) (hd hs1 : HSel) (s : State) : State :=
  let w := s.par.w
  let out := s.handle hd
  let m := fillDown w out.first out.lengthElements (lshElem w (s.handle hs1) (s.pos / w) (s.pos % w)) s.em
  (s.setEm (drawOverhang w out ovh m)).addDrawn 1

/-- The effect of RSH for any draw of the overhang bits: low to high, then the overhang (R153, R155). -/
def rshEffect (ovh : Nat) (hd hs1 : HSel) (s : State) : State :=
  let w := s.par.w
  let out := s.handle hd
  let m := fillUp w out.first out.lengthElements (rshElem w (s.handle hs1) (s.pos / w) (s.pos % w)) s.em
  (s.setEm (drawOverhang w out ovh m)).addDrawn 1

/-- LSH shifts an array toward higher bit indices (R151); the draw is a free value (log entry 6). -/
def execLsh (hd hs1 : HSel) (s : State) : Host.Outcome State Fault Refusal :=
  runCommand s (shiftChecks s hd hs1) [hd, hs1] (fun s => lshEffect (Config.draw s.drawn) hd hs1 s)

/-- RSH shifts an array toward lower bit indices (R152); the draw is a free value (log entry 6). -/
def execRsh (hd hs1 : HSel) (s : State) : Host.Outcome State Fault Refusal :=
  runCommand s (shiftChecks s hd hs1) [hd, hs1] (fun s => rshEffect (Config.draw s.drawn) hd hs1 s)

end Sys2Proof.Machine
end

