-- ==== Sys2Proof/Machine/BitManipulator.lean ====
section
/-! DEFINITION. The bit_manipulator (spec 41): single-bit commands, whole-array fills, section commands and LASTVAL. -/

namespace Sys2Proof.Machine

/-! ### Single-bit commands (R100 to R104) -/

/-- The preconditions common to the four single-bit commands (R100). -/
def singleBitChecks (s : State) (hd : HSel) : List (Bool × Cause) :=
  [selectorsLegal s [hd], handlesBound s [hd], indexInRange s hd]

/-- Read-modify-write of the element that holds bit `POS`: `change` gets the element and the one-bit mask (R53,
R100). -/
def modifyBit (s : State) (hd : HSel) (change : Elem → Elem → Elem) : State :=
  let k := bitElement s.par.w (s.handle hd) s.pos
  s.setEm (emWrite s.par.w s.em k (change (emRead s.em k) (bitMask s.par.w s.pos)))

/-- SETBIT: `EM[k] <- EM[k] | 2^p` (R101). -/
def execSetbit (hd : HSel) (s : State) : Host.Outcome State Fault Refusal :=
  runCommand s (singleBitChecks s hd) [hd] (fun s => modifyBit s hd (fun v m => v ||| m))

/-- CLRBIT: `EM[k] <- EM[k] & ~(2^p)` (R102). -/
def execClrbit (hd : HSel) (s : State) : Host.Outcome State Fault Refusal :=
  runCommand s (singleBitChecks s hd) [hd] (fun s => modifyBit s hd (fun v m => v &&& compl s.par.w m))

/-- TGLBIT: `EM[k] <- EM[k] ^ 2^p` (R103). -/
def execTglbit (hd : HSel) (s : State) : Host.Outcome State Fault Refusal :=
  runCommand s (singleBitChecks s hd) [hd] (fun s => modifyBit s hd (fun v m => v ^^^ m))

/-- RDBIT: `RBIT <- EM[k][p]` (R104). -/
def execRdbit (hd : HSel) (s : State) : Host.Outcome State Fault Refusal :=
  runCommand s (singleBitChecks s hd) [hd]
    (fun s => s.setRbit ((emRead s.em (bitElement s.par.w (s.handle hd) s.pos)).testBit (s.pos % s.par.w)))

/-! ### Whole-array fills (R105, R106) -/

/-- Every element of `[first, limiter)` becomes `v`, overhang bits included. -/
def fillArray (s : State) (hd : HSel) (v : Elem) : State :=
  let h := s.handle hd
  s.setEm (fillUp s.par.w h.first (h.limiter - h.first) (fun _ _ => v) s.em)

/-- CLRALL (R105). -/
def execClrall (hd : HSel) (s : State) : Host.Outcome State Fault Refusal :=
  runCommand s [selectorsLegal s [hd], handlesBound s [hd]] [hd] (fun s => fillArray s hd 0)

/-- SETALL (R106). -/
def execSetall (hd : HSel) (s : State) : Host.Outcome State Fault Refusal :=
  runCommand s [selectorsLegal s [hd], handlesBound s [hd]] [hd] (fun s => fillArray s hd (ones s.par.w))

/-! ### Section commands (R107 to R109) -/

/-- `apply(k, m)`: combine element `first + k` with the mask (R109). -/
def applyMask (w first : Nat) (change : Elem → Elem → Elem) (k : Nat) (mask : Elem) (m : Memory) : Memory :=
  emWrite w m (first + k) (change (emRead m (first + k)) mask)

/-- The section datapath (R109): the run of `len` bits at bit `pos`. Shape (a): the run fits in one element. Shape
(b): partial first element, whole interior elements, partial last element; when the run ends on an element boundary
the element after it is neither read nor written (90 C8). -/
def sectionRun (w first pos len : Nat) (change : Elem → Elem → Elem) (m : Memory) : Memory :=
  if len = 0 then m
  else
    let lim := pos + len
    let e0 := pos / w
    let r0 := pos % w
    let r1 := lim % w
    if e0 = (lim - 1) / w then
      applyMask w first change e0 (if len = w then ones w else lowMask len * 2 ^ r0) m
    else
      let m1 := applyMask w first change e0 (ones w - lowMask r0) m
      let m2 := forUp (lim / w - (e0 + 1)) (fun j m => applyMask w first change (e0 + 1 + j) (ones w) m) m1
      if r1 = 0 then m2 else applyMask w first change (lim / w) (lowMask r1) m2

/-- The preconditions of SETSEC and CLRSEC (R107, R108). -/
def sectionChecks (s : State) (hd : HSel) : List (Bool × Cause) :=
  [selectorsLegal s [hd], handlesBound s [hd], sectionInRange s s.len hd]

/-- SETSEC: `apply` is `EM | m` (R107, R109). -/
def execSetsec (hd : HSel) (s : State) : Host.Outcome State Fault Refusal :=
  runCommand s (sectionChecks s hd) [hd]
    (fun s => s.setEm (sectionRun s.par.w (s.handle hd).first s.pos s.len (fun v m => v ||| m) s.em))

/-- CLRSEC: `apply` is `EM & ~m` (R108, R109). -/
def execClrsec (hd : HSel) (s : State) : Host.Outcome State Fault Refusal :=
  runCommand s (sectionChecks s hd) [hd]
    (fun s => s.setEm (sectionRun s.par.w (s.handle hd).first s.pos s.len (fun v m => v &&& compl s.par.w m) s.em))

/-! ### The masked last element (R112) -/

/-- LASTVAL: `RVAL <- EM[last] & overhang_mask` (R112). -/
def execLastval (hd : HSel) (s : State) : Host.Outcome State Fault Refusal :=
  runCommand s [selectorsLegal s [hd], handlesBound s [hd], notEmpty s hd] [hd]
    (fun s => s.setRval (lastValue s.em (s.handle hd)))

end Sys2Proof.Machine
end

