-- ==== Sys2Proof/Machine/BitwiseAlu.lean ====
section
/-! DEFINITION. The bitwise_alu (spec 43): AND, OR, XOR, NOT, element-wise on raw elements, overhang bits included. -/

namespace Sys2Proof.Machine

/-- The preconditions common to the four commands, in checking order (R135). -/
def bitwiseChecks (s : State) (hd : HSel) (sources : List HSel) : List (Bool × Cause) :=
  [selectorsLegal s (hd :: sources), handlesBound s (hd :: sources), lengthsAgree s hd sources,
    aliasing s disjointOrCoincide (hd :: sources)]

/-- `EM[out + k] <- op EM[in1 + k] EM[in2 + k]`, low to high (R130). -/
def bitwise2 (s : State) (op : Elem → Elem → Elem) (hd hs1 hs2 : HSel) : State :=
  s.setEm (fillUp s.par.w (s.handle hd).first (s.handle hd).lengthElements
    (fun k m => op (emRead m ((s.handle hs1).first + k)) (emRead m ((s.handle hs2).first + k))) s.em)

/-- `EM[out + k] <- op EM[in + k]`, low to high (R130). -/
def bitwise1 (s : State) (op : Elem → Elem) (hd hs1 : HSel) : State :=
  s.setEm (fillUp s.par.w (s.handle hd).first (s.handle hd).lengthElements
    (fun k m => op (emRead m ((s.handle hs1).first + k))) s.em)

/-- AND (R131). -/
def execAnd (hd hs1 hs2 : HSel) (s : State) : Host.Outcome State Fault Refusal :=
  runCommand s (bitwiseChecks s hd [hs1, hs2]) [hd, hs1, hs2] (fun s => bitwise2 s (fun x y => x &&& y) hd hs1 hs2)

/-- OR (R132). -/
def execOr (hd hs1 hs2 : HSel) (s : State) : Host.Outcome State Fault Refusal :=
  runCommand s (bitwiseChecks s hd [hs1, hs2]) [hd, hs1, hs2] (fun s => bitwise2 s (fun x y => x ||| y) hd hs1 hs2)

/-- XOR (R133). -/
def execXor (hd hs1 hs2 : HSel) (s : State) : Host.Outcome State Fault Refusal :=
  runCommand s (bitwiseChecks s hd [hs1, hs2]) [hd, hs1, hs2] (fun s => bitwise2 s (fun x y => x ^^^ y) hd hs1 hs2)

/-- NOT: `ONES - element` (R134). -/
def execNot (hd hs1 : HSel) (s : State) : Host.Outcome State Fault Refusal :=
  runCommand s (bitwiseChecks s hd [hs1]) [hd, hs1] (fun s => bitwise1 s (compl s.par.w) hd hs1)

end Sys2Proof.Machine
end

