-- ==== Sys2Proof/Machine/HandleUnit.lean ====
section
/-! DEFINITION. The handle unit: INIT and SETLEN (spec 40). Neither reads or writes `EM`. -/

namespace Sys2Proof.Machine

/-- INIT binds a handle register to a buffer and a bit length; it need not be bound before (R92). -/
def execInit (hd : HSel) (s : State) : Host.Outcome State Fault Refusal :=
  runCommand s [selectorsLegal s [hd], storageFits s s.base] []
    (fun s => s.setHandle hd (geom s.par.w s.base s.len))

/-- SETLEN recomputes the geometry for a new length over the same storage; `first` and `bound` keep their values
(R93). -/
def execSetlen (hd : HSel) (s : State) : Host.Outcome State Fault Refusal :=
  runCommand s [selectorsLegal s [hd], handlesBound s [hd], storageFits s (s.handle hd).first] []
    (fun s => s.setHandle hd { geom s.par.w (s.handle hd).first s.len with bound := (s.handle hd).bound })

end Sys2Proof.Machine
end

