-- ==== Sys2Proof/Machine/RippleAdder.lean ====
section
/-! DEFINITION. The ripple_carry_adder (spec 44): ADD. -/

namespace Sys2Proof.Machine

/-- One step of the carry chain for an element that is not the last (R142). -/
def addStep (w a b o : Nat) (k : Nat) (mc : Memory × Bool) : Memory × Bool :=
  let r := fullAdd w (emRead mc.1 (a + k)) (emRead mc.1 (b + k)) mc.2
  (emWrite w mc.1 (o + k) r.1, r.2)

/-- The carry chain (R142): every element but the last raw, low to high; then the masked last elements, the sum written
at full width. The second component is the carry of the last step. -/
def addChain (w : Nat) (in1 in2 out : Handle) (cin : Bool) (m : Memory) : Memory × Bool :=
  let n := in1.lengthElements
  let low := forUp (n - 1) (addStep w in1.first in2.first out.first) (m, cin)
  let x := emRead low.1 (in1.first + (n - 1)) &&& in1.overhangMask
  let y := emRead low.1 (in2.first + (n - 1)) &&& in1.overhangMask
  let r := fullAdd w x y low.2
  (emWrite w low.1 (out.first + (n - 1)) r.1, r.2)

/-- The effect of ADD: the chain, then `CARRY` as R143 says, the boundary bit read back from `out`. -/
def addEffect (hd hs1 hs2 : HSel) (cin : Bool) (s : State) : State :=
  let out := s.handle hd
  let r := addChain s.par.w (s.handle hs1) (s.handle hs2) out cin s.em
  (s.setEm r.1).setCarry (carryOut out.bme (emRead r.1 (out.first + (out.lengthElements - 1))) r.2)

/-- ADD adds two arrays of equal length and a carry-in, as unsigned numbers (R140); the three arrays are pairwise
disjoint (R144). -/
def execAdd (hd hs1 hs2 : HSel) (cin : Bool) (s : State) : Host.Outcome State Fault Refusal :=
  runCommand s
    [selectorsLegal s [hd, hs1, hs2], handlesBound s [hd, hs1, hs2], lengthsAgree s hd [hs1, hs2], notEmpty s hd,
      aliasing s disjoint [hd, hs1, hs2]]
    [hd, hs1, hs2] (fun s => addEffect hd hs1 hs2 cin s)

end Sys2Proof.Machine
end

