-- ==== Sys2Proof/Machine/SectionMover.lean ====
section
/-! DEFINITION. The bit_section_mover (spec 42): RDSEC and WRSEC. The length of the run is the declared length of the
freestanding array. -/

namespace Sys2Proof.Machine

/-! ### RDSEC (R121, R122) -/

/-- Output element `j` of RDSEC (R122, with the second term as 90 C1 corrects it). `e`, `r` split `POS`; `missing` is
drawn for the bits of an element that is not there to be read. -/
def rdsecElem (w : Nat) (src : Handle) (e r missing : Nat) (j : Nat) (m : Memory) : Elem :=
  let cur := emRead m (src.first + e + j)
  if r = 0 then cur
  else if src.first + e + j + 1 < src.limiter then
    shr cur r ||| shl w (emRead m (src.first + e + j + 1)) (w - r)
  else shr cur r ||| missing % 2 ^ r * 2 ^ (w - r)

/-- The effect of RDSEC, for any two draws: `missing` (R122) and `ovh`, the overhang bits of the destination (R121). -/
def rdsecEffect (missing ovh : Nat) (hd hs1 : HSel) (s : State) : State :=
  let w := s.par.w
  let src := s.handle hs1
  let dst := s.handle hd
  let m := fillUp w dst.first dst.lengthElements (rdsecElem w src (s.pos / w) (s.pos % w) missing) s.em
  (s.setEm (drawOverhang w dst ovh m)).addDrawn 2

/-- RDSEC copies a run of bits out of the source into the whole of the destination (R121); its two draws are free
values (log entries 6, 7). -/
def execRdsec (hd hs1 : HSel) (s : State) : Host.Outcome State Fault Refusal :=
  runCommand s
    [selectorsLegal s [hd, hs1], handlesBound s [hd, hs1], sectionInRange s (s.handle hd).lengthBits hs1,
      aliasing s disjoint [hd, hs1]]
    [hd, hs1]
    (fun s => rdsecEffect (Config.draw s.drawn) (Config.draw (s.drawn + 1)) hd hs1 s)

/-! ### WRSEC (R123, R124) -/

/-- `cnt_j`, how many meaningful bits input element `j` carries (R124). -/
def wrsecCount (w : Nat) (inp : Handle) (j : Nat) : Nat :=
  if j + 1 < inp.lengthElements then w else if inp.bme = 0 then w else inp.bme

/-- Step `j` of the WRSEC datapath (R124): the input element without its overhang bits goes to one or two destination
elements, each read before it is written. `e`, `ls` split `POS`. -/
def wrsecStep (w : Nat) (inp dst : Handle) (e ls : Nat) (j : Nat) (m : Memory) : Memory :=
  let cnt := wrsecCount w inp j
  let rs := w - ls
  let x := emRead m (inp.first + j) % 2 ^ cnt
  let a := min cnt rs
  let k := dst.first + e + j
  let m1 := emWrite w m k ((emRead m k &&& compl w (lowMask a * 2 ^ ls)) ||| x % 2 ^ a * 2 ^ ls)
  if rs < cnt then
    emWrite w m1 (k + 1) ((emRead m1 (k + 1) &&& compl w (lowMask (cnt - rs))) ||| x / 2 ^ rs)
  else m1

/-- The effect of WRSEC (R124). -/
def wrsecEffect (hd hs1 : HSel) (s : State) : State :=
  let w := s.par.w
  let inp := s.handle hs1
  s.setEm (forUp inp.lengthElements (wrsecStep w inp (s.handle hd) (s.pos / w) (s.pos % w)) s.em)

/-- WRSEC writes the whole of the input into a run of bits of the destination and preserves every other bit (R123). -/
def execWrsec (hd hs1 : HSel) (s : State) : Host.Outcome State Fault Refusal :=
  runCommand s
    [selectorsLegal s [hd, hs1], handlesBound s [hd, hs1], sectionInRange s (s.handle hs1).lengthBits hd,
      aliasing s disjoint [hd, hs1]]
    [hd, hs1] (fun s => wrsecEffect hd hs1 s)

end Sys2Proof.Machine
end

