-- ==== Sys2Proof/Machine/Dispatch.lean ====
section
/-! DEFINITION. `exec`: one arm per command of spec/opcode_table.json, each one direct call of its meaning. -/

namespace Sys2Proof.Machine

def exec (i : Instr) (s : State) : Host.Outcome State Fault Refusal :=
  match i with
  | .init hd => Sys2Proof.Machine.execInit hd s
  | .setlen hd => Sys2Proof.Machine.execSetlen hd s
  | .setbit hd => Sys2Proof.Machine.execSetbit hd s
  | .clrbit hd => Sys2Proof.Machine.execClrbit hd s
  | .tglbit hd => Sys2Proof.Machine.execTglbit hd s
  | .rdbit hd => Sys2Proof.Machine.execRdbit hd s
  | .clrall hd => Sys2Proof.Machine.execClrall hd s
  | .setall hd => Sys2Proof.Machine.execSetall hd s
  | .setsec hd => Sys2Proof.Machine.execSetsec hd s
  | .clrsec hd => Sys2Proof.Machine.execClrsec hd s
  | .lastval hd => Sys2Proof.Machine.execLastval hd s
  | .rdsec hd hs1 => Sys2Proof.Machine.execRdsec hd hs1 s
  | .wrsec hd hs1 => Sys2Proof.Machine.execWrsec hd hs1 s
  | .and hd hs1 hs2 => Sys2Proof.Machine.execAnd hd hs1 hs2 s
  | .or hd hs1 hs2 => Sys2Proof.Machine.execOr hd hs1 hs2 s
  | .xor hd hs1 hs2 => Sys2Proof.Machine.execXor hd hs1 hs2 s
  | .not hd hs1 => Sys2Proof.Machine.execNot hd hs1 s
  | .add hd hs1 hs2 cin => Sys2Proof.Machine.execAdd hd hs1 hs2 cin s
  | .lsh hd hs1 => Sys2Proof.Machine.execLsh hd hs1 s
  | .rsh hd hs1 => Sys2Proof.Machine.execRsh hd hs1 s

end Sys2Proof.Machine
end

