-- ==== Sys2Proof/Machine/HostActions.lean ====
section
/-! DEFINITION. What the host can do between commands (70 R187, R188) and what the block does with a command word
(30 R70, R75). -/

namespace Sys2Proof.Machine

/-- A Boolean as the number 0 or 1. -/
def bitValue (b : Bool) : Nat := b.toNat

/-- A field of a handle register as the host reads it (R25). -/
def handleFieldValue (h : Handle) : HandleField → Nat
  | .bound => bitValue h.bound
  | .first => h.first
  | .lengthBits => h.lengthBits
  | .lengthElements => h.lengthElements
  | .bme => h.bme
  | .overhangMask => h.overhangMask
  | .last => h.last
  | .limiter => h.limiter

/-- What a host read gives, if the place exists (R187). Reading changes nothing (R55). -/
def hostRead (s : State) : HostPort → Option Nat
  | .em k => if k < s.par.m then some (emRead s.em k) else none
  | .handle h field => (s.handles[h]?).map (fun x => handleFieldValue x field)
  | .carry => some (bitValue s.carry)
  | .rbit => some (bitValue s.rbit)
  | .rval => some s.rval
  | .status => some s.status.toNat

/-- The fault of a host read of a place that does not exist. -/
def missingPlace : HostPort → Fault
  | .em _ => .noSuchElement
  | _ => .noSuchHandle

/-- A host write of the value `v` to a place `n` bits wide, which gives `s`: "any `IDXW`-bit value", "any `W`-bit value"
(R187). -/
def hostWrite (n v : Nat) (s : State) : Host.Outcome State Fault Refusal :=
  if v < 2 ^ n then .next s else .fault .valueTooWide

/-- Reset (R180): every register as R35 says; `EM` keeps its contents. The model's own fields stay: the parameters, the
count of draws (a draw is fresh for the whole run) and the host's remaining actions. -/
def State.applyReset (s : State) : State :=
  { State.resetWith s.par s.em with drawn := s.drawn, host := s.host }

/-- The block executes the word written to `CMD`: an illegal word raises ILLEGAL_COMMAND, any other is the command it
decodes to (R75). -/
def issueWord (cw : CommandWord) (s : State) : Host.Outcome State Fault Refusal :=
  match decode cw with
  | .error _ => .next (s.raise .illegalCommand)
  | .ok i => exec i s

/-- One host action on the state. -/
def hostAct (a : HostAction) (s : State) : Host.Outcome State Fault Refusal :=
  match a with
  | .writeEm k v =>
    if k < s.par.m then hostWrite s.par.w v (s.setEm (emWrite s.par.w s.em k v))
    else .fault .noSuchElement
  | .writePos v => hostWrite s.par.idxw v (s.setPos v)
  | .writeLen v => hostWrite s.par.idxw v (s.setLen v)
  | .writeBase v => hostWrite s.par.idxw v (s.setBase v)
  | .read port => if (hostRead s port).isSome then .next s else .fault (missingPlace port)
  | .issue cw => issueWord cw s
  | .reset => .next s.applyReset

/-- The next thing that happens: the oldest pending host action is taken from the list and carried out. With none
pending the block is idle and keeps all its state (R177). -/
def hostStep (s : State) : Host.Outcome State Fault Refusal :=
  match s.host with
  | [] => .next s
  | a :: rest => hostAct a { s with host := rest }

/-- Put a command word where the next step takes it: the host issues it next. -/
def issueNext (s : State) (cw : CommandWord) : State := { s with host := .issue cw :: s.host }

end Sys2Proof.Machine
end

