-- ==== Sys2Proof/Machine/Step.lean ====
section
/-! DEFINITION. One step (00 R11; 70 R190): the oldest pending host action. The host acts between commands only (log
entry 11) and there is no time (log entry 12). -/

namespace Sys2Proof.Machine

/-- One step of the machine: the next host action, a command among them. -/
def step (s : State) : Host.Outcome State Fault Refusal := hostStep s

/-- `s` with the command word whose low `nbits` bits are `w` (the others 0) as the host's next action, so that the very
next step runs it (log entry 8). -/
def State.withFetchWord (s : State) (nbits w : Nat) : State :=
  issueNext s (BitVec.ofNat 32 (w % 2 ^ nbits))

end Sys2Proof.Machine
end

