-- ==== Sys2Proof/Safety.lean ====
section
/-! DEFINITION. The terms in which claims are made: the array bits and values that contracts speak of (00 R16), what a
command completing or raising leaves (60 R165), the invariant of the machine (10 R24, R35), and what counts as a run
gone wrong (70 R190). -/

namespace Sys2Proof.Machine

/-! ### Arrays (R16, R17) -/

/-- `abit(h, t)`: stored bit `t` of the array, `EM[H[h].first + t div W][t mod W]` (R16). -/
def State.abit (s : State) (h : HSel) (t : Nat) : Bool :=
  (emRead s.em ((s.handle h).first + t / s.par.w)).testBit (t % s.par.w)

/-- The number whose bit `t` is `f t`, for `t < n`: `sum over 0 <= t < n of f(t) * 2^t`. -/
def bitsToNat (f : Nat → Bool) : Nat → Nat
  | 0 => 0
  | n + 1 => bitsToNat f n + (f n).toNat * 2 ^ n

/-- `val(h)`: the value of the array, from its declared bits only (R16). -/
def State.val (s : State) (h : HSel) : Nat := bitsToNat (s.abit h) (s.handle h).lengthBits

/-- How many bits of the array are stored, `length_elements * W` (R16). -/
def State.storedBits (s : State) (h : HSel) : Nat := (s.handle h).lengthElements * s.par.w

/-- Element index `k` lies in `range(h)`: `H[h].first <= k < H[h].limiter` (R17). -/
abbrev State.inRange (s : State) (h : HSel) (k : Nat) : Prop := (s.handle h).first ≤ k ∧ k < (s.handle h).limiter

/-! ### What preconditions a command has (R75, R162, R17, R64) -/

/-- Every listed selector names a handle register (R75). -/
abbrev State.legal (s : State) (hs : List HSel) : Prop := ∀ h ∈ hs, h.toNat < s.par.nh

/-- Every listed handle is bound (R162). -/
abbrev State.allBound (s : State) (hs : List HSel) : Prop := ∀ h ∈ hs, (s.handle h).bound = true

/-- `range(a)` and `range(b)` have no index in common (R17). -/
abbrev State.apart (s : State) (a b : HSel) : Prop :=
  (s.handle a).limiter ≤ (s.handle b).first ∨ (s.handle b).limiter ≤ (s.handle a).first
    ∨ (s.handle a).lengthBits = 0 ∨ (s.handle b).lengthBits = 0

/-- The two handles describe the same storage with the same geometry (R17). -/
abbrev State.same (s : State) (a b : HSel) : Prop :=
  (s.handle a).first = (s.handle b).first ∧ (s.handle a).lengthBits = (s.handle b).lengthBits

/-- The two handles are disjoint or coincide (R64, the bitwise and shift commands). -/
abbrev State.apartOrSame (s : State) (a b : HSel) : Prop := s.apart a b ∨ s.same a b

/-! ### How a command ends (R165) -/

/-- The command raises `InvalidArgument(c)`: a next state that differs from the one before in `STATUS` alone. -/
def raises (i : Instr) (s : State) (c : Cause) : Prop :=
  exec i s = .next { s with status := statusRaised c }

/-- The command completes in the state `t` and nothing but the listed parts may differ: `t` is `s` with the element
memory of `t` and the status of a completing command. -/
def completesInMemory (i : Instr) (s t : State) : Prop :=
  exec i s = .next t ∧ t = { s with em := t.em, status := statusCompleted s.status }

/-! ### The invariant -/

/-- R24, written out: the derived fields of a bound handle. -/
structure GeometryHolds (p : Params) (h : Handle) : Prop where
  /-- `length_elements = ceil(length_bits / W)`. -/
  lengthElements : h.lengthElements = (h.lengthBits + p.w - 1) / p.w
  /-- `bme = length_bits mod W`. -/
  bme : h.bme = h.lengthBits % p.w
  /-- `overhang_mask = 2^bme - 1` if `bme != 0`, else `ONES`. -/
  overhangMask : h.overhangMask = if h.bme = 0 then 2 ^ p.w - 1 else 2 ^ h.bme - 1
  /-- `limiter = first + length_elements`. -/
  limiter : h.limiter = h.first + h.lengthElements
  /-- `last = limiter - 1` if `length_bits > 0`, else `last = limiter = first`. -/
  last : if h.lengthBits = 0 then h.last = h.limiter ∧ h.limiter = h.first else h.last + 1 = h.limiter
  /-- `limiter <= M`. -/
  inMemory : h.limiter ≤ p.m

/-- A `STATUS` that some command or reset can leave (R31, R165): bits 3:2 are 0; without `ERR` there is no cause; with
`ERR` the sticky bit is set and the cause is one of the nine. -/
structure StatusLegal (st : BitVec 8) : Prop where
  /-- Bits 3:2 read as 0. -/
  zeros : st.extractLsb' 2 2 = 0
  /-- A completed command leaves cause 0. -/
  completed : statusErr st = false → statusCause st = 0
  /-- A raise leaves `ERRS` set and a cause from 1 to 9. -/
  raised : statusErr st = true → statusErrs st = true ∧ 1 ≤ statusCause st ∧ statusCause st ≤ 9

/-- The invariant that reset establishes and every step keeps. -/
structure State.Inv (s : State) : Prop where
  /-- The parameters are admissible (R6 to R9). -/
  params : s.par.wf
  /-- The element memory is in its canonical form: elements below `2^W` at indices below `M` (R21). -/
  memory : Memory.wf s.par s.em
  /-- There are `NH` handle registers (R23). -/
  fileSize : s.handles.length = s.par.nh
  /-- Bound handles satisfy R24. -/
  geometry : ∀ h ∈ s.handles, h.bound = true → GeometryHolds s.par h
  /-- An unbound handle is as reset left it: only INIT writes one (R25, R35). -/
  unbound : ∀ h ∈ s.handles, h.bound = false → h = Handle.unbound
  /-- `RVAL` is `W` bits wide (R28). -/
  rval : s.rval < 2 ^ s.par.w
  /-- `POS` is `IDXW` bits wide (R29). -/
  pos : s.pos < 2 ^ s.par.idxw
  /-- `LEN` is `IDXW` bits wide (R29). -/
  len : s.len < 2 ^ s.par.idxw
  /-- `BASE` is `IDXW` bits wide (R29). -/
  base : s.base < 2 ^ s.par.idxw
  /-- `STATUS` holds a legal value (R31). -/
  status : StatusLegal s.status

/-- A run has gone wrong "exactly when `STATUS.ERRS = 1` at its end" (R190). -/
def State.wentWrong (s : State) : Bool := statusErrs s.status

/-! ### The causes, command by command -/

/-- The causes R163's table gives each command; ILLEGAL_COMMAND can arise for any word. -/
def causesOf : Instr → List Cause
  | .init _ => [.storageRange, .illegalCommand]
  | .setlen _ => [.unboundHandle, .storageRange, .illegalCommand]
  | .setbit _ | .clrbit _ | .tglbit _ | .rdbit _ => [.unboundHandle, .indexRange, .illegalCommand]
  | .clrall _ | .setall _ => [.unboundHandle, .illegalCommand]
  | .setsec _ | .clrsec _ => [.unboundHandle, .sectionRange, .illegalCommand]
  | .lastval _ => [.unboundHandle, .empty, .illegalCommand]
  | .rdsec _ _ | .wrsec _ _ => [.unboundHandle, .sectionRange, .aliased, .illegalCommand]
  | .and _ _ _ | .or _ _ _ | .xor _ _ _ | .not _ _ =>
    [.unboundHandle, .lengthMismatch, .aliased, .illegalCommand]
  | .add _ _ _ _ => [.unboundHandle, .lengthMismatch, .aliased, .empty, .illegalCommand]
  | .lsh _ _ | .rsh _ _ => [.unboundHandle, .lengthMismatch, .aliased, .shiftRange, .illegalCommand]

/-- R164's order of the causes: the lower number is reported. INDEX_RANGE, SECTION_RANGE and SHIFT_RANGE share a place
("a command can raise at most one of these three"). -/
def causeRank : Cause → Nat
  | .illegalCommand => 0
  | .unboundHandle => 1
  | .storageRange => 2
  | .lengthMismatch => 3
  | .empty => 4
  | .indexRange => 5
  | .sectionRange => 5
  | .shiftRange => 5
  | .aliased => 6

/-- `i`'s precondition with cause `c` is violated in `s`: R161's column "raised when", command by command, with R64's
table for ALIAS. -/
def violates (i : Instr) (s : State) : Cause → Prop
  | .illegalCommand => ¬ s.legal i.selectors
  | .unboundHandle => (∀ hd, i ≠ .init hd) ∧ ¬ s.allBound i.selectors
  | .storageRange =>
    match i with
    | .init _ => s.par.m < s.base + (s.len + s.par.w - 1) / s.par.w
    | .setlen hd => s.par.m < (s.handle hd).first + (s.len + s.par.w - 1) / s.par.w
    | _ => False
  | .lengthMismatch =>
    match i with
    | .and hd hs1 hs2 | .or hd hs1 hs2 | .xor hd hs1 hs2 | .add hd hs1 hs2 _ =>
      ¬ ((s.handle hs1).lengthBits = (s.handle hd).lengthBits ∧ (s.handle hs2).lengthBits = (s.handle hd).lengthBits)
    | .not hd hs1 | .lsh hd hs1 | .rsh hd hs1 => (s.handle hs1).lengthBits ≠ (s.handle hd).lengthBits
    | _ => False
  | .empty =>
    match i with
    | .lastval hd | .add hd _ _ _ => (s.handle hd).lengthBits = 0
    | _ => False
  | .indexRange =>
    match i with
    | .setbit hd | .clrbit hd | .tglbit hd | .rdbit hd => (s.handle hd).lengthBits ≤ s.pos
    | _ => False
  | .sectionRange =>
    match i with
    | .setsec hd | .clrsec hd => (s.handle hd).lengthBits < s.pos + s.len
    | .rdsec hd hs1 => (s.handle hs1).lengthBits < s.pos + (s.handle hd).lengthBits
    | .wrsec hd hs1 => (s.handle hd).lengthBits < s.pos + (s.handle hs1).lengthBits
    | _ => False
  | .shiftRange =>
    match i with
    | .lsh hd _ | .rsh hd _ => (s.handle hd).lengthBits < s.pos
    | _ => False
  | .aliased =>
    match i with
    | .and hd hs1 hs2 | .or hd hs1 hs2 | .xor hd hs1 hs2 =>
      ¬ (s.apartOrSame hd hs1 ∧ s.apartOrSame hd hs2 ∧ s.apartOrSame hs1 hs2)
    | .not hd hs1 | .lsh hd hs1 | .rsh hd hs1 => ¬ s.apartOrSame hd hs1
    | .add hd hs1 hs2 _ => ¬ (s.apart hd hs1 ∧ s.apart hd hs2 ∧ s.apart hs1 hs2)
    | .rdsec hd hs1 | .wrsec hd hs1 => ¬ s.apart hd hs1
    | _ => False

/-! ### Words -/

/-- The command word with these fields, written as the sum of the fields at their places, bit 0 least significant
(R71). -/
def fieldsWord (op : Nat) (hd hs1 hs2 : HSel) (cin : Bool) : CommandWord :=
  BitVec.ofNat 32 (op + 2 ^ 8 * hd.toNat + 2 ^ 12 * hs1.toNat + 2 ^ 16 * hs2.toNat + 2 ^ 20 * cin.toNat)


/-- Whether a command's format has the field `cin`: F3C alone (R72). -/
def usesCin : Instr → Bool
  | .add _ _ _ _ => true
  | _ => false

/-- R75's list: an `op` that is none of the twenty; a bit of `rsv` that is 1; a field its format does not use that is
nonzero; a handle selector its format uses that is `nh` or greater. A format uses `hs1` when it names two handles and
`hs2` when it names three (R72). -/
def illegalWord (nh : Nat) (cw : CommandWord) : Prop :=
  (∀ i : Instr, opField cw ≠ i.op) ∨ rsvField cw ≠ 0 ∨
    ∃ i : Instr, opField cw = i.op ∧
      ((i.selectors.length < 2 ∧ hs1Field cw ≠ 0) ∨ (i.selectors.length < 3 ∧ hs2Field cw ≠ 0) ∨
        (usesCin i = false ∧ cinField cw ≠ 0) ∨ nh ≤ (hdField cw).toNat ∨
        (2 ≤ i.selectors.length ∧ nh ≤ (hs1Field cw).toNat) ∨ (3 ≤ i.selectors.length ∧ nh ≤ (hs2Field cw).toNat))

end Sys2Proof.Machine
end

