-- ==== Sys2Proof/Certificates/Slice0/Obligations.lean ====
section
/-! DEFINITION. The statements for the provers. A contract statement gives the command's word, field by field, and then
an if-else chain in the order of R164: each failing precondition, with the cause it raises, and last the case in which
the command completes, with the state it completes in. `raises` and `completesInMemory` (Sys2Proof/Safety.lean) are equations `exec i s = .next …`. -/

open Sys2Proof Sys2Proof.Machine

/-! ### Encoding -/

/-- R71, R72, R74: decoding the word of a command gives it back, with every selector and carry-in. -/
def Obligations.DecodeOfEncodeIsTheCommand : Prop :=
  ∀ i : Instr, decode (encode i) = .ok i

/-- R75, D15 ("One encoding per command makes decode injective"): a word that decodes is the word of its command. -/
def Obligations.EncodeOfDecodeIsTheWord : Prop :=
  ∀ (cw : CommandWord) (i : Instr), decode cw = .ok i → encode i = cw

/-- R72: a word selects a command when `cw & mask = match`. -/
def Obligations.WordSelectsCommandByMaskAndMatch : Prop :=
  (∀ (cw : CommandWord) (i : Instr), decode cw = .ok i → cw &&& i.formatMask = i.formatMatch) ∧
    ∀ (cw : CommandWord) (i : Instr), cw &&& i.formatMask = i.formatMatch →
      ∃ j, decode cw = .ok j ∧ j.op = i.op

/-- Words of 95_test_vectors.md decode to what their listings say. -/
def Obligations.ListedWordsDecode : Prop :=
  decode 0x00010240 = .ok (.and 2 0 1) ∧ decode 0x00110350 = .ok (.add 3 0 1 true) ∧
    decode 0x00001031 = .ok (.wrsec 0 1) ∧ decode 0x00000130 = .ok (.rdsec 1 0) ∧
    decode 0x00000F25 = .ok (.setall 15) ∧ decode 0x00001024 = .error .unusedFieldSet ∧
    decode 0x80000020 = .error .reservedBitSet ∧ decode 0x00000029 = .error .unknownOp

/-- R75: an illegal word raises ILLEGAL_COMMAND and changes nothing but `STATUS`; every other word is one of the twenty
commands with its selectors below `NH`, and the block runs it. -/
def Obligations.IllegalWordsRaiseAndLegalWordsRun : Prop :=
  ∀ (s : State) (cw : CommandWord) (rest : List HostAction), s.host = .issue cw :: rest →
    (illegalWord s.par.nh cw →
      step s = .next { s with host := rest, status := statusRaised .illegalCommand }) ∧
    (¬ illegalWord s.par.nh cw →
      ∃ i, i.wf s.par.nh ∧ decode cw = .ok i ∧ step s = exec i { s with host := rest })

/-- R70, R11: a step whose next host action is a command word runs the command that the word decodes to; the action
leaves the model's list of pending actions. -/
def Obligations.StepRunsTheDecodedCommand : Prop :=
  ∀ (s : State) (cw : CommandWord) (rest : List HostAction) (i : Instr),
    s.host = .issue cw :: rest → decode cw = .ok i → i.wf s.par.nh →
      step s = exec i { s with host := rest }

/-! ### The whole machine -/

/-- R160, R11: from every state that meets the invariant every command completes or raises; it never stops. -/
def Obligations.EveryCommandCompletesOrRaises : Prop :=
  ∀ (i : Instr) (s : State), s.Inv → ∃ t, exec i s = .next t ∧
    (statusErr t.status = false ∨ ∃ c, t = { s with status := statusRaised c })

/-- R165: every command ends by writing `STATUS`, and a raising command writes nothing else. -/
def Obligations.CommandsEndByWritingStatus : Prop :=
  ∀ (i : Instr) (s t : State), exec i s = .next t →
    t.status.extractLsb' 2 2 = 0 ∧
    ((statusErr t.status = false ∧ statusCause t.status = 0 ∧ statusErrs t.status = statusErrs s.status) ∨
      ∃ c, statusErr t.status = true ∧ statusCause t.status = causeCode c ∧ statusErrs t.status = true ∧
        t = { s with status := t.status })

/-- R163: the causes a command raises are those of its row, and each of its row is raised by the command on some
operands in some state that meets the invariant. -/
def Obligations.CausesAreThoseOfTheTable : Prop :=
  (∀ (i : Instr) (s t : State), exec i s = .next t → statusErr t.status = true →
      ∃ c ∈ causesOf i, statusCause t.status = causeCode c) ∧
    ∀ (i : Instr), ∀ c ∈ causesOf i, ∃ (j : Instr) (s : State), j.op = i.op ∧ s.Inv ∧ raises j s c

/-- R164, R161: a command raises exactly the violated cause that comes first in R164's order, with its code in
`STATUS.CAUSE`; it completes when nothing is violated. -/
def Obligations.FirstViolatedCauseIsReported : Prop :=
  ∀ (i : Instr) (s : State), s.Inv →
    (∀ c, violates i s c → (∀ c', violates i s c' → causeRank c ≤ causeRank c') →
      ∃ t, exec i s = .next t ∧ t = { s with status := t.status } ∧ statusErr t.status = true ∧
        statusCause t.status = causeCode c) ∧
    ((∀ c, ¬ violates i s c) → ∃ t, exec i s = .next t ∧ statusErr t.status = false)

/-- R166, R31: only reset clears `ERRS`, and a host action that is neither a command nor reset leaves `STATUS`. -/
def Obligations.OnlyResetClearsErrs : Prop :=
  ∀ (s t : State) (a : HostAction) (rest : List HostAction), s.host = a :: rest → a ≠ .reset → step s = .next t →
    (statusErrs s.status = true → statusErrs t.status = true) ∧
    ((∀ cw, a ≠ .issue cw) → t.status = s.status)

/-- R24: at all times the derived fields of every bound handle are those of its `first` and `length_bits`. Every step
keeps it, whatever else the state holds, and reset establishes it. -/
def Obligations.BoundHandlesKeepDerivedGeometry : Prop :=
  (∀ s t : State, s.par.wf → (∀ h ∈ s.handles, h.bound = true → GeometryHolds s.par h) → step s = .next t →
      ∀ h ∈ t.handles, h.bound = true → GeometryHolds t.par h) ∧
    ∀ (p : Params) (m : Memory), ∀ h ∈ (State.resetWith p m).handles, h.bound = true → GeometryHolds p h

/-- The invariant of the machine is kept by every step, and no step changes the parameters. -/
def Obligations.EveryStepKeepsTheInvariant : Prop :=
  ∀ s t : State, s.Inv → step s = .next t → t.Inv ∧ t.par = s.par

/-- Reset establishes the invariant, for all admissible parameters and all contents of `EM`. -/
def Obligations.ResetMeetsTheInvariant : Prop :=
  (∀ (p : Params) (m : Memory), p.wf → Memory.wf p m → (State.resetWith p m).Inv) ∧ State.reset.Inv

/-- R22: a command writes only elements in the ranges of the handles it names, and reads no others: two states that
differ only in elements outside those ranges are led to states that differ only there. -/
def Obligations.CommandsReachOnlyOperandRanges : Prop :=
  (∀ (i : Instr) (s t : State), s.Inv → exec i s = .next t →
      ∀ k, (∀ h ∈ i.selectors, ¬ s.inRange h k) → emRead t.em k = emRead s.em k) ∧
    ∀ (i : Instr) (s t : State) (m : Memory), s.Inv → Memory.wf s.par m → exec i s = .next t →
      (∀ h ∈ i.selectors, ∀ k, s.inRange h k → emRead m k = emRead s.em k) →
        ∃ m', exec i { s with em := m } = .next { t with em := m' } ∧
          ∀ h ∈ i.selectors, ∀ k, s.inRange h k → emRead m' k = emRead t.em k

/-- R65, R67: overhang bits carry no meaning. Two states that agree on the declared bits of the arrays a command names
are led to the same registers and the same declared bits of those arrays, whatever the draws are (the model's count of
draws, log entry 6, may differ too). INIT and SETLEN, which choose what is
declared, read no element at all (R92, R93). -/
def Obligations.OverhangBitsNeverReachDeclaredBits : Prop :=
  ∀ (i : Instr) (s t : State) (m : Memory) (d : Nat), s.Inv → Memory.wf s.par m →
    (∀ hd, i ≠ .init hd) → (∀ hd, i ≠ .setlen hd) → exec i s = .next t →
    (∀ h ∈ i.selectors, ∀ u < (s.handle h).lengthBits, State.abit { s with em := m } h u = s.abit h u) →
      ∃ m' d', exec i { s with em := m, drawn := d } = .next { t with em := m', drawn := d' } ∧
        ∀ h ∈ i.selectors, ∀ u < (s.handle h).lengthBits, State.abit { t with em := m' } h u = t.abit h u

/-- R25: handle fields are written only by INIT and SETLEN, SETLEN keeps `bound` and `first`, and no host action but a
command or reset writes a handle; the host may read every field of every handle. -/
def Obligations.HandlesAreWrittenOnlyByInitAndSetlen : Prop :=
  (∀ (i : Instr) (s t : State), exec i s = .next t →
      (∀ k, (i ≠ .init k ∧ i ≠ .setlen k) → t.handle k = s.handle k) ∧
      ∀ k, i = .setlen k → (t.handle k).bound = (s.handle k).bound ∧ (t.handle k).first = (s.handle k).first) ∧
    (∀ (s t : State) (a : HostAction) (rest : List HostAction), s.host = a :: rest → a ≠ .reset →
      (∀ cw, a ≠ .issue cw) → step s = .next t → t.handles = s.handles) ∧
    ∀ (s : State) (h : HSel) (f : HandleField), s.Inv → h.toNat < s.par.nh →
      hostRead s (.handle h.toNat f) = some (handleFieldValue (s.handle h) f)

/-- R26 to R29: `CARRY` is written by a completing ADD only, `RBIT` by RDBIT, `RVAL` by LASTVAL; no command writes `POS`,
`LEN`, `BASE`; and no command reads `CARRY`, `RBIT` or `RVAL`: started with other values of them it does the same. -/
def Obligations.ResultRegistersHaveOneWriterAndNoReader : Prop :=
  ∀ (i : Instr) (s t : State), exec i s = .next t →
    (t.carry = s.carry ∨ (statusErr t.status = false ∧ ∃ hd hs1 hs2 cin, i = .add hd hs1 hs2 cin)) ∧
    (t.rbit = s.rbit ∨ (statusErr t.status = false ∧ ∃ hd, i = .rdbit hd)) ∧
    (t.rval = s.rval ∨ (statusErr t.status = false ∧ ∃ hd, i = .lastval hd)) ∧
    t.pos = s.pos ∧ t.len = s.len ∧ t.base = s.base ∧
    ∀ (c b : Bool) (v : Elem), ∃ (c' b' : Bool) (v' : Elem),
      exec i { s with carry := c, rbit := b, rval := v } = .next { t with carry := c', rbit := b', rval := v' } ∧
      (c' = c ∨ c' = t.carry) ∧ (b' = b ∨ b' = t.rbit) ∧ (v' = v ∨ v' = t.rval)

/-- R9, R23: in every state that meets the invariant each field of a bound handle fits the width the spec gives it. -/
def Obligations.HandleFieldsFitTheirWidths : Prop :=
  ∀ (s : State) (k : HSel), s.Inv → (s.handle k).bound = true →
    (s.handle k).first < 2 ^ s.par.idxw ∧ (s.handle k).lengthBits < 2 ^ s.par.idxw ∧
    (s.handle k).lengthElements < 2 ^ s.par.idxw ∧ (s.handle k).last < 2 ^ s.par.idxw ∧
    (s.handle k).limiter < 2 ^ s.par.idxw ∧ (s.handle k).bme < s.par.w ∧ (s.handle k).overhangMask < 2 ^ s.par.w

/-- R17: `disjoint` holds exactly when the two ranges have no index in common; a handle of length 0 is disjoint from
every handle. `apart` is the form of it in which the contracts below are stated. -/
def Obligations.DisjointMeansNoCommonElement : Prop :=
  ∀ (s : State) (a b : HSel), s.Inv → s.allBound [a, b] →
    ((disjoint (s.handle a) (s.handle b) = true ↔ ∀ k, ¬ (s.inRange a k ∧ s.inRange b k)) ∧
      (s.apart a b ↔ ∀ k, ¬ (s.inRange a k ∧ s.inRange b k)))

/-! ### Reset and the host -/

/-- R35: the state right after reset, for every choice of the parameters and of the contents of `EM`. -/
def Obligations.ResetLeavesTheRegistersAtZero : Prop :=
  ∀ (p : Params) (m : Memory),
    (State.resetWith p m).handles.length = p.nh ∧
    (∀ h ∈ (State.resetWith p m).handles, h.bound = false ∧ h.first = 0 ∧ h.lengthBits = 0 ∧ h.lengthElements = 0 ∧
      h.bme = 0 ∧ h.overhangMask = 0 ∧ h.last = 0 ∧ h.limiter = 0) ∧
    (∀ k, emRead (State.resetWith p m).em k = emRead m k) ∧
    (State.resetWith p m).carry = false ∧ (State.resetWith p m).rbit = false ∧ (State.resetWith p m).rval = 0 ∧
    (State.resetWith p m).pos = 0 ∧ (State.resetWith p m).len = 0 ∧ (State.resetWith p m).base = 0 ∧
    (State.resetWith p m).status = 0

/-- R180: the reset input puts every register in the state of R35 and does not write `EM`. The model's own list
of pending actions moves on (log entry 8). -/
def Obligations.ResetKeepsElementMemory : Prop :=
  ∀ (s : State) (rest : List HostAction), s.host = .reset :: rest →
    ∃ t, step s = .next t ∧ t = { s with
      handles := List.replicate s.par.nh Handle.unbound, carry := false, rbit := false, rval := 0, pos := 0, len := 0,
      base := 0, status := 0, drawn := t.drawn, host := rest }

/-- R55: a host write of `EM[k]` changes `EM[k]` and nothing else, and a host read has no side effect. -/
def Obligations.HostWritesOneElementAndReadsNone : Prop :=
  (∀ (s : State) (k v : Nat) (rest : List HostAction), s.host = .writeEm k v :: rest → k < s.par.m → v < 2 ^ s.par.w →
      ∃ t, step s = .next t ∧ t = { s with em := t.em, host := rest } ∧ emRead t.em k = v ∧
        ∀ j, j ≠ k → emRead t.em j = emRead s.em j) ∧
    ∀ (s : State) (k : Nat) (rest : List HostAction), s.host = .read (.em k) :: rest → k < s.par.m →
      step s = .next { s with host := rest } ∧ hostRead s (.em k) = some (emRead s.em k)

/-- R187, R29: the host writes `POS`, `LEN`, `BASE` with any `IDXW`-bit value, and nothing else changes. That a wider
value stops the machine is the model's choice (log entry 9). -/
def Obligations.HostWritesOperandRegisters : Prop :=
  ∀ (s : State) (v : Nat) (rest : List HostAction), v < 2 ^ s.par.idxw →
    (s.host = .writePos v :: rest → step s = .next { s with pos := v, host := rest }) ∧
    (s.host = .writeLen v :: rest → step s = .next { s with len := v, host := rest }) ∧
    (s.host = .writeBase v :: rest → step s = .next { s with base := v, host := rest })

/-- The model's choice (log entries 8 and 9): with no action pending the block is idle; a host action outside R187 stops
the machine under a name. -/
def Obligations.IdleStepsAndHostFaults : Prop :=
  (∀ s : State, s.host = [] → step s = .next s) ∧
    (∀ (s : State) (k v : Nat) (rest : List HostAction), s.host = .writeEm k v :: rest →
      if ¬ k < s.par.m then step s = .fault .noSuchElement
      else if ¬ v < 2 ^ s.par.w then step s = .fault .valueTooWide
      else ∃ t, step s = .next t) ∧
    ∀ (s : State) (v : Nat) (rest : List HostAction), s.host = .writePos v :: rest → 2 ^ s.par.idxw ≤ v →
      step s = .fault .valueTooWide

/-! ### Handle unit -/

/-- R92. -/
def Obligations.InitBindsTheHandle : Prop :=
  ∀ (hd : HSel) (s : State), s.Inv →
    decode (fieldsWord 0x10 hd 0 0 false) = .ok (.init hd) ∧
    if ¬ s.legal [hd] then raises (.init hd) s .illegalCommand
    else if ¬ s.base + (s.len + s.par.w - 1) / s.par.w ≤ s.par.m then raises (.init hd) s .storageRange
    else ∃ t, exec (.init hd) s = .next t ∧
      t = { s with handles := t.handles, status := statusCompleted s.status } ∧
      (t.handle hd).bound = true ∧ (t.handle hd).first = s.base ∧ (t.handle hd).lengthBits = s.len ∧
      GeometryHolds s.par (t.handle hd) ∧ ∀ k, k ≠ hd → t.handle k = s.handle k

/-- R93. -/
def Obligations.SetlenResizesOverTheSameStorage : Prop :=
  ∀ (hd : HSel) (s : State), s.Inv →
    decode (fieldsWord 0x11 hd 0 0 false) = .ok (.setlen hd) ∧
    if ¬ s.legal [hd] then raises (.setlen hd) s .illegalCommand
    else if ¬ s.allBound [hd] then raises (.setlen hd) s .unboundHandle
    else if ¬ (s.handle hd).first + (s.len + s.par.w - 1) / s.par.w ≤ s.par.m then
      raises (.setlen hd) s .storageRange
    else ∃ t, exec (.setlen hd) s = .next t ∧
      t = { s with handles := t.handles, status := statusCompleted s.status } ∧
      (t.handle hd).bound = true ∧ (t.handle hd).first = (s.handle hd).first ∧ (t.handle hd).lengthBits = s.len ∧
      GeometryHolds s.par (t.handle hd) ∧ ∀ k, k ≠ hd → t.handle k = s.handle k

/-! ### bit_manipulator -/

/-- R100, R101: with `k = first + POS div W` and `p = POS mod W`, `EM[k] <- EM[k] | 2^p`. -/
def Obligations.SetbitSetsTheBitAtPos : Prop :=
  ∀ (hd : HSel) (s : State), s.Inv →
    decode (fieldsWord 0x20 hd 0 0 false) = .ok (.setbit hd) ∧
    if ¬ s.legal [hd] then raises (.setbit hd) s .illegalCommand
    else if ¬ s.allBound [hd] then raises (.setbit hd) s .unboundHandle
    else if ¬ s.pos < (s.handle hd).lengthBits then raises (.setbit hd) s .indexRange
    else ∃ t, completesInMemory (.setbit hd) s t ∧
      emRead t.em ((s.handle hd).first + s.pos / s.par.w) =
        emRead s.em ((s.handle hd).first + s.pos / s.par.w) ||| 2 ^ (s.pos % s.par.w) ∧
      ∀ k, k ≠ (s.handle hd).first + s.pos / s.par.w → emRead t.em k = emRead s.em k

/-- R100, R102: `EM[k] <- EM[k] & ~(2^p)`, the complement within `W` bits. -/
def Obligations.ClrbitClearsTheBitAtPos : Prop :=
  ∀ (hd : HSel) (s : State), s.Inv →
    decode (fieldsWord 0x21 hd 0 0 false) = .ok (.clrbit hd) ∧
    if ¬ s.legal [hd] then raises (.clrbit hd) s .illegalCommand
    else if ¬ s.allBound [hd] then raises (.clrbit hd) s .unboundHandle
    else if ¬ s.pos < (s.handle hd).lengthBits then raises (.clrbit hd) s .indexRange
    else ∃ t, completesInMemory (.clrbit hd) s t ∧
      emRead t.em ((s.handle hd).first + s.pos / s.par.w) =
        emRead s.em ((s.handle hd).first + s.pos / s.par.w) &&& (2 ^ s.par.w - 1 - 2 ^ (s.pos % s.par.w)) ∧
      ∀ k, k ≠ (s.handle hd).first + s.pos / s.par.w → emRead t.em k = emRead s.em k

/-- R100, R103: `EM[k] <- EM[k] ^ 2^p`. -/
def Obligations.TglbitInvertsTheBitAtPos : Prop :=
  ∀ (hd : HSel) (s : State), s.Inv →
    decode (fieldsWord 0x22 hd 0 0 false) = .ok (.tglbit hd) ∧
    if ¬ s.legal [hd] then raises (.tglbit hd) s .illegalCommand
    else if ¬ s.allBound [hd] then raises (.tglbit hd) s .unboundHandle
    else if ¬ s.pos < (s.handle hd).lengthBits then raises (.tglbit hd) s .indexRange
    else ∃ t, completesInMemory (.tglbit hd) s t ∧
      emRead t.em ((s.handle hd).first + s.pos / s.par.w) =
        emRead s.em ((s.handle hd).first + s.pos / s.par.w) ^^^ 2 ^ (s.pos % s.par.w) ∧
      ∀ k, k ≠ (s.handle hd).first + s.pos / s.par.w → emRead t.em k = emRead s.em k

/-- R100, R104: `RBIT <- EM[k][p]`, that is `(EM[k] div 2^p) mod 2`. -/
def Obligations.RdbitReadsTheBitAtPos : Prop :=
  ∀ (hd : HSel) (s : State), s.Inv →
    decode (fieldsWord 0x23 hd 0 0 false) = .ok (.rdbit hd) ∧
    if ¬ s.legal [hd] then raises (.rdbit hd) s .illegalCommand
    else if ¬ s.allBound [hd] then raises (.rdbit hd) s .unboundHandle
    else if ¬ s.pos < (s.handle hd).lengthBits then raises (.rdbit hd) s .indexRange
    else ∃ t, exec (.rdbit hd) s = .next t ∧ t = { s with rbit := t.rbit, status := statusCompleted s.status } ∧
      t.rbit.toNat = emRead s.em ((s.handle hd).first + s.pos / s.par.w) / 2 ^ (s.pos % s.par.w) % 2

/-- R105: every element of the array becomes 0, overhang bits included. -/
def Obligations.ClrallClearsEveryElement : Prop :=
  ∀ (hd : HSel) (s : State), s.Inv →
    decode (fieldsWord 0x24 hd 0 0 false) = .ok (.clrall hd) ∧
    if ¬ s.legal [hd] then raises (.clrall hd) s .illegalCommand
    else if ¬ s.allBound [hd] then raises (.clrall hd) s .unboundHandle
    else ∃ t, completesInMemory (.clrall hd) s t ∧
      (∀ k, s.inRange hd k → emRead t.em k = 0) ∧ ∀ k, ¬ s.inRange hd k → emRead t.em k = emRead s.em k

/-- R106: every element of the array becomes `ONES`, overhang bits included. -/
def Obligations.SetallSetsEveryElement : Prop :=
  ∀ (hd : HSel) (s : State), s.Inv →
    decode (fieldsWord 0x25 hd 0 0 false) = .ok (.setall hd) ∧
    if ¬ s.legal [hd] then raises (.setall hd) s .illegalCommand
    else if ¬ s.allBound [hd] then raises (.setall hd) s .unboundHandle
    else ∃ t, completesInMemory (.setall hd) s t ∧
      (∀ k, s.inRange hd k → emRead t.em k = 2 ^ s.par.w - 1) ∧
      ∀ k, ¬ s.inRange hd k → emRead t.em k = emRead s.em k

/-- R107: every stored bit in the run becomes 1, every other bit, overhang bits included, is unchanged. -/
def Obligations.SetsecSetsExactlyTheRun : Prop :=
  ∀ (hd : HSel) (s : State), s.Inv →
    decode (fieldsWord 0x26 hd 0 0 false) = .ok (.setsec hd) ∧
    if ¬ s.legal [hd] then raises (.setsec hd) s .illegalCommand
    else if ¬ s.allBound [hd] then raises (.setsec hd) s .unboundHandle
    else if ¬ s.pos + s.len ≤ (s.handle hd).lengthBits then raises (.setsec hd) s .sectionRange
    else ∃ t, completesInMemory (.setsec hd) s t ∧
      (∀ u < s.storedBits hd, t.abit hd u = if s.pos ≤ u ∧ u < s.pos + s.len then true else s.abit hd u) ∧
      ∀ k, ¬ s.inRange hd k → emRead t.em k = emRead s.em k

/-- R108: every stored bit in the run becomes 0, every other bit is unchanged. -/
def Obligations.ClrsecClearsExactlyTheRun : Prop :=
  ∀ (hd : HSel) (s : State), s.Inv →
    decode (fieldsWord 0x27 hd 0 0 false) = .ok (.clrsec hd) ∧
    if ¬ s.legal [hd] then raises (.clrsec hd) s .illegalCommand
    else if ¬ s.allBound [hd] then raises (.clrsec hd) s .unboundHandle
    else if ¬ s.pos + s.len ≤ (s.handle hd).lengthBits then raises (.clrsec hd) s .sectionRange
    else ∃ t, completesInMemory (.clrsec hd) s t ∧
      (∀ u < s.storedBits hd, t.abit hd u = if s.pos ≤ u ∧ u < s.pos + s.len then false else s.abit hd u) ∧
      ∀ k, ¬ s.inRange hd k → emRead t.em k = emRead s.em k

/-- R112: `RVAL <- EM[last] & overhang_mask`; the element holds the top declared bits, the rest of `RVAL` is 0. -/
def Obligations.LastvalReadsTheMaskedLastElement : Prop :=
  ∀ (hd : HSel) (s : State), s.Inv →
    decode (fieldsWord 0x28 hd 0 0 false) = .ok (.lastval hd) ∧
    if ¬ s.legal [hd] then raises (.lastval hd) s .illegalCommand
    else if ¬ s.allBound [hd] then raises (.lastval hd) s .unboundHandle
    else if ¬ 0 < (s.handle hd).lengthBits then raises (.lastval hd) s .empty
    else ∃ t, exec (.lastval hd) s = .next t ∧ t = { s with rval := t.rval, status := statusCompleted s.status } ∧
      t.rval = emRead s.em (s.handle hd).last &&& (s.handle hd).overhangMask ∧
      ∀ p, t.rval.testBit p =
        (decide (p < s.par.w ∧ ((s.handle hd).lengthElements - 1) * s.par.w + p < (s.handle hd).lengthBits) &&
          s.abit hd (((s.handle hd).lengthElements - 1) * s.par.w + p))

/-! ### bit_section_mover -/

/-- R121, R125: the declared bits of the destination are the run of the source; the overhang bits of the destination are
a draw that this execution takes (a free value; how the model numbers draws is log entry 6). -/
def Obligations.RdsecCopiesTheRun : Prop :=
  ∀ (hd hs1 : HSel) (s : State), s.Inv →
    decode (fieldsWord 0x30 hd hs1 0 false) = .ok (.rdsec hd hs1) ∧
    if ¬ s.legal [hd, hs1] then raises (.rdsec hd hs1) s .illegalCommand
    else if ¬ s.allBound [hd, hs1] then raises (.rdsec hd hs1) s .unboundHandle
    else if ¬ s.pos + (s.handle hd).lengthBits ≤ (s.handle hs1).lengthBits then raises (.rdsec hd hs1) s .sectionRange
    else if ¬ s.apart hd hs1 then raises (.rdsec hd hs1) s .aliased
    else ∃ t, exec (.rdsec hd hs1) s = .next t ∧
      t = { s with em := t.em, drawn := t.drawn, status := statusCompleted s.status } ∧
      (∀ u < (s.handle hd).lengthBits, t.abit hd u = s.abit hs1 (s.pos + u)) ∧
      ((s.handle hd).bme ≠ 0 → ∃ n, s.drawn ≤ n ∧ n < t.drawn ∧ ∀ p, (s.handle hd).bme ≤ p → p < s.par.w →
        (emRead t.em (s.handle hd).last).testBit p = (Config.draw n).testBit (p - (s.handle hd).bme)) ∧
      ∀ k, ¬ s.inRange hd k → emRead t.em k = emRead s.em k

/-- R123, R125: the stored bits of the destination in the run are the declared bits of the input, every other stored bit,
overhang bits included, is unchanged. -/
def Obligations.WrsecWritesExactlyTheRun : Prop :=
  ∀ (hd hs1 : HSel) (s : State), s.Inv →
    decode (fieldsWord 0x31 hd hs1 0 false) = .ok (.wrsec hd hs1) ∧
    if ¬ s.legal [hd, hs1] then raises (.wrsec hd hs1) s .illegalCommand
    else if ¬ s.allBound [hd, hs1] then raises (.wrsec hd hs1) s .unboundHandle
    else if ¬ s.pos + (s.handle hs1).lengthBits ≤ (s.handle hd).lengthBits then raises (.wrsec hd hs1) s .sectionRange
    else if ¬ s.apart hd hs1 then raises (.wrsec hd hs1) s .aliased
    else ∃ t, completesInMemory (.wrsec hd hs1) s t ∧
      (∀ u < s.storedBits hd, t.abit hd u =
        if s.pos ≤ u ∧ u < s.pos + (s.handle hs1).lengthBits then s.abit hs1 (u - s.pos) else s.abit hd u) ∧
      ∀ k, ¬ s.inRange hd k → emRead t.em k = emRead s.em k

/-- R123 (the document's round-trip property): read a section of `src` into `dst`, then write it back at the same place;
every element of `src` is as before. -/
def Obligations.ReadThenWriteOfASectionRestores : Prop :=
  ∀ (src dst : HSel) (s t : State), s.Inv → exec (.rdsec dst src) s = .next t → statusErr t.status = false →
    ∃ u, completesInMemory (.wrsec src dst) t u ∧ ∀ k, s.inRange src k → emRead u.em k = emRead s.em k

/-! ### bitwise_alu -/

/-- R131, R135. -/
def Obligations.AndCombinesElementwise : Prop :=
  ∀ (hd hs1 hs2 : HSel) (s : State), s.Inv →
    decode (fieldsWord 0x40 hd hs1 hs2 false) = .ok (.and hd hs1 hs2) ∧
    if ¬ s.legal [hd, hs1, hs2] then raises (.and hd hs1 hs2) s .illegalCommand
    else if ¬ s.allBound [hd, hs1, hs2] then raises (.and hd hs1 hs2) s .unboundHandle
    else if ¬ ((s.handle hs1).lengthBits = (s.handle hd).lengthBits ∧
        (s.handle hs2).lengthBits = (s.handle hd).lengthBits) then raises (.and hd hs1 hs2) s .lengthMismatch
    else if ¬ (s.apartOrSame hd hs1 ∧ s.apartOrSame hd hs2 ∧ s.apartOrSame hs1 hs2) then
      raises (.and hd hs1 hs2) s .aliased
    else ∃ t, completesInMemory (.and hd hs1 hs2) s t ∧
      (∀ k < (s.handle hd).lengthElements, emRead t.em ((s.handle hd).first + k) =
        emRead s.em ((s.handle hs1).first + k) &&& emRead s.em ((s.handle hs2).first + k)) ∧
      (∀ u < s.storedBits hd, t.abit hd u = (s.abit hs1 u && s.abit hs2 u)) ∧
      ∀ k, ¬ s.inRange hd k → emRead t.em k = emRead s.em k

/-- R132, R135. -/
def Obligations.OrCombinesElementwise : Prop :=
  ∀ (hd hs1 hs2 : HSel) (s : State), s.Inv →
    decode (fieldsWord 0x41 hd hs1 hs2 false) = .ok (.or hd hs1 hs2) ∧
    if ¬ s.legal [hd, hs1, hs2] then raises (.or hd hs1 hs2) s .illegalCommand
    else if ¬ s.allBound [hd, hs1, hs2] then raises (.or hd hs1 hs2) s .unboundHandle
    else if ¬ ((s.handle hs1).lengthBits = (s.handle hd).lengthBits ∧
        (s.handle hs2).lengthBits = (s.handle hd).lengthBits) then raises (.or hd hs1 hs2) s .lengthMismatch
    else if ¬ (s.apartOrSame hd hs1 ∧ s.apartOrSame hd hs2 ∧ s.apartOrSame hs1 hs2) then
      raises (.or hd hs1 hs2) s .aliased
    else ∃ t, completesInMemory (.or hd hs1 hs2) s t ∧
      (∀ k < (s.handle hd).lengthElements, emRead t.em ((s.handle hd).first + k) =
        emRead s.em ((s.handle hs1).first + k) ||| emRead s.em ((s.handle hs2).first + k)) ∧
      (∀ u < s.storedBits hd, t.abit hd u = (s.abit hs1 u || s.abit hs2 u)) ∧
      ∀ k, ¬ s.inRange hd k → emRead t.em k = emRead s.em k

/-- R133, R135. -/
def Obligations.XorCombinesElementwise : Prop :=
  ∀ (hd hs1 hs2 : HSel) (s : State), s.Inv →
    decode (fieldsWord 0x42 hd hs1 hs2 false) = .ok (.xor hd hs1 hs2) ∧
    if ¬ s.legal [hd, hs1, hs2] then raises (.xor hd hs1 hs2) s .illegalCommand
    else if ¬ s.allBound [hd, hs1, hs2] then raises (.xor hd hs1 hs2) s .unboundHandle
    else if ¬ ((s.handle hs1).lengthBits = (s.handle hd).lengthBits ∧
        (s.handle hs2).lengthBits = (s.handle hd).lengthBits) then raises (.xor hd hs1 hs2) s .lengthMismatch
    else if ¬ (s.apartOrSame hd hs1 ∧ s.apartOrSame hd hs2 ∧ s.apartOrSame hs1 hs2) then
      raises (.xor hd hs1 hs2) s .aliased
    else ∃ t, completesInMemory (.xor hd hs1 hs2) s t ∧
      (∀ k < (s.handle hd).lengthElements, emRead t.em ((s.handle hd).first + k) =
        emRead s.em ((s.handle hs1).first + k) ^^^ emRead s.em ((s.handle hs2).first + k)) ∧
      (∀ u < s.storedBits hd, t.abit hd u = (s.abit hs1 u ^^ s.abit hs2 u)) ∧
      ∀ k, ¬ s.inRange hd k → emRead t.em k = emRead s.em k

/-- R134, R135: `ONES - element`. -/
def Obligations.NotInvertsElementwise : Prop :=
  ∀ (hd hs1 : HSel) (s : State), s.Inv →
    decode (fieldsWord 0x43 hd hs1 0 false) = .ok (.not hd hs1) ∧
    if ¬ s.legal [hd, hs1] then raises (.not hd hs1) s .illegalCommand
    else if ¬ s.allBound [hd, hs1] then raises (.not hd hs1) s .unboundHandle
    else if ¬ (s.handle hs1).lengthBits = (s.handle hd).lengthBits then raises (.not hd hs1) s .lengthMismatch
    else if ¬ s.apartOrSame hd hs1 then raises (.not hd hs1) s .aliased
    else ∃ t, completesInMemory (.not hd hs1) s t ∧
      (∀ k < (s.handle hd).lengthElements, emRead t.em ((s.handle hd).first + k) =
        2 ^ s.par.w - 1 - emRead s.em ((s.handle hs1).first + k)) ∧
      (∀ u < s.storedBits hd, t.abit hd u = !s.abit hs1 u) ∧
      ∀ k, ¬ s.inRange hd k → emRead t.em k = emRead s.em k

/-! ### ripple_carry_adder -/

/-- R141: the element full adder is exact, at every element width that R6 admits. -/
def Obligations.ElementFullAdderIsExact : Prop :=
  ∀ (w : Nat) (x y : Elem) (c : Bool), 1 ≤ w → x < 2 ^ w → y < 2 ^ w →
    (fullAdd w x y c).1 < 2 ^ w ∧
    (fullAdd w x y c).1 + 2 ^ w * (fullAdd w x y c).2.toNat = x + y + c.toNat

/-- R140, R143, R144: the exact sum of the array values, `CARRY` its carry-out, and the overhang bits of `out`: bit `bme`
equal to `CARRY`, all higher bits 0. -/
def Obligations.AddIsExactUnsignedAddition : Prop :=
  ∀ (hd hs1 hs2 : HSel) (cin : Bool) (s : State), s.Inv →
    decode (fieldsWord 0x50 hd hs1 hs2 cin) = .ok (.add hd hs1 hs2 cin) ∧
    if ¬ s.legal [hd, hs1, hs2] then raises (.add hd hs1 hs2 cin) s .illegalCommand
    else if ¬ s.allBound [hd, hs1, hs2] then raises (.add hd hs1 hs2 cin) s .unboundHandle
    else if ¬ ((s.handle hs1).lengthBits = (s.handle hd).lengthBits ∧
        (s.handle hs2).lengthBits = (s.handle hd).lengthBits) then raises (.add hd hs1 hs2 cin) s .lengthMismatch
    else if ¬ 0 < (s.handle hd).lengthBits then raises (.add hd hs1 hs2 cin) s .empty
    else if ¬ (s.apart hd hs1 ∧ s.apart hd hs2 ∧ s.apart hs1 hs2) then raises (.add hd hs1 hs2 cin) s .aliased
    else ∃ t, exec (.add hd hs1 hs2 cin) s = .next t ∧
      t = { s with em := t.em, carry := t.carry, status := statusCompleted s.status } ∧
      t.val hd + 2 ^ (s.handle hd).lengthBits * t.carry.toNat = s.val hs1 + s.val hs2 + cin.toNat ∧
      t.val hd < 2 ^ (s.handle hd).lengthBits ∧
      ((s.handle hd).bme ≠ 0 → ∀ p, (s.handle hd).bme ≤ p → p < s.par.w →
        (emRead t.em (s.handle hd).last).testBit p = (decide (p = (s.handle hd).bme) && t.carry)) ∧
      ∀ k, ¬ s.inRange hd k → emRead t.em k = emRead s.em k

/-- The carry into bit `n` of a bit-serial full adder on `a` and `b`: `c_0 = cin`,
`c_{t+1} = majority(a_t, b_t, c_t)` (95_test_vectors.md S7). -/
def serialCarry (a b : Nat → Bool) (cin : Bool) : Nat → Bool
  | 0 => cin
  | n + 1 => (a n && b n) || (a n && serialCarry a b cin n) || (b n && serialCarry a b cin n)

/-- The document's addition property (95_test_vectors.md S7): a completing ADD matches a naive bit-serial full adder, bit
for bit and in its carry-out. -/
def Obligations.AddMatchesBitSerialAdder : Prop :=
  ∀ (hd hs1 hs2 : HSel) (cin : Bool) (s t : State), s.Inv → exec (.add hd hs1 hs2 cin) s = .next t →
    statusErr t.status = false →
    (∀ u < (s.handle hd).lengthBits,
      t.abit hd u = (s.abit hs1 u ^^ s.abit hs2 u ^^ serialCarry (s.abit hs1) (s.abit hs2) cin u)) ∧
    t.carry = serialCarry (s.abit hs1) (s.abit hs2) cin (s.handle hd).lengthBits

/-! ### barrel_shifter -/

/-- R150, R151, R155: declared bit `u` of the result is 0 below the shift and the old bit `u - shift` above it; the
overhang bits are a draw that this execution takes (a free value; how the model numbers draws is log entry 6). -/
def Obligations.LshShiftsTowardHigherBits : Prop :=
  ∀ (hd hs1 : HSel) (s : State), s.Inv →
    decode (fieldsWord 0x60 hd hs1 0 false) = .ok (.lsh hd hs1) ∧
    if ¬ s.legal [hd, hs1] then raises (.lsh hd hs1) s .illegalCommand
    else if ¬ s.allBound [hd, hs1] then raises (.lsh hd hs1) s .unboundHandle
    else if ¬ (s.handle hs1).lengthBits = (s.handle hd).lengthBits then raises (.lsh hd hs1) s .lengthMismatch
    else if ¬ s.pos ≤ (s.handle hd).lengthBits then raises (.lsh hd hs1) s .shiftRange
    else if ¬ s.apartOrSame hd hs1 then raises (.lsh hd hs1) s .aliased
    else ∃ t, exec (.lsh hd hs1) s = .next t ∧
      t = { s with em := t.em, drawn := t.drawn, status := statusCompleted s.status } ∧
      (∀ u < (s.handle hd).lengthBits, t.abit hd u = if u < s.pos then false else s.abit hs1 (u - s.pos)) ∧
      t.val hd = s.val hs1 * 2 ^ s.pos % 2 ^ (s.handle hd).lengthBits ∧
      ((s.handle hd).bme ≠ 0 → ∃ n, s.drawn ≤ n ∧ n < t.drawn ∧ ∀ p, (s.handle hd).bme ≤ p → p < s.par.w →
        (emRead t.em (s.handle hd).last).testBit p = (Config.draw n).testBit (p - (s.handle hd).bme)) ∧
      ∀ k, ¬ s.inRange hd k → emRead t.em k = emRead s.em k

/-- R150, R152, R155: declared bit `u` of the result is the old bit `u + shift` where that is declared, and 0 elsewhere;
the overhang bits are a draw (a free value, log entry 6). -/
def Obligations.RshShiftsTowardLowerBits : Prop :=
  ∀ (hd hs1 : HSel) (s : State), s.Inv →
    decode (fieldsWord 0x61 hd hs1 0 false) = .ok (.rsh hd hs1) ∧
    if ¬ s.legal [hd, hs1] then raises (.rsh hd hs1) s .illegalCommand
    else if ¬ s.allBound [hd, hs1] then raises (.rsh hd hs1) s .unboundHandle
    else if ¬ (s.handle hs1).lengthBits = (s.handle hd).lengthBits then raises (.rsh hd hs1) s .lengthMismatch
    else if ¬ s.pos ≤ (s.handle hd).lengthBits then raises (.rsh hd hs1) s .shiftRange
    else if ¬ s.apartOrSame hd hs1 then raises (.rsh hd hs1) s .aliased
    else ∃ t, exec (.rsh hd hs1) s = .next t ∧
      t = { s with em := t.em, drawn := t.drawn, status := statusCompleted s.status } ∧
      (∀ u < (s.handle hd).lengthBits,
        t.abit hd u = if u + s.pos < (s.handle hd).lengthBits then s.abit hs1 (u + s.pos) else false) ∧
      t.val hd = s.val hs1 / 2 ^ s.pos ∧
      ((s.handle hd).bme ≠ 0 → ∃ n, s.drawn ≤ n ∧ n < t.drawn ∧ ∀ p, (s.handle hd).bme ≤ p → p < s.par.w →
        (emRead t.em (s.handle hd).last).testBit p = (Config.draw n).testBit (p - (s.handle hd).bme)) ∧
      ∀ k, ¬ s.inRange hd k → emRead t.em k = emRead s.em k

/-! ### Properties of two commands in a row -/

/-- R104 (the document's round-trip property): for every valid index, SETBIT then RDBIT yields 1, CLRBIT then RDBIT
yields 0. -/
def Obligations.SetOrClearThenReadGivesTheBit : Prop :=
  ∀ (hd : HSel) (s : State), s.Inv → s.legal [hd] → s.allBound [hd] → s.pos < (s.handle hd).lengthBits →
    (∃ t u, exec (.setbit hd) s = .next t ∧ exec (.rdbit hd) t = .next u ∧ u.rbit = true ∧
      statusErr u.status = false) ∧
    ∃ t u, exec (.clrbit hd) s = .next t ∧ exec (.rdbit hd) t = .next u ∧ u.rbit = false ∧
      statusErr u.status = false

/-- R103, R134: two TGLBIT of the same index restore `EM`, and so do two NOT in place. -/
def Obligations.InvertingTwiceRestoresMemory : Prop :=
  (∀ (hd : HSel) (s t : State), s.Inv → exec (.tglbit hd) s = .next t → statusErr t.status = false →
      ∃ u, completesInMemory (.tglbit hd) t u ∧ u.em = s.em) ∧
    ∀ (hd hs1 : HSel) (s t : State), s.Inv → s.same hd hs1 → exec (.not hd hs1) s = .next t →
      statusErr t.status = false → ∃ u, completesInMemory (.not hd hs1) t u ∧ u.em = s.em
end

