-- ==== Sys2Proof/Laws/Bits.lean ====
section
/-! SUPPORT. The bits of masks, complements and element shifts (00 section 5.2), and of array values (00 R16). -/

namespace Sys2Proof.Machine

theorem testBit_ones (w i : Nat) : (ones w).testBit i = decide (i < w) := by
  simp [ones, Nat.testBit_two_pow_sub_one]

theorem testBit_lowMask (n i : Nat) : (lowMask n).testBit i = decide (i < n) := by
  simp [lowMask, Nat.testBit_two_pow_sub_one]

theorem lowMask_lt (n : Nat) : lowMask n < 2 ^ n := Nat.sub_lt (Nat.two_pow_pos n) Nat.one_pos

theorem ones_lt (w : Nat) : ones w < 2 ^ w := lowMask_lt w

/-- `x * 2^n` moves every bit up by `n`. -/
theorem testBit_mul_two_pow (x n i : Nat) : (x * 2 ^ n).testBit i = (decide (n ≤ i) && x.testBit (i - n)) := by
  rw [← Nat.shiftLeft_eq, Nat.testBit_shiftLeft]

/-- The complement within `w` bits inverts the bits below `w` (00 section 5.2). -/
theorem testBit_compl (w i : Nat) (x : Elem) (hx : x < 2 ^ w) :
    (compl w x).testBit i = (decide (i < w) && !x.testBit i) := by
  have h : compl w x = 2 ^ w - (x + 1) := by
    show (2 ^ w - 1 : Nat) - x = 2 ^ w - (x + 1); omega
  rw [h, Nat.testBit_two_pow_sub_succ hx]

theorem compl_lt (w : Nat) (x : Elem) : compl w x < 2 ^ w :=
  Nat.lt_of_le_of_lt (Nat.sub_le _ _) (ones_lt w)

theorem testBit_shl (w n i : Nat) (x : Elem) :
    (shl w x n).testBit i = (decide (i < w) && (decide (n ≤ i) && x.testBit (i - n))) := by
  rw [shl, Nat.testBit_mod_two_pow, testBit_mul_two_pow]

theorem testBit_shr (n i : Nat) (x : Elem) : (shr x n).testBit i = x.testBit (n + i) := by
  rw [shr, ← Nat.shiftRight_eq_div_pow, Nat.testBit_shiftRight]

theorem testBit_bitMask (w t i : Nat) : (bitMask w t).testBit i = decide (t % w = i) := by
  rw [bitMask, Nat.testBit_two_pow]

theorem bitMask_lt (w t : Nat) (hw : 1 ≤ w) : bitMask w t < 2 ^ w :=
  Nat.pow_lt_pow_right (by decide) (Nat.mod_lt _ hw)

/-- An element below `2^w` has no bit at or above `w`. -/
theorem testBit_of_lt (w i : Nat) (x : Elem) (hx : x < 2 ^ w) (hi : w ≤ i) : x.testBit i = false :=
  Nat.testBit_lt_two_pow (Nat.lt_of_lt_of_le hx (Nat.pow_le_pow_right (by decide) hi))

/-! ### Array values -/

theorem bitsToNat_lt (f : Nat → Bool) (n : Nat) : bitsToNat f n < 2 ^ n := by
  induction n with
  | zero => simp [bitsToNat]
  | succ n ih =>
    have : (f n).toNat ≤ 1 := Bool.toNat_le _
    have := Nat.mul_le_mul_right (2 ^ n) this
    simp only [bitsToNat, Nat.pow_succ]
    omega

/-- Bit `i` of an array value is declared bit `i` of the array. -/
theorem testBit_bitsToNat (f : Nat → Bool) (n i : Nat) : (bitsToNat f n).testBit i = (decide (i < n) && f i) := by
  induction n with
  | zero => simp [bitsToNat]
  | succ n ih =>
    have hlt := bitsToNat_lt f n
    rw [bitsToNat, Nat.add_comm, Nat.mul_comm, Nat.testBit_two_pow_mul_add _ hlt]
    by_cases hi : i < n
    · simp [hi, ih, Nat.lt_succ_of_lt hi]
    · by_cases he : i = n
      · subst he; cases f i <;> simp
      · have h1 : ¬ i < n + 1 := by omega
        have h2 : i - n ≠ 0 := by omega
        obtain ⟨j, hj⟩ := Nat.exists_eq_succ_of_ne_zero h2
        cases f n <;> simp [hi, h1, hj, Nat.testBit_succ]

theorem bitsToNat_congr (f g : Nat → Bool) (n : Nat) (h : ∀ i < n, f i = g i) : bitsToNat f n = bitsToNat g n := by
  induction n with
  | zero => rfl
  | succ n ih => rw [bitsToNat, bitsToNat, ih fun i hi => h i (by omega), h n (by omega)]

end Sys2Proof.Machine
end

