-- ==== Sys2Proof/Laws/State.lean ====
section
/-! SUPPORT. One lemma per field per update of the state, true by rfl: a proof never unfolds a record update. Then the
handle register file: what reading a register gives after a write of one. -/

namespace Sys2Proof.Machine

variable (s : State)

/-! ### `State.setEm` -/

@[simp] theorem State.setEm_par (m : Memory) : (s.setEm m).par = s.par := rfl
@[simp] theorem State.setEm_em (m : Memory) : (s.setEm m).em = m := rfl
@[simp] theorem State.setEm_handles (m : Memory) : (s.setEm m).handles = s.handles := rfl
@[simp] theorem State.setEm_carry (m : Memory) : (s.setEm m).carry = s.carry := rfl
@[simp] theorem State.setEm_rbit (m : Memory) : (s.setEm m).rbit = s.rbit := rfl
@[simp] theorem State.setEm_rval (m : Memory) : (s.setEm m).rval = s.rval := rfl
@[simp] theorem State.setEm_pos (m : Memory) : (s.setEm m).pos = s.pos := rfl
@[simp] theorem State.setEm_len (m : Memory) : (s.setEm m).len = s.len := rfl
@[simp] theorem State.setEm_base (m : Memory) : (s.setEm m).base = s.base := rfl
@[simp] theorem State.setEm_status (m : Memory) : (s.setEm m).status = s.status := rfl
@[simp] theorem State.setEm_drawn (m : Memory) : (s.setEm m).drawn = s.drawn := rfl
@[simp] theorem State.setEm_host (m : Memory) : (s.setEm m).host = s.host := rfl
@[simp] theorem State.setEm_handle (m : Memory) (k : HSel) : (s.setEm m).handle k = s.handle k := rfl

/-! ### `State.setHandle` -/

@[simp] theorem State.setHandle_par (h : HSel) (v : Handle) : (s.setHandle h v).par = s.par := rfl
@[simp] theorem State.setHandle_em (h : HSel) (v : Handle) : (s.setHandle h v).em = s.em := rfl
@[simp] theorem State.setHandle_handles (h : HSel) (v : Handle) : (s.setHandle h v).handles = s.handles.set h.toNat v := rfl
@[simp] theorem State.setHandle_carry (h : HSel) (v : Handle) : (s.setHandle h v).carry = s.carry := rfl
@[simp] theorem State.setHandle_rbit (h : HSel) (v : Handle) : (s.setHandle h v).rbit = s.rbit := rfl
@[simp] theorem State.setHandle_rval (h : HSel) (v : Handle) : (s.setHandle h v).rval = s.rval := rfl
@[simp] theorem State.setHandle_pos (h : HSel) (v : Handle) : (s.setHandle h v).pos = s.pos := rfl
@[simp] theorem State.setHandle_len (h : HSel) (v : Handle) : (s.setHandle h v).len = s.len := rfl
@[simp] theorem State.setHandle_base (h : HSel) (v : Handle) : (s.setHandle h v).base = s.base := rfl
@[simp] theorem State.setHandle_status (h : HSel) (v : Handle) : (s.setHandle h v).status = s.status := rfl
@[simp] theorem State.setHandle_drawn (h : HSel) (v : Handle) : (s.setHandle h v).drawn = s.drawn := rfl
@[simp] theorem State.setHandle_host (h : HSel) (v : Handle) : (s.setHandle h v).host = s.host := rfl

/-! ### `State.setCarry` -/

@[simp] theorem State.setCarry_par (b : Bool) : (s.setCarry b).par = s.par := rfl
@[simp] theorem State.setCarry_em (b : Bool) : (s.setCarry b).em = s.em := rfl
@[simp] theorem State.setCarry_handles (b : Bool) : (s.setCarry b).handles = s.handles := rfl
@[simp] theorem State.setCarry_carry (b : Bool) : (s.setCarry b).carry = b := rfl
@[simp] theorem State.setCarry_rbit (b : Bool) : (s.setCarry b).rbit = s.rbit := rfl
@[simp] theorem State.setCarry_rval (b : Bool) : (s.setCarry b).rval = s.rval := rfl
@[simp] theorem State.setCarry_pos (b : Bool) : (s.setCarry b).pos = s.pos := rfl
@[simp] theorem State.setCarry_len (b : Bool) : (s.setCarry b).len = s.len := rfl
@[simp] theorem State.setCarry_base (b : Bool) : (s.setCarry b).base = s.base := rfl
@[simp] theorem State.setCarry_status (b : Bool) : (s.setCarry b).status = s.status := rfl
@[simp] theorem State.setCarry_drawn (b : Bool) : (s.setCarry b).drawn = s.drawn := rfl
@[simp] theorem State.setCarry_host (b : Bool) : (s.setCarry b).host = s.host := rfl
@[simp] theorem State.setCarry_handle (b : Bool) (k : HSel) : (s.setCarry b).handle k = s.handle k := rfl

/-! ### `State.setRbit` -/

@[simp] theorem State.setRbit_par (b : Bool) : (s.setRbit b).par = s.par := rfl
@[simp] theorem State.setRbit_em (b : Bool) : (s.setRbit b).em = s.em := rfl
@[simp] theorem State.setRbit_handles (b : Bool) : (s.setRbit b).handles = s.handles := rfl
@[simp] theorem State.setRbit_carry (b : Bool) : (s.setRbit b).carry = s.carry := rfl
@[simp] theorem State.setRbit_rbit (b : Bool) : (s.setRbit b).rbit = b := rfl
@[simp] theorem State.setRbit_rval (b : Bool) : (s.setRbit b).rval = s.rval := rfl
@[simp] theorem State.setRbit_pos (b : Bool) : (s.setRbit b).pos = s.pos := rfl
@[simp] theorem State.setRbit_len (b : Bool) : (s.setRbit b).len = s.len := rfl
@[simp] theorem State.setRbit_base (b : Bool) : (s.setRbit b).base = s.base := rfl
@[simp] theorem State.setRbit_status (b : Bool) : (s.setRbit b).status = s.status := rfl
@[simp] theorem State.setRbit_drawn (b : Bool) : (s.setRbit b).drawn = s.drawn := rfl
@[simp] theorem State.setRbit_host (b : Bool) : (s.setRbit b).host = s.host := rfl
@[simp] theorem State.setRbit_handle (b : Bool) (k : HSel) : (s.setRbit b).handle k = s.handle k := rfl

/-! ### `State.setRval` -/

@[simp] theorem State.setRval_par (v : Elem) : (s.setRval v).par = s.par := rfl
@[simp] theorem State.setRval_em (v : Elem) : (s.setRval v).em = s.em := rfl
@[simp] theorem State.setRval_handles (v : Elem) : (s.setRval v).handles = s.handles := rfl
@[simp] theorem State.setRval_carry (v : Elem) : (s.setRval v).carry = s.carry := rfl
@[simp] theorem State.setRval_rbit (v : Elem) : (s.setRval v).rbit = s.rbit := rfl
@[simp] theorem State.setRval_rval (v : Elem) : (s.setRval v).rval = v := rfl
@[simp] theorem State.setRval_pos (v : Elem) : (s.setRval v).pos = s.pos := rfl
@[simp] theorem State.setRval_len (v : Elem) : (s.setRval v).len = s.len := rfl
@[simp] theorem State.setRval_base (v : Elem) : (s.setRval v).base = s.base := rfl
@[simp] theorem State.setRval_status (v : Elem) : (s.setRval v).status = s.status := rfl
@[simp] theorem State.setRval_drawn (v : Elem) : (s.setRval v).drawn = s.drawn := rfl
@[simp] theorem State.setRval_host (v : Elem) : (s.setRval v).host = s.host := rfl
@[simp] theorem State.setRval_handle (v : Elem) (k : HSel) : (s.setRval v).handle k = s.handle k := rfl

/-! ### `State.setStatus` -/

@[simp] theorem State.setStatus_par (st : BitVec 8) : (s.setStatus st).par = s.par := rfl
@[simp] theorem State.setStatus_em (st : BitVec 8) : (s.setStatus st).em = s.em := rfl
@[simp] theorem State.setStatus_handles (st : BitVec 8) : (s.setStatus st).handles = s.handles := rfl
@[simp] theorem State.setStatus_carry (st : BitVec 8) : (s.setStatus st).carry = s.carry := rfl
@[simp] theorem State.setStatus_rbit (st : BitVec 8) : (s.setStatus st).rbit = s.rbit := rfl
@[simp] theorem State.setStatus_rval (st : BitVec 8) : (s.setStatus st).rval = s.rval := rfl
@[simp] theorem State.setStatus_pos (st : BitVec 8) : (s.setStatus st).pos = s.pos := rfl
@[simp] theorem State.setStatus_len (st : BitVec 8) : (s.setStatus st).len = s.len := rfl
@[simp] theorem State.setStatus_base (st : BitVec 8) : (s.setStatus st).base = s.base := rfl
@[simp] theorem State.setStatus_status (st : BitVec 8) : (s.setStatus st).status = st := rfl
@[simp] theorem State.setStatus_drawn (st : BitVec 8) : (s.setStatus st).drawn = s.drawn := rfl
@[simp] theorem State.setStatus_host (st : BitVec 8) : (s.setStatus st).host = s.host := rfl
@[simp] theorem State.setStatus_handle (st : BitVec 8) (k : HSel) : (s.setStatus st).handle k = s.handle k := rfl

/-! ### `State.setPos` -/

@[simp] theorem State.setPos_par (v : Nat) : (s.setPos v).par = s.par := rfl
@[simp] theorem State.setPos_em (v : Nat) : (s.setPos v).em = s.em := rfl
@[simp] theorem State.setPos_handles (v : Nat) : (s.setPos v).handles = s.handles := rfl
@[simp] theorem State.setPos_carry (v : Nat) : (s.setPos v).carry = s.carry := rfl
@[simp] theorem State.setPos_rbit (v : Nat) : (s.setPos v).rbit = s.rbit := rfl
@[simp] theorem State.setPos_rval (v : Nat) : (s.setPos v).rval = s.rval := rfl
@[simp] theorem State.setPos_pos (v : Nat) : (s.setPos v).pos = v := rfl
@[simp] theorem State.setPos_len (v : Nat) : (s.setPos v).len = s.len := rfl
@[simp] theorem State.setPos_base (v : Nat) : (s.setPos v).base = s.base := rfl
@[simp] theorem State.setPos_status (v : Nat) : (s.setPos v).status = s.status := rfl
@[simp] theorem State.setPos_drawn (v : Nat) : (s.setPos v).drawn = s.drawn := rfl
@[simp] theorem State.setPos_host (v : Nat) : (s.setPos v).host = s.host := rfl
@[simp] theorem State.setPos_handle (v : Nat) (k : HSel) : (s.setPos v).handle k = s.handle k := rfl

/-! ### `State.setLen` -/

@[simp] theorem State.setLen_par (v : Nat) : (s.setLen v).par = s.par := rfl
@[simp] theorem State.setLen_em (v : Nat) : (s.setLen v).em = s.em := rfl
@[simp] theorem State.setLen_handles (v : Nat) : (s.setLen v).handles = s.handles := rfl
@[simp] theorem State.setLen_carry (v : Nat) : (s.setLen v).carry = s.carry := rfl
@[simp] theorem State.setLen_rbit (v : Nat) : (s.setLen v).rbit = s.rbit := rfl
@[simp] theorem State.setLen_rval (v : Nat) : (s.setLen v).rval = s.rval := rfl
@[simp] theorem State.setLen_pos (v : Nat) : (s.setLen v).pos = s.pos := rfl
@[simp] theorem State.setLen_len (v : Nat) : (s.setLen v).len = v := rfl
@[simp] theorem State.setLen_base (v : Nat) : (s.setLen v).base = s.base := rfl
@[simp] theorem State.setLen_status (v : Nat) : (s.setLen v).status = s.status := rfl
@[simp] theorem State.setLen_drawn (v : Nat) : (s.setLen v).drawn = s.drawn := rfl
@[simp] theorem State.setLen_host (v : Nat) : (s.setLen v).host = s.host := rfl
@[simp] theorem State.setLen_handle (v : Nat) (k : HSel) : (s.setLen v).handle k = s.handle k := rfl

/-! ### `State.setBase` -/

@[simp] theorem State.setBase_par (v : Nat) : (s.setBase v).par = s.par := rfl
@[simp] theorem State.setBase_em (v : Nat) : (s.setBase v).em = s.em := rfl
@[simp] theorem State.setBase_handles (v : Nat) : (s.setBase v).handles = s.handles := rfl
@[simp] theorem State.setBase_carry (v : Nat) : (s.setBase v).carry = s.carry := rfl
@[simp] theorem State.setBase_rbit (v : Nat) : (s.setBase v).rbit = s.rbit := rfl
@[simp] theorem State.setBase_rval (v : Nat) : (s.setBase v).rval = s.rval := rfl
@[simp] theorem State.setBase_pos (v : Nat) : (s.setBase v).pos = s.pos := rfl
@[simp] theorem State.setBase_len (v : Nat) : (s.setBase v).len = s.len := rfl
@[simp] theorem State.setBase_base (v : Nat) : (s.setBase v).base = v := rfl
@[simp] theorem State.setBase_status (v : Nat) : (s.setBase v).status = s.status := rfl
@[simp] theorem State.setBase_drawn (v : Nat) : (s.setBase v).drawn = s.drawn := rfl
@[simp] theorem State.setBase_host (v : Nat) : (s.setBase v).host = s.host := rfl
@[simp] theorem State.setBase_handle (v : Nat) (k : HSel) : (s.setBase v).handle k = s.handle k := rfl

/-! ### `State.addDrawn` -/

@[simp] theorem State.addDrawn_par (n : Nat) : (s.addDrawn n).par = s.par := rfl
@[simp] theorem State.addDrawn_em (n : Nat) : (s.addDrawn n).em = s.em := rfl
@[simp] theorem State.addDrawn_handles (n : Nat) : (s.addDrawn n).handles = s.handles := rfl
@[simp] theorem State.addDrawn_carry (n : Nat) : (s.addDrawn n).carry = s.carry := rfl
@[simp] theorem State.addDrawn_rbit (n : Nat) : (s.addDrawn n).rbit = s.rbit := rfl
@[simp] theorem State.addDrawn_rval (n : Nat) : (s.addDrawn n).rval = s.rval := rfl
@[simp] theorem State.addDrawn_pos (n : Nat) : (s.addDrawn n).pos = s.pos := rfl
@[simp] theorem State.addDrawn_len (n : Nat) : (s.addDrawn n).len = s.len := rfl
@[simp] theorem State.addDrawn_base (n : Nat) : (s.addDrawn n).base = s.base := rfl
@[simp] theorem State.addDrawn_status (n : Nat) : (s.addDrawn n).status = s.status := rfl
@[simp] theorem State.addDrawn_drawn (n : Nat) : (s.addDrawn n).drawn = s.drawn + n := rfl
@[simp] theorem State.addDrawn_host (n : Nat) : (s.addDrawn n).host = s.host := rfl
@[simp] theorem State.addDrawn_handle (n : Nat) (k : HSel) : (s.addDrawn n).handle k = s.handle k := rfl

/-! ### `State.raise` -/

@[simp] theorem State.raise_par (c : Cause) : (s.raise c).par = s.par := rfl
@[simp] theorem State.raise_em (c : Cause) : (s.raise c).em = s.em := rfl
@[simp] theorem State.raise_handles (c : Cause) : (s.raise c).handles = s.handles := rfl
@[simp] theorem State.raise_carry (c : Cause) : (s.raise c).carry = s.carry := rfl
@[simp] theorem State.raise_rbit (c : Cause) : (s.raise c).rbit = s.rbit := rfl
@[simp] theorem State.raise_rval (c : Cause) : (s.raise c).rval = s.rval := rfl
@[simp] theorem State.raise_pos (c : Cause) : (s.raise c).pos = s.pos := rfl
@[simp] theorem State.raise_len (c : Cause) : (s.raise c).len = s.len := rfl
@[simp] theorem State.raise_base (c : Cause) : (s.raise c).base = s.base := rfl
@[simp] theorem State.raise_status (c : Cause) : (s.raise c).status = statusRaised c := rfl
@[simp] theorem State.raise_drawn (c : Cause) : (s.raise c).drawn = s.drawn := rfl
@[simp] theorem State.raise_host (c : Cause) : (s.raise c).host = s.host := rfl
@[simp] theorem State.raise_handle (c : Cause) (k : HSel) : (s.raise c).handle k = s.handle k := rfl

/-! ### `State.complete` -/

@[simp] theorem State.complete_par : (s.complete).par = s.par := rfl
@[simp] theorem State.complete_em : (s.complete).em = s.em := rfl
@[simp] theorem State.complete_handles : (s.complete).handles = s.handles := rfl
@[simp] theorem State.complete_carry : (s.complete).carry = s.carry := rfl
@[simp] theorem State.complete_rbit : (s.complete).rbit = s.rbit := rfl
@[simp] theorem State.complete_rval : (s.complete).rval = s.rval := rfl
@[simp] theorem State.complete_pos : (s.complete).pos = s.pos := rfl
@[simp] theorem State.complete_len : (s.complete).len = s.len := rfl
@[simp] theorem State.complete_base : (s.complete).base = s.base := rfl
@[simp] theorem State.complete_status : (s.complete).status = statusCompleted s.status := rfl
@[simp] theorem State.complete_drawn : (s.complete).drawn = s.drawn := rfl
@[simp] theorem State.complete_host : (s.complete).host = s.host := rfl
@[simp] theorem State.complete_handle (k : HSel) : (s.complete).handle k = s.handle k := rfl

/-! ### The handle register file -/

theorem State.setHandle_handle_same (h : HSel) (v : Handle) (hlt : h.toNat < s.handles.length) :
    (s.setHandle h v).handle h = v := by
  simp [State.handle, List.getD, hlt]

theorem State.setHandle_handle_other (h k : HSel) (v : Handle) (hne : k ≠ h) :
    (s.setHandle h v).handle k = s.handle k := by
  have hn : h.toNat ≠ k.toNat := fun e => hne (BitVec.eq_of_toNat_eq e.symm)
  simp [State.handle, List.getD, hn]

theorem State.handle_mem (h : HSel) (hlt : h.toNat < s.handles.length) : s.handle h ∈ s.handles := by
  simp [State.handle, List.getD, List.getElem?_eq_getElem hlt]

theorem State.handle_unbound_of_le (h : HSel) (hle : s.handles.length ≤ h.toNat) : s.handle h = Handle.unbound := by
  simp [State.handle, List.getD, List.getElem?_eq_none hle]

/-- A bound handle register is one of the file. -/
theorem State.handle_mem_of_bound (h : HSel) (hb : (s.handle h).bound = true) : s.handle h ∈ s.handles := by
  by_cases hlt : h.toNat < s.handles.length
  · exact s.handle_mem h hlt
  · rw [s.handle_unbound_of_le h (by omega)] at hb; exact absurd hb (by decide)

end Sys2Proof.Machine
end

