-- ==== Sys2Proof/Laws/Command.lean ====
section
/-! SUPPORT. The one shape of every command: how `runCommand` ends, what its checks mean, and that a consistent handle
is a bound one whose fields satisfy R24. -/

namespace Sys2Proof.Machine

variable {s t : State} {checks : List (Bool × Cause)} {operands : List HSel} {effect : State → State}

/-- Everything `runCommand` can do when it answers a next state: it raised the first failing check's cause, or every
check held and the effect was applied. -/
theorem runCommand_next (h : runCommand s checks operands effect = .next t) :
    (∃ c, firstCause checks = some c ∧ t = s.raise c) ∨
      (firstCause checks = none ∧ (operands.all fun h => handleConsistent s.par (s.handle h)) = true ∧
        t = (effect s).complete) := by
  unfold runCommand at h
  split at h
  · next c hc => exact .inl ⟨c, hc, (Host.Outcome.next.inj h).symm⟩
  · next hc =>
    split at h
    · next hg => exact .inr ⟨hc, hg, (Host.Outcome.next.inj h).symm⟩
    · exact nomatch h

theorem runCommand_raises {c : Cause} (h : firstCause checks = some c) :
    runCommand s checks operands effect = .next (s.raise c) := by simp [runCommand, h]

theorem runCommand_completes (h : firstCause checks = none)
    (hg : ∀ k ∈ operands, handleConsistent s.par (s.handle k) = true) :
    runCommand s checks operands effect = .next (effect s).complete := by
  have : (operands.all fun k => handleConsistent s.par (s.handle k)) = true := List.all_eq_true.2 hg
  simp only [runCommand, h, this, if_true]

@[simp] theorem firstCause_nil : firstCause [] = none := rfl

theorem firstCause_cons_true {b : Bool} (h : b = true) (c : Cause) (rest : List (Bool × Cause)) :
    firstCause ((b, c) :: rest) = firstCause rest := by simp [firstCause, h]

theorem firstCause_cons_false {b : Bool} (h : b = false) (c : Cause) (rest : List (Bool × Cause)) :
    firstCause ((b, c) :: rest) = some c := by simp [firstCause, h]

/-- All checks hold exactly when no cause is found. -/
theorem firstCause_eq_none : firstCause checks = none ↔ ∀ x ∈ checks, x.1 = true := by
  induction checks with
  | nil => simp
  | cons x rest ih => obtain ⟨b, c⟩ := x; cases b <;> simp [firstCause, ih]

/-! ### The checks in words -/

theorem selectorsLegal_iff (s : State) (hs : List HSel) : (selectorsLegal s hs).1 = true ↔ s.legal hs := by
  simp [selectorsLegal, State.legal]

theorem handlesBound_iff (s : State) (hs : List HSel) : (handlesBound s hs).1 = true ↔ s.allBound hs := by
  simp [handlesBound, State.allBound]

theorem indexInRange_iff (s : State) (h : HSel) :
    (indexInRange s h).1 = true ↔ s.pos < (s.handle h).lengthBits := by simp [indexInRange]

theorem notEmpty_iff (s : State) (h : HSel) : (notEmpty s h).1 = true ↔ 0 < (s.handle h).lengthBits := by
  simp [notEmpty]

theorem sectionInRange_iff (s : State) (length : Nat) (h : HSel) :
    (sectionInRange s length h).1 = true ↔ s.pos + length ≤ (s.handle h).lengthBits := by simp [sectionInRange]

theorem shiftInRange_iff (s : State) (h : HSel) :
    (shiftInRange s h).1 = true ↔ s.pos ≤ (s.handle h).lengthBits := by simp [shiftInRange]

theorem storageFits_iff (s : State) (first : Nat) :
    (storageFits s first).1 = true ↔ first + (s.len + s.par.w - 1) / s.par.w ≤ s.par.m :=
  decide_eq_true_iff

/-! ### Geometry -/

/-- `geom` of an admissible width satisfies R24 where it fits in `EM`. -/
theorem geom_geometryHolds (p : Params) (hw : 1 ≤ p.w) (base bits : Nat)
    (hm : base + elemLength p.w bits ≤ p.m) : GeometryHolds p (geom p.w base bits) where
  lengthElements := rfl
  bme := rfl
  overhangMask := rfl
  limiter := rfl
  last := by
    by_cases hb : bits = 0
    · have : (p.w - 1) / p.w = 0 := Nat.div_eq_of_lt (by omega)
      simp [geom, hb, elemLength, this]
    · have : 1 ≤ (bits + p.w - 1) / p.w := (Nat.one_le_div_iff hw).2 (by omega)
      simp only [geom, hb, elemLength, if_false]
      omega
  inMemory := hm

/-- The test a command makes on its operand handles is R24 for a bound handle. -/
theorem handleConsistent_iff (p : Params) (hw : 1 ≤ p.w) (h : Handle) :
    handleConsistent p h = true ↔ h.bound = true ∧ GeometryHolds p h := by
  constructor
  · intro hc
    simp only [handleConsistent, Bool.and_eq_true, beq_iff_eq, decide_eq_true_eq] at hc
    have hg := geom_geometryHolds p hw h.first h.lengthBits (by rw [hc.1] at hc; exact hc.2)
    rw [← hc.1] at hg
    exact ⟨by rw [hc.1]; rfl, hg⟩
  · rintro ⟨hb, hg⟩
    obtain ⟨b, f, lb, le, bme, om, la, li⟩ := h
    obtain ⟨h1, h2, h3, h4, h5, h6⟩ := hg
    simp only at hb h1 h2 h3 h4 h5 h6
    subst hb h1 h2 h4
    simp only [handleConsistent, geom, elemLength, overhangMaskOf, ones, lowMask, h3, Bool.and_eq_true, beq_iff_eq,
      decide_eq_true_eq, Handle.mk.injEq, true_and, h6, and_true]
    by_cases hl : lb = 0
    · simp [hl] at h5 ⊢; omega
    · simp [hl] at h5 ⊢; omega

/-- In a state that meets the invariant a bound operand handle is consistent. -/
theorem State.Inv.consistent (h : s.Inv) (k : HSel) (hb : (s.handle k).bound = true) :
    handleConsistent s.par (s.handle k) = true :=
  (handleConsistent_iff s.par h.params.1 _).2 ⟨hb, h.geometry _ (s.handle_mem_of_bound k hb) hb⟩

theorem State.Inv.geometryOf (h : s.Inv) (k : HSel) (hb : (s.handle k).bound = true) :
    GeometryHolds s.par (s.handle k) := h.geometry _ (s.handle_mem_of_bound k hb) hb

end Sys2Proof.Machine
end

