-- ==== Sys2Proof/Laws/Memory.lean ====
section
/-! SUPPORT. The element memory: read after write, the canonical form, and that every write keeps it. -/

namespace Sys2Proof.Machine

@[simp] theorem emRead_nil (k : Nat) : emRead [] k = unlistedElem := rfl

theorem emRead_append_of_notMem (a b : Memory) (k : Nat) (h : ∀ c ∈ a, c.1 ≠ k) :
    emRead (a ++ b) k = emRead b k := by
  induction a with
  | nil => rfl
  | cons c a ih =>
    obtain ⟨i, v⟩ := c
    have hi : i ≠ k := h (i, v) (by simp)
    simp only [List.cons_append, emRead, hi, if_false]
    exact ih fun c hc => h c (by simp [hc])

theorem emRead_append_congr (a b b' : Memory) (k : Nat) (h : emRead b k = emRead b' k) :
    emRead (a ++ b) k = emRead (a ++ b') k := by
  induction a with
  | nil => exact h
  | cons c a ih => obtain ⟨i, v⟩ := c; simp only [List.cons_append, emRead, ih]

/-- Leaving out only entries at other indices changes nothing at `k`. -/
theorem emRead_filter (m : Memory) (k : Nat) (p : Nat × Elem → Bool) (h : ∀ v, p (k, v) = true) :
    emRead (m.filter p) k = emRead m k := by
  induction m with
  | nil => rfl
  | cons c m ih =>
    obtain ⟨i, v⟩ := c
    by_cases hi : i = k
    · subst hi; simp [h v, emRead]
    · cases hp : p (i, v) <;> simp [hp, emRead, hi, ih]

theorem emRead_filter_none (m : Memory) (k : Nat) (p : Nat × Elem → Bool) (h : ∀ v, p (k, v) = false) :
    emRead (m.filter p) k = unlistedElem := by
  have := emRead_append_of_notMem (m.filter p) [] k
    (fun c hc e => by have := (List.mem_filter.1 hc).2; rw [← Prod.eta c, e] at this; simp [h] at this)
  simpa using this

theorem emRead_emCell_same (k : Nat) (v : Elem) : emRead (emCell k v) k = v := by
  unfold emCell; split <;> simp_all [emRead]

theorem emRead_emCell_append (k : Nat) (v : Elem) (m : Memory) (j : Nat) (h : j ≠ k) :
    emRead (emCell k v ++ m) j = emRead m j := by
  unfold emCell; split <;> simp [emRead, Ne.symm h]

/-- A write, read back: the element written, in `w` bits; every other element as before (R55). -/
theorem emRead_emWrite (w : Nat) (m : Memory) (k : Nat) (v : Elem) (j : Nat) :
    emRead (emWrite w m k v) j = if j = k then v % 2 ^ w else emRead m j := by
  unfold emWrite
  rcases Nat.lt_trichotomy j k with hlt | heq | hgt
  · rw [if_neg (by omega)]
    have hright : emRead (emCell k (v % 2 ^ w) ++ m.filter (fun c => decide (k < c.1))) j = emRead [] j := by
      rw [emRead_emCell_append _ _ _ _ (by omega)]
      exact emRead_filter_none _ _ _ (by intro v; simp; omega)
    rw [emRead_append_congr _ _ [] _ hright, List.append_nil]
    exact emRead_filter _ _ _ (by intro v; simpa using hlt)
  · subst heq
    rw [if_pos rfl, emRead_append_of_notMem _ _ _ (by intro c hc; have := (List.mem_filter.1 hc).2; simp at this; omega)]
    have hright : emRead (m.filter (fun c => decide (j < c.1))) j = emRead [] j :=
      emRead_filter_none _ _ _ (by intro v; simp)
    rw [emRead_append_congr _ _ [] _ hright, List.append_nil, emRead_emCell_same]
  · rw [if_neg (by omega), emRead_append_of_notMem _ _ _
      (by intro c hc; have := (List.mem_filter.1 hc).2; simp at this; omega),
      emRead_emCell_append _ _ _ _ (by omega)]
    exact emRead_filter _ _ _ (by intro v; simpa using hgt)

theorem emRead_emWrite_same (w : Nat) (m : Memory) (k : Nat) (v : Elem) :
    emRead (emWrite w m k v) k = v % 2 ^ w := by simp [emRead_emWrite]

theorem emRead_emWrite_ne (w : Nat) (m : Memory) (k : Nat) (v : Elem) (j : Nat) (h : j ≠ k) :
    emRead (emWrite w m k v) j = emRead m j := by simp [emRead_emWrite, h]

/-! ### The canonical form -/

theorem Memory.wf_nil (p : Params) : Memory.wf p [] := by simp [Memory.wf]

/-- Every element read from a memory in canonical form is `W` bits wide. -/
theorem Memory.wf.read_lt {p : Params} {m : Memory} (h : Memory.wf p m) (k : Nat) : emRead m k < 2 ^ p.w := by
  have hcells := h.2
  clear h
  induction m with
  | nil => simp [unlistedElem]
  | cons c m ih =>
    obtain ⟨i, v⟩ := c
    by_cases hi : i = k
    · simpa [emRead, hi] using (hcells (i, v) (by simp)).2.1
    · simpa [emRead, hi] using ih fun c hc => hcells c (by simp [hc])

theorem emRead_of_notMem (m : Memory) (k : Nat) (h : ∀ c ∈ m, c.1 ≠ k) : emRead m k = unlistedElem := by
  simpa using emRead_append_of_notMem m [] k h

/-- Nothing is listed outside `EM`. -/
theorem Memory.wf.read_outside {p : Params} {m : Memory} (h : Memory.wf p m) (k : Nat) (hk : p.m ≤ k) :
    emRead m k = unlistedElem :=
  emRead_of_notMem m k fun c hc e => by have := (h.2 c hc).1; omega

/-- Every write inside `EM` keeps the canonical form. -/
theorem Memory.wf.write {p : Params} {m : Memory} (h : Memory.wf p m) (k : Nat) (v : Elem) (hk : k < p.m) :
    Memory.wf p (emWrite p.w m k v) := by
  obtain ⟨hsorted, hcells⟩ := h
  have hcell : ∀ c ∈ emCell k (v % 2 ^ p.w), c = (k, v % 2 ^ p.w) ∧ v % 2 ^ p.w ≠ unlistedElem := by
    intro c hc; unfold emCell at hc; split at hc <;> simp_all
  refine ⟨?_, ?_⟩
  · refine List.pairwise_append.2 ⟨hsorted.filter _, List.pairwise_append.2 ⟨?_, hsorted.filter _, ?_⟩, ?_⟩
    · unfold emCell; split <;> simp
    · intro a ha b hb
      have hb' := (List.mem_filter.1 hb).2
      rw [(hcell a ha).1]; simpa using hb'
    · intro a ha b hb
      have ha' : a.1 < k := by simpa using (List.mem_filter.1 ha).2
      rcases List.mem_append.1 hb with hb | hb
      · rw [(hcell b hb).1]; exact ha'
      · have hb' : k < b.1 := by simpa using (List.mem_filter.1 hb).2
        omega
  · intro c hc
    rcases List.mem_append.1 hc with hc | hc
    · exact hcells c (List.mem_of_mem_filter hc)
    · rcases List.mem_append.1 hc with hc | hc
      · obtain ⟨rfl, hne⟩ := hcell c hc
        exact ⟨hk, Nat.mod_lt _ (Nat.two_pow_pos _), hne⟩
      · exact hcells c (List.mem_of_mem_filter hc)

/-- The canonical form is canonical: memories that read alike at every index are equal data. -/
theorem Memory.wf.ext {p : Params} {m m' : Memory} (h : Memory.wf p m) (h' : Memory.wf p m')
    (hread : ∀ k, emRead m k = emRead m' k) : m = m' := by
  induction m generalizing m' with
  | nil =>
    cases m' with
    | nil => rfl
    | cons c m' =>
      exact absurd (by simpa [emRead] using (hread c.1).symm) (h'.2 c (by simp)).2.2
  | cons c m ih =>
    cases m' with
    | nil => exact absurd (by simpa [emRead] using hread c.1) (h.2 c (by simp)).2.2
    | cons c' m' =>
      obtain ⟨i, v⟩ := c
      obtain ⟨i', v'⟩ := c'
      have hgt : ∀ c ∈ m, i < c.1 := fun c hc => (List.pairwise_cons.1 h.1).1 c hc
      have hgt' : ∀ c ∈ m', i' < c.1 := fun c hc => (List.pairwise_cons.1 h'.1).1 c hc
      have hi : i = i' := by
        rcases Nat.lt_trichotomy i i' with hlt | heq | hlt
        · have := hread i
          rw [emRead_of_notMem ((i', v') :: m') i (by
            intro c hc
            rcases List.mem_cons.1 hc with rfl | hc
            · simp; omega
            · have := hgt' c hc; omega)] at this
          exact absurd (by simpa [emRead] using this) (h.2 (i, v) (by simp)).2.2
        · exact heq
        · have := hread i'
          rw [emRead_of_notMem ((i, v) :: m) i' (by
            intro c hc
            rcases List.mem_cons.1 hc with rfl | hc
            · simp; omega
            · have := hgt c hc; omega)] at this
          exact absurd (by simpa [emRead] using this.symm) (h'.2 (i', v') (by simp)).2.2
      subst hi
      have hv : v = v' := by simpa [emRead] using hread i
      subst hv
      have htail : ∀ k, emRead m k = emRead m' k := by
        intro k
        by_cases hk : i = k
        · subst hk
          rw [emRead_of_notMem m i (fun c hc => by have := hgt c hc; omega),
            emRead_of_notMem m' i (fun c hc => by have := hgt' c hc; omega)]
        · simpa [emRead, hk] using hread k
      rw [ih ⟨(List.pairwise_cons.1 h.1).2, fun c hc => h.2 c (by simp [hc])⟩
        ⟨(List.pairwise_cons.1 h'.1).2, fun c hc => h'.2 c (by simp [hc])⟩ htail]

end Sys2Proof.Machine
end

