-- ==== Sys2Proof/Laws/Loops.lean ====
section
/-! SUPPORT. The loops of the datapaths: what they keep, what they leave alone, what they write. -/

namespace Sys2Proof.Machine

/-- What holds before a loop and is kept by each step holds after it. -/
theorem forUp_induct {α : Type} (P : Nat → α → Prop) (f : Nat → α → α) (a : α) (n : Nat) (h0 : P 0 a)
    (hstep : ∀ k b, k < n → P k b → P (k + 1) (f k b)) : P n (forUp n f a) := by
  induction n with
  | zero => exact h0
  | succ n ih => exact hstep n _ (Nat.lt_succ_self n) (ih fun k b hk => hstep k b (by omega))

theorem forDown_induct {α : Type} (P : α → Prop) (f : Nat → α → α) (n : Nat) (a : α) (h0 : P a)
    (hstep : ∀ k b, k < n → P b → P (f k b)) : P (forDown n f a) := by
  induction n generalizing a with
  | zero => exact h0
  | succ n ih => exact ih (f n a) (hstep n a (Nat.lt_succ_self n) h0) fun k b hk => hstep k b (by omega)

variable {w base n : Nat} {value : Nat → Memory → Elem}

theorem fillUp_succ (m : Memory) :
    fillUp w base (n + 1) value m =
      emWrite w (fillUp w base n value m) (base + n) (value n (fillUp w base n value m)) := rfl

/-- Elements outside `[base, base + n)` are as before. -/
theorem fillUp_read_outside (m : Memory) (j : Nat) (hj : j < base ∨ base + n ≤ j) :
    emRead (fillUp w base n value m) j = emRead m j := by
  induction n with
  | zero => rfl
  | succ n ih => rw [fillUp_succ, emRead_emWrite_ne _ _ _ _ _ (by omega), ih (by omega)]

/-- Element `base + j` holds what step `j` wrote there, computed from the memory that the earlier steps left. -/
theorem fillUp_read_at (m : Memory) (j : Nat) (hj : j < n) :
    emRead (fillUp w base n value m) (base + j) = value j (fillUp w base j value m) % 2 ^ w := by
  induction n with
  | zero => omega
  | succ n ih =>
    rw [fillUp_succ]
    by_cases hjn : j = n
    · subst hjn; rw [emRead_emWrite_same]
    · rw [emRead_emWrite_ne _ _ _ _ _ (by omega), ih (by omega)]

/-- A low-to-high loop whose step `j` never looks at an element an earlier step has written computes every element from
the memory before the loop: why in-place use is safe (R136, R153). -/
theorem fillUp_read_of_lookAhead (m : Memory)
    (hv : ∀ j < n, ∀ m', (∀ k, k < base ∨ base + j ≤ k → emRead m' k = emRead m k) → value j m' = value j m)
    (j : Nat) (hj : j < n) : emRead (fillUp w base n value m) (base + j) = value j m % 2 ^ w := by
  rw [fillUp_read_at m j hj, hv j hj _ fun k hk => fillUp_read_outside m k hk]

theorem fillDown_succ (m : Memory) :
    fillDown w base (n + 1) value m = fillDown w base n value (emWrite w m (base + n) (value n m)) := rfl

theorem fillDown_read_outside (m : Memory) (j : Nat) (hj : j < base ∨ base + n ≤ j) :
    emRead (fillDown w base n value m) j = emRead m j := by
  induction n generalizing m with
  | zero => rfl
  | succ n ih => rw [fillDown_succ, ih _ (by omega), emRead_emWrite_ne _ _ _ _ _ (by omega)]

/-- The induction behind `fillDown_read_of_lookBehind`: `m0` is the memory before the loop, `m` the memory when the
steps `n` and above are done. -/
theorem fillDown_read_general (m m0 : Memory) (hm : ∀ k, k < base + n → emRead m k = emRead m0 k)
    (top : Nat) (htop : n ≤ top) (hout : ∀ k, base + top ≤ k → emRead m k = emRead m0 k)
    (hv : ∀ j < n, ∀ m', (∀ k, k ≤ base + j ∨ base + top ≤ k → emRead m' k = emRead m0 k) → value j m' = value j m0)
    (j : Nat) (hj : j < n) : emRead (fillDown w base n value m) (base + j) = value j m0 % 2 ^ w := by
  induction n generalizing m with
  | zero => omega
  | succ n ih =>
    rw [fillDown_succ]
    by_cases hjn : j = n
    · subst hjn
      rw [fillDown_read_outside _ _ (by omega), emRead_emWrite_same,
        hv j hj m fun k hk => hk.elim (fun h => hm k (by omega)) (hout k)]
    · refine ih _ (fun k hk => ?_) (by omega) (fun k hk => ?_) (fun j hj => hv j (by omega)) (by omega)
      · rw [emRead_emWrite_ne _ _ _ _ _ (by omega), hm k (by omega)]
      · rw [emRead_emWrite_ne _ _ _ _ _ (by omega), hout k hk]

/-- A high-to-low loop whose step `j` never looks above element `base + j` of what it writes computes every element
from the memory before the loop (R153). -/
theorem fillDown_read_of_lookBehind (m : Memory)
    (hv : ∀ j < n, ∀ m', (∀ k, k ≤ base + j ∨ base + n ≤ k → emRead m' k = emRead m k) → value j m' = value j m)
    (j : Nat) (hj : j < n) : emRead (fillDown w base n value m) (base + j) = value j m % 2 ^ w :=
  fillDown_read_general m m (fun _ _ => rfl) n (Nat.le_refl n) (fun _ _ => rfl) hv j hj

theorem fillUp_wf {p : Params} {m : Memory} (h : Memory.wf p m) (hn : base + n ≤ p.m) :
    Memory.wf p (fillUp p.w base n value m) := by
  induction n with
  | zero => exact h
  | succ n ih => exact (ih (by omega)).write _ _ (by omega)

theorem fillDown_wf {p : Params} {m : Memory} (h : Memory.wf p m) (hn : base + n ≤ p.m) :
    Memory.wf p (fillDown p.w base n value m) := by
  induction n generalizing m with
  | zero => exact h
  | succ n ih => exact ih (h.write _ _ (by omega)) (by omega)

end Sys2Proof.Machine
end

