-- ==== Sys2Proof/Laws/PerInstr.lean ====
section
/-! SUPPORT. The per-instruction family `FormatWord`: the word the encoder gives a command lies in its row of
spec/opcode_table.json, "`cw & mask = match`" (30 R72), one lemma per constructor of `Instr`. Before it, the fields of
a word that was laid out (30 R71). -/

namespace Sys2Proof.Laws

variable (op : BitVec 8) (hd hs1 hs2 : HSel) (cin : Bool)

/-! ### The fields of a word that was laid out -/

theorem opField_layOut : opField (layOut op hd hs1 hs2 cin) = op := by
  apply BitVec.eq_of_getLsbD_eq
  intro i hi
  simp only [opField, layOut, BitVec.getLsbD_extractLsb', BitVec.getLsbD_append]
  interval_cases i <;> simp

theorem hdField_layOut : hdField (layOut op hd hs1 hs2 cin) = hd := by
  apply BitVec.eq_of_getLsbD_eq
  intro i hi
  simp only [hdField, layOut, BitVec.getLsbD_extractLsb', BitVec.getLsbD_append]
  interval_cases i <;> simp

theorem hs1Field_layOut : hs1Field (layOut op hd hs1 hs2 cin) = hs1 := by
  apply BitVec.eq_of_getLsbD_eq
  intro i hi
  simp only [hs1Field, layOut, BitVec.getLsbD_extractLsb', BitVec.getLsbD_append]
  interval_cases i <;> simp

theorem hs2Field_layOut : hs2Field (layOut op hd hs1 hs2 cin) = hs2 := by
  apply BitVec.eq_of_getLsbD_eq
  intro i hi
  simp only [hs2Field, layOut, BitVec.getLsbD_extractLsb', BitVec.getLsbD_append]
  interval_cases i <;> simp

theorem cinField_layOut : cinField (layOut op hd hs1 hs2 cin) = BitVec.ofBool cin := by
  apply BitVec.eq_of_getLsbD_eq
  intro i hi
  simp only [cinField, layOut, BitVec.getLsbD_extractLsb', BitVec.getLsbD_append]
  interval_cases i; simp

theorem rsvField_layOut : rsvField (layOut op hd hs1 hs2 cin) = 0 := by
  apply BitVec.eq_of_getLsbD_eq
  intro i hi
  simp only [rsvField, layOut, BitVec.getLsbD_extractLsb', BitVec.getLsbD_append]
  interval_cases i <;> simp

/-! ### The masks of the four formats (R72) -/

theorem layOut_mask_f1 : layOut op hd 0 0 false &&& 0xFFFFF0FF = op.setWidth 32 := by
  apply BitVec.eq_of_getLsbD_eq
  intro i hi
  simp only [layOut, BitVec.getLsbD_and, BitVec.getLsbD_append, BitVec.getLsbD_setWidth]
  interval_cases i <;> simp

theorem layOut_mask_f2 : layOut op hd hs1 0 false &&& 0xFFFF00FF = op.setWidth 32 := by
  apply BitVec.eq_of_getLsbD_eq
  intro i hi
  simp only [layOut, BitVec.getLsbD_and, BitVec.getLsbD_append, BitVec.getLsbD_setWidth]
  interval_cases i <;> simp

theorem layOut_mask_f3 : layOut op hd hs1 hs2 false &&& 0xFFF000FF = op.setWidth 32 := by
  apply BitVec.eq_of_getLsbD_eq
  intro i hi
  simp only [layOut, BitVec.getLsbD_and, BitVec.getLsbD_append, BitVec.getLsbD_setWidth]
  interval_cases i <;> simp

theorem layOut_mask_f3C : layOut op hd hs1 hs2 cin &&& 0xFFE000FF = op.setWidth 32 := by
  apply BitVec.eq_of_getLsbD_eq
  intro i hi
  simp only [layOut, BitVec.getLsbD_and, BitVec.getLsbD_append, BitVec.getLsbD_setWidth]
  interval_cases i <;> simp

/-! ### The family -/

/-- The encoded word matches the row's mask and match, and its `op` byte is the row's. -/
def FormatWord.Statement (i : Instr) : Prop :=
  encode i &&& i.formatMask = i.formatMatch ∧ opField (encode i) = i.op

theorem FormatWord.init (hd : HSel) : FormatWord.Statement (.init hd) :=
  ⟨layOut_mask_f1 _ hd, opField_layOut _ _ _ _ _⟩

theorem FormatWord.setlen (hd : HSel) : FormatWord.Statement (.setlen hd) :=
  ⟨layOut_mask_f1 _ hd, opField_layOut _ _ _ _ _⟩

theorem FormatWord.setbit (hd : HSel) : FormatWord.Statement (.setbit hd) :=
  ⟨layOut_mask_f1 _ hd, opField_layOut _ _ _ _ _⟩

theorem FormatWord.clrbit (hd : HSel) : FormatWord.Statement (.clrbit hd) :=
  ⟨layOut_mask_f1 _ hd, opField_layOut _ _ _ _ _⟩

theorem FormatWord.tglbit (hd : HSel) : FormatWord.Statement (.tglbit hd) :=
  ⟨layOut_mask_f1 _ hd, opField_layOut _ _ _ _ _⟩

theorem FormatWord.rdbit (hd : HSel) : FormatWord.Statement (.rdbit hd) :=
  ⟨layOut_mask_f1 _ hd, opField_layOut _ _ _ _ _⟩

theorem FormatWord.clrall (hd : HSel) : FormatWord.Statement (.clrall hd) :=
  ⟨layOut_mask_f1 _ hd, opField_layOut _ _ _ _ _⟩

theorem FormatWord.setall (hd : HSel) : FormatWord.Statement (.setall hd) :=
  ⟨layOut_mask_f1 _ hd, opField_layOut _ _ _ _ _⟩

theorem FormatWord.setsec (hd : HSel) : FormatWord.Statement (.setsec hd) :=
  ⟨layOut_mask_f1 _ hd, opField_layOut _ _ _ _ _⟩

theorem FormatWord.clrsec (hd : HSel) : FormatWord.Statement (.clrsec hd) :=
  ⟨layOut_mask_f1 _ hd, opField_layOut _ _ _ _ _⟩

theorem FormatWord.lastval (hd : HSel) : FormatWord.Statement (.lastval hd) :=
  ⟨layOut_mask_f1 _ hd, opField_layOut _ _ _ _ _⟩

theorem FormatWord.rdsec (hd hs1 : HSel) : FormatWord.Statement (.rdsec hd hs1) :=
  ⟨layOut_mask_f2 _ hd hs1, opField_layOut _ _ _ _ _⟩

theorem FormatWord.wrsec (hd hs1 : HSel) : FormatWord.Statement (.wrsec hd hs1) :=
  ⟨layOut_mask_f2 _ hd hs1, opField_layOut _ _ _ _ _⟩

theorem FormatWord.and (hd hs1 hs2 : HSel) : FormatWord.Statement (.and hd hs1 hs2) :=
  ⟨layOut_mask_f3 _ hd hs1 hs2, opField_layOut _ _ _ _ _⟩

theorem FormatWord.or (hd hs1 hs2 : HSel) : FormatWord.Statement (.or hd hs1 hs2) :=
  ⟨layOut_mask_f3 _ hd hs1 hs2, opField_layOut _ _ _ _ _⟩

theorem FormatWord.xor (hd hs1 hs2 : HSel) : FormatWord.Statement (.xor hd hs1 hs2) :=
  ⟨layOut_mask_f3 _ hd hs1 hs2, opField_layOut _ _ _ _ _⟩

theorem FormatWord.not (hd hs1 : HSel) : FormatWord.Statement (.not hd hs1) :=
  ⟨layOut_mask_f2 _ hd hs1, opField_layOut _ _ _ _ _⟩

theorem FormatWord.add (hd hs1 hs2 : HSel) (cin : Bool) : FormatWord.Statement (.add hd hs1 hs2 cin) :=
  ⟨layOut_mask_f3C _ hd hs1 hs2 cin, opField_layOut _ _ _ _ _⟩

theorem FormatWord.lsh (hd hs1 : HSel) : FormatWord.Statement (.lsh hd hs1) :=
  ⟨layOut_mask_f2 _ hd hs1, opField_layOut _ _ _ _ _⟩

theorem FormatWord.rsh (hd hs1 : HSel) : FormatWord.Statement (.rsh hd hs1) :=
  ⟨layOut_mask_f2 _ hd hs1, opField_layOut _ _ _ _ _⟩

end Sys2Proof.Laws
end

