-- ==== Sys2Proof/Laws/Status.lean ====
section
/-! SUPPORT. The fields of `STATUS` after a completing and after a raising command (10 R31, 60 R165). -/

namespace Sys2Proof.Machine

@[simp] theorem statusErr_completed (st : BitVec 8) : statusErr (statusCompleted st) = false := by
  unfold statusCompleted; cases statusErrs st <;> decide

@[simp] theorem statusErrs_completed (st : BitVec 8) : statusErrs (statusCompleted st) = statusErrs st := by
  unfold statusCompleted; cases statusErrs st <;> decide

@[simp] theorem statusCause_completed (st : BitVec 8) : statusCause (statusCompleted st) = 0 := by
  unfold statusCompleted; cases statusErrs st <;> decide

@[simp] theorem statusErr_raised (c : Cause) : statusErr (statusRaised c) = true := by cases c <;> decide

@[simp] theorem statusErrs_raised (c : Cause) : statusErrs (statusRaised c) = true := by cases c <;> decide

@[simp] theorem statusCause_raised (c : Cause) : statusCause (statusRaised c) = causeCode c := by cases c <;> decide

/-- Different causes have different codes. -/
theorem causeCode_injective (a b : Cause) (h : causeCode a = causeCode b) : a = b := by
  cases a <;> cases b <;> first | rfl | exact absurd h (by decide)

/-- `STATUS` after reset (R35). -/
theorem statusLegal_zero : StatusLegal 0 where
  zeros := by decide
  completed := fun _ => by decide
  raised := fun h => absurd h (by decide)

theorem statusLegal_completed (st : BitVec 8) : StatusLegal (statusCompleted st) where
  zeros := by unfold statusCompleted; cases statusErrs st <;> decide
  completed := by simp
  raised := by simp

theorem statusLegal_raised (c : Cause) : StatusLegal (statusRaised c) where
  zeros := by cases c <;> decide
  completed := by simp
  raised := by cases c <;> decide

end Sys2Proof.Machine
end

