-- ==== Sys2Proof/Laws/Words.lean ====
section
/-! SUPPORT. The encoder's word is the sum of its fields at their places (30 R71). -/

namespace Sys2Proof.Machine

/-- The number of two words laid side by side. -/
theorem toNat_append_eq_add {m n : Nat} (x : BitVec m) (y : BitVec n) :
    (x ++ y).toNat = x.toNat * 2 ^ n + y.toNat := by
  rw [BitVec.toNat_append, ← Nat.shiftLeft_add_eq_or_of_lt y.isLt, Nat.shiftLeft_eq]

theorem layOut_eq_fieldsWord (op : BitVec 8) (hd hs1 hs2 : HSel) (cin : Bool) :
    layOut op hd hs1 hs2 cin = fieldsWord op.toNat hd hs1 hs2 cin := by
  apply BitVec.eq_of_toNat_eq
  have ho := op.isLt
  have h0 := hd.isLt
  have h1 := hs1.isLt
  have h2 := hs2.isLt
  have hc : cin.toNat < 2 := Bool.toNat_lt cin
  simp only [layOut, fieldsWord, toNat_append_eq_add, BitVec.toNat_ofNat, BitVec.toNat_ofBool]
  rw [show BitVec.toNat (0 : BitVec 11) = 0 from rfl]
  omega

end Sys2Proof.Machine
end

