-- ==== Sys2Proof/Tests/Slice0.lean ====
section
/-! SUPPORT. Tests of one step each, with expected results from the spec (95_test_vectors.md, or the spec's encoding of a
word), a smoke test of `WellFormed`, and for every statement with hypotheses a witness that meets them. -/

namespace Sys2Proof.Tests

open Sys2Proof.Machine

/-! ### Small states -/

/-- A handle register: unbound, or bound to a base and a length with `W = 8`. -/
def handleOf : Option (Nat × Nat) → Handle
  | none => Handle.unbound
  | some (base, bits) => geom 8 base bits

/-- A state with the test vectors' parameters, the given handles, elements and operand registers. -/
def demo (hs : List (Option (Nat × Nat))) (em : Memory) (pos len base : Nat) : State :=
  { State.resetWith Params.vectors em with handles := hs.map handleOf, pos := pos, len := len, base := base }

theorem demo_inv (hs : List (Option (Nat × Nat))) (em : Memory) (pos len base : Nat) (hn : hs.length = 4)
    (hfit : ∀ x ∈ hs, (handleOf x).limiter ≤ 256) (hem : Memory.wf Params.vectors em)
    (hpos : pos < 2 ^ 32) (hlen : len < 2 ^ 32) (hbase : base < 2 ^ 32) : (demo hs em pos len base).Inv where
  params := (by decide : Params.vectors.wf)
  memory := hem
  fileSize := by show (hs.map handleOf).length = 4; simpa using hn
  geometry := by
    intro h hm hb
    obtain ⟨x, hx, rfl⟩ := List.mem_map.1 hm
    cases x with
    | none => exact absurd hb (by decide)
    | some bl => exact geom_geometryHolds Params.vectors (by decide) bl.1 bl.2 (hfit _ hx)
  unbound := by
    intro h hm hb
    obtain ⟨x, hx, rfl⟩ := List.mem_map.1 hm
    cases x with
    | none => rfl
    | some bl => exact absurd hb (by simp [handleOf, geom])
  rval := Nat.two_pow_pos 8
  pos := hpos
  len := hlen
  base := hbase
  status := statusLegal_zero

/-- The state of 95_test_vectors.md V9, with the operand registers as given. -/
def v9 (pos len base : Nat) : State :=
  demo [some (0, 20), some (8, 20), some (16, 12), none]
    [(0, 0xB7), (1, 0x4E), (2, 0xFA), (8, 1), (9, 2), (10, 3), (16, 4), (17, 5)] pos len base

theorem v9_inv (pos len base : Nat) (hpos : pos < 2 ^ 32) (hlen : len < 2 ^ 32) (hbase : base < 2 ^ 32) :
    (v9 pos len base).Inv := demo_inv _ _ _ _ _ rfl (by decide) (by decide) hpos hlen hbase

/-- V9 with `H[3]` bound to `base`, `bits`. -/
def v9with (b3 l3 pos len : Nat) : State :=
  demo [some (0, 20), some (8, 20), some (16, 12), some (b3, l3)]
    [(0, 0xB7), (1, 0x4E), (2, 0xFA), (8, 1), (9, 2), (10, 3), (16, 4), (17, 5)] pos len 0

/-- The state of V8: three arrays of 12 bits. -/
def v8 : State :=
  demo [some (0, 12), some (8, 12), some (16, 12), none]
    [(0, 0xCC), (1, 0xFA), (2, 0x77), (8, 0xAA), (9, 0x5C), (10, 0x77), (16, 0x99), (17, 0x99), (18, 0x99)] 0 0 0

theorem v8_inv : v8.Inv := demo_inv _ _ _ _ _ rfl (by decide) (by decide) (by decide) (by decide) (by decide)

/-- The next state's element `k`. -/
def emAfter (o : Host.Outcome State Fault Refusal) (k : Nat) : Option Elem :=
  match o with
  | .next t => some (emRead t.em k)
  | _ => none

/-- The next state's `STATUS`. -/
def statusAfter (o : Host.Outcome State Fault Refusal) : Option (BitVec 8) :=
  match o with
  | .next t => some t.status
  | _ => none

/-- The next state's handle `h`. -/
def handleAfter (o : Host.Outcome State Fault Refusal) (h : HSel) : Option Handle :=
  match o with
  | .next t => some (t.handle h)
  | _ => none

/-- The next state's `RBIT`, `CARRY`, `RVAL`. -/
def resultsAfter (o : Host.Outcome State Fault Refusal) : Option (Bool × Bool × Elem) :=
  match o with
  | .next t => some (t.rbit, t.carry, t.rval)
  | _ => none

/-! ### Decoding: one word per row, written out from 30_encoding.md R71 and R74 -/

theorem test_decode_init : decode 0b00000000000000000000001000010000 = .ok (.init 2) := by decide
theorem test_decode_setlen : decode 0b00000000000000000000001100010001 = .ok (.setlen 3) := by decide
theorem test_decode_setbit : decode 0b00000000000000000000000000100000 = .ok (.setbit 0) := by decide
theorem test_decode_clrbit : decode 0b00000000000000000000000100100001 = .ok (.clrbit 1) := by decide
theorem test_decode_tglbit : decode 0b00000000000000000000111100100010 = .ok (.tglbit 15) := by decide
theorem test_decode_rdbit : decode 0b00000000000000000000001000100011 = .ok (.rdbit 2) := by decide
theorem test_decode_clrall : decode 0b00000000000000000000001100100100 = .ok (.clrall 3) := by decide
theorem test_decode_setall : decode 0b00000000000000000000111100100101 = .ok (.setall 15) := by decide
theorem test_decode_setsec : decode 0b00000000000000000000000100100110 = .ok (.setsec 1) := by decide
theorem test_decode_clrsec : decode 0b00000000000000000000000000100111 = .ok (.clrsec 0) := by decide
theorem test_decode_lastval : decode 0b00000000000000000000001000101000 = .ok (.lastval 2) := by decide
theorem test_decode_rdsec : decode 0b00000000000000000010000100110000 = .ok (.rdsec 1 2) := by decide
theorem test_decode_wrsec : decode 0b00000000000000000001001000110001 = .ok (.wrsec 2 1) := by decide
theorem test_decode_and : decode 0b00000000000000010000001001000000 = .ok (.and 2 0 1) := by decide
theorem test_decode_or : decode 0b00000000000000100001000001000001 = .ok (.or 0 1 2) := by decide
theorem test_decode_xor : decode 0b00000000000000110010000101000010 = .ok (.xor 1 2 3) := by decide
theorem test_decode_not : decode 0b00000000000000000001001001000011 = .ok (.not 2 1) := by decide
theorem test_decode_add : decode 0b00000000000100100001001101010000 = .ok (.add 3 1 2 true) := by decide
theorem test_decode_lsh : decode 0b00000000000000000001000101100000 = .ok (.lsh 1 1) := by decide
theorem test_decode_rsh : decode 0b00000000000000000010001101100001 = .ok (.rsh 3 2) := by decide

theorem test_decode_illegal :
    decode 0x00000000 = .error .unknownOp ∧ decode 0x00000062 = .error .unknownOp ∧
      decode 0x00001020 = .error .unusedFieldSet ∧ decode 0x00010043 = .error .unusedFieldSet ∧
      decode 0x00100040 = .error .unusedFieldSet ∧ decode 0x00200050 = .error .reservedBitSet := by decide

theorem test_table_word : decodeTableWord 32 0x00110350 = some (.add 3 0 1 true) ∧ decodeTableWord 32 0x62 = none := by
  decide

/-! ### Well-formedness: an ill-formed term for each check -/

theorem test_wf_selectors :
    (Instr.add 3 2 1 true).wf 4 ∧ ¬ (Instr.setbit 4).wf 4 ∧ ¬ (Instr.rdsec 0 4).wf 4 ∧ ¬ (Instr.and 0 0 4).wf 4 := by
  decide

theorem test_wf_params :
    Params.vectors.wf ∧ ¬ Params.wf ⟨0, 256, 4, 32⟩ ∧ ¬ Params.wf ⟨8, 0, 4, 32⟩ ∧ ¬ Params.wf ⟨8, 256, 2, 32⟩ ∧
      ¬ Params.wf ⟨8, 256, 17, 32⟩ ∧ ¬ Params.wf ⟨8, 256, 4, 11⟩ := by decide

/-! ### One step per command: the accepted form, then the refusals at their boundaries (V1 to V9) -/

/-- V9 row `init h3, 254, 16`, the fields by R90. -/
theorem test_init_binds :
    handleAfter (exec (.init 3) (v9 0 16 254)) 3 = some ⟨true, 254, 16, 2, 0, 0xFF, 255, 256⟩ := by decide

/-- V9: STORAGE_RANGE at 254 + 3 > 256; R75. -/
theorem test_init_raises :
    statusAfter (exec (.init 3) (v9 0 17 254)) = some 0x73 ∧
      statusAfter (exec (.init 4) (v9 0 0 0)) = some 0x93 := by decide

/-- V1, SETLEN row 17. -/
theorem test_setlen_resizes :
    handleAfter (exec (.setlen 0) (demo [some (4, 20), none, none, none] [] 0 17 0)) 0 =
      some ⟨true, 4, 17, 3, 1, 0x01, 6, 7⟩ := by decide

/-- V9. -/
theorem test_setlen_raises :
    statusAfter (exec (.setlen 2) (v9 0 1920 0)) = some 0 ∧
      statusAfter (exec (.setlen 2) (v9 0 1921 0)) = some 0x73 ∧
      statusAfter (exec (.setlen 3) (v9 0 8 0)) = some 0x13 ∧
      statusAfter (exec (.setlen 4) (v9 0 8 0)) = some 0x93 := by decide

/-- V2, `setbit h0, 19`: the overhang nibble stays. -/
theorem test_setbit_sets :
    emAfter (exec (.setbit 0) (demo [some (0, 20), none, none, none] [(2, 0xA0)] 19 0 0)) 2 = some 0xA8 := by decide

/-- V9. -/
theorem test_setbit_raises :
    statusAfter (exec (.setbit 0) (v9 19 0 0)) = some 0 ∧
      statusAfter (exec (.setbit 0) (v9 20 0 0)) = some 0x23 ∧
      statusAfter (exec (.setbit 3) (v9 0 0 0)) = some 0x13 ∧
      statusAfter (exec (.setbit 4) (v9 0 0 0)) = some 0x93 := by decide

/-- V2, `clrbit h0, 7`. -/
theorem test_clrbit_clears :
    emAfter (exec (.clrbit 0) (demo [some (0, 20), none, none, none] [(0, 0x81), (1, 0x02), (2, 0xA8)] 7 0 0)) 0 = some 0x01 := by decide

/-- R100, R102. -/
theorem test_clrbit_raises :
    statusAfter (exec (.clrbit 0) (v9 20 0 0)) = some 0x23 ∧
      statusAfter (exec (.clrbit 3) (v9 0 0 0)) = some 0x13 ∧
      statusAfter (exec (.clrbit 4) (v9 0 0 0)) = some 0x93 := by decide

/-- V2, `tglbit h0, 8`. -/
theorem test_tglbit_inverts :
    emAfter (exec (.tglbit 0) (demo [some (0, 20), none, none, none] [(0, 0x81), (1, 0x01), (2, 0xA8)] 8 0 0)) 1 = some 0x00 := by decide

/-- V2, last row. -/
theorem test_tglbit_raises :
    statusAfter (exec (.tglbit 0) (v9 4294967295 0 0)) = some 0x23 ∧
      statusAfter (exec (.tglbit 3) (v9 0 0 0)) = some 0x13 ∧
      statusAfter (exec (.tglbit 4) (v9 0 0 0)) = some 0x93 := by decide

/-- V2, `rdbit h0, 19` and `rdbit h0, 18`. -/
theorem test_rdbit_reads :
    resultsAfter (exec (.rdbit 0) (demo [some (0, 20), none, none, none] [(0, 0x81), (2, 0xA8)] 19 0 0)) = some (true, false, 0) ∧
      resultsAfter (exec (.rdbit 0) (demo [some (0, 20), none, none, none] [(0, 0x81), (2, 0xA8)] 18 0 0)) = some (false, false, 0) := by decide

/-- V2, `rdbit h0, 23`: an overhang position. -/
theorem test_rdbit_raises :
    statusAfter (exec (.rdbit 0) (v9 23 0 0)) = some 0x23 ∧
      statusAfter (exec (.rdbit 3) (v9 0 0 0)) = some 0x13 ∧
      statusAfter (exec (.rdbit 4) (v9 0 0 0)) = some 0x93 := by decide

/-- V2, `clrall h0`: overhang bits too, nothing after the array. -/
theorem test_clrall_clears :
    emAfter (exec (.clrall 0) (demo [some (0, 12), none, none, none] [(0, 0xAB), (1, 0xCD), (2, 0xEF)] 0 0 0)) 1 = some 0 ∧
      emAfter (exec (.clrall 0) (demo [some (0, 12), none, none, none] [(0, 0xAB), (1, 0xCD), (2, 0xEF)] 0 0 0)) 2 = some 0xEF := by decide

/-- V9. -/
theorem test_clrall_raises :
    statusAfter (exec (.clrall 3) (v9 0 0 0)) = some 0x13 ∧
      statusAfter (exec (.clrall 4) (v9 0 0 0)) = some 0x93 := by decide

/-- V2, `setall h0`. -/
theorem test_setall_sets :
    emAfter (exec (.setall 0) (demo [some (0, 12), none, none, none] [(0, 0xAB), (1, 0xCD), (2, 0xEF)] 0 0 0)) 1 = some 0xFF ∧
      emAfter (exec (.setall 0) (demo [some (0, 12), none, none, none] [(0, 0xAB), (1, 0xCD), (2, 0xEF)] 0 0 0)) 2 = some 0xEF := by decide

/-- R106, R75. -/
theorem test_setall_raises :
    statusAfter (exec (.setall 3) (v9 0 0 0)) = some 0x13 ∧
      statusAfter (exec (.setall 15) (v9 0 0 0)) = some 0x93 := by decide

/-- V3, `setsec h0, 20, 10` over zeros. -/
theorem test_setsec_sets :
    emAfter (exec (.setsec 0) (demo [some (0, 64), none, none, none] [] 10 20 0)) 0 = some 0 ∧
      emAfter (exec (.setsec 0) (demo [some (0, 64), none, none, none] [] 10 20 0)) 1 = some 0xFC ∧
      emAfter (exec (.setsec 0) (demo [some (0, 64), none, none, none] [] 10 20 0)) 2 = some 0xFF ∧
      emAfter (exec (.setsec 0) (demo [some (0, 64), none, none, none] [] 10 20 0)) 3 = some 0x3F ∧
      emAfter (exec (.setsec 0) (demo [some (0, 64), none, none, none] [] 10 20 0)) 4 = some 0 := by decide

/-- V9, V3: out of range even with `LEN = 0`. -/
theorem test_setsec_raises :
    statusAfter (exec (.setsec 0) (v9 10 10 0)) = some 0 ∧
      statusAfter (exec (.setsec 0) (v9 10 11 0)) = some 0x33 ∧
      statusAfter (exec (.setsec 0) (v9 21 0 0)) = some 0x33 ∧
      statusAfter (exec (.setsec 3) (v9 0 0 0)) = some 0x13 ∧
      statusAfter (exec (.setsec 4) (v9 0 0 0)) = some 0x93 := by decide

/-- V3: the run ends at the limiter, whose element is not touched (90 C8). -/
theorem test_clrsec_clears :
    emAfter (exec (.clrsec 0) (demo [some (0, 16), none, none, none] [(0, 0xFF), (1, 0xFF), (2, 0xFF)] 0 16 0)) 0 = some 0 ∧
      emAfter (exec (.clrsec 0) (demo [some (0, 16), none, none, none] [(0, 0xFF), (1, 0xFF), (2, 0xFF)] 0 16 0)) 1 = some 0 ∧
      emAfter (exec (.clrsec 0) (demo [some (0, 16), none, none, none] [(0, 0xFF), (1, 0xFF), (2, 0xFF)] 0 16 0)) 2 = some 0xFF := by decide

/-- V3: the sum does not wrap (R9). -/
theorem test_clrsec_raises :
    statusAfter (exec (.clrsec 0) (v9 4294967295 2 0)) = some 0x33 ∧
      statusAfter (exec (.clrsec 3) (v9 0 0 0)) = some 0x13 ∧
      statusAfter (exec (.clrsec 4) (v9 0 0 0)) = some 0x93 := by decide

/-- R112 on V8: `0xFA` with `bme = 4`. -/
theorem test_lastval_masks :
    resultsAfter (exec (.lastval 0) v8) = some (false, false, 0x0A) := by decide

/-- V9. -/
theorem test_lastval_raises :
    statusAfter (exec (.lastval 3) (v9with 0 0 0 0)) = some 0x83 ∧
      statusAfter (exec (.lastval 3) (v9 0 0 0)) = some 0x13 ∧
      statusAfter (exec (.lastval 4) (v9 0 0 0)) = some 0x93 := by decide

/-- V4 row 1, for every draw of the four overhang bits. -/
theorem test_rdsec_copies :
    emAfter (exec (.rdsec 1 0) (demo [some (0, 24), some (8, 12), none, none] [(0, 0xA5), (1, 0x3C), (2, 0xF0), (8, 0x11), (9, 0x22), (10, 0x33)] 6 0 0)) 8 = some 0xF2 ∧
      ∀ d < 16, emRead (rdsecEffect 0 d 1 0 (demo [some (0, 24), some (8, 12), none, none] [(0, 0xA5), (1, 0x3C), (2, 0xF0), (8, 0x11), (9, 0x22), (10, 0x33)] 6 0 0)).em 9 = d * 16 ∧
        emRead (rdsecEffect 0 d 1 0 (demo [some (0, 24), some (8, 12), none, none] [(0, 0xA5), (1, 0x3C), (2, 0xF0), (8, 0x11), (9, 0x22), (10, 0x33)] 6 0 0)).em 10 = 0x33 := by decide

/-- V9: ALIAS inside the range, accepted just past it. -/
theorem test_rdsec_raises :
    statusAfter (exec (.rdsec 2 0) (v9 9 0 0)) = some 0x33 ∧
      statusAfter (exec (.rdsec 3 0) (v9 0 0 0)) = some 0x13 ∧
      statusAfter (exec (.rdsec 3 0) (v9with 2 8 4 0)) = some 0x53 ∧
      statusAfter (exec (.rdsec 3 0) (v9with 3 8 4 0)) = some 0 ∧
      statusAfter (exec (.rdsec 0 4) (v9 0 0 0)) = some 0x93 := by decide

/-- V5, `ls = 3`, `bme = 7 > rs = 5`. -/
theorem test_wrsec_writes :
    emAfter (exec (.wrsec 0 1) (demo [some (0, 32), some (8, 15), none, none] [(0, 0xFF), (1, 0xFF), (2, 0xFF), (3, 0xFF), (8, 0x55), (9, 0xAA)] 3 0 0)) 0 = some 0xAF ∧
      emAfter (exec (.wrsec 0 1) (demo [some (0, 32), some (8, 15), none, none] [(0, 0xFF), (1, 0xFF), (2, 0xFF), (3, 0xFF), (8, 0x55), (9, 0xAA)] 3 0 0)) 1 = some 0x52 ∧
      emAfter (exec (.wrsec 0 1) (demo [some (0, 32), some (8, 15), none, none] [(0, 0xFF), (1, 0xFF), (2, 0xFF), (3, 0xFF), (8, 0x55), (9, 0xAA)] 3 0 0)) 2 = some 0xFD ∧
      emAfter (exec (.wrsec 0 1) (demo [some (0, 32), some (8, 15), none, none] [(0, 0xFF), (1, 0xFF), (2, 0xFF), (3, 0xFF), (8, 0x55), (9, 0xAA)] 3 0 0)) 3 = some 0xFF := by decide

/-- V9. -/
theorem test_wrsec_raises :
    statusAfter (exec (.wrsec 0 2) (v9 8 0 0)) = some 0 ∧
      statusAfter (exec (.wrsec 0 2) (v9 9 0 0)) = some 0x33 ∧
      statusAfter (exec (.wrsec 0 3) (v9 0 0 0)) = some 0x13 ∧
      statusAfter (exec (.wrsec 0 3) (v9with 2 8 4 0)) = some 0x53 ∧
      statusAfter (exec (.wrsec 0 4) (v9 0 0 0)) = some 0x93 := by decide

/-- V8. -/
theorem test_and_combines :
    emAfter (exec (.and 2 0 1) (v8)) 16 = some 0x88 ∧
      emAfter (exec (.and 2 0 1) (v8)) 17 = some 0x58 ∧
      emAfter (exec (.and 2 0 1) (v8)) 18 = some 0x99 := by decide

/-- V9. -/
theorem test_and_raises :
    statusAfter (exec (.and 0 1 2) (v9 0 0 0)) = some 0x43 ∧
      statusAfter (exec (.and 0 1 3) (v9 0 0 0)) = some 0x13 ∧
      statusAfter (exec (.and 3 0 1) (v9with 1 20 0 0)) = some 0x53 ∧
      statusAfter (exec (.and 0 0 4) (v9 0 0 0)) = some 0x93 := by decide

/-- V8, in place. -/
theorem test_or_combines :
    emAfter (exec (.or 1 0 1) (v8)) 8 = some 0xEE ∧
      emAfter (exec (.or 1 0 1) (v8)) 9 = some 0xFE := by decide

/-- R135; two inputs that overlap partially (V8). -/
theorem test_or_raises :
    statusAfter (exec (.or 0 1 2) (v9 0 0 0)) = some 0x43 ∧
      statusAfter (exec (.or 3 0 1) (v9 0 0 0)) = some 0x13 ∧
      statusAfter (exec (.or 1 0 3) (v9with 1 20 0 0)) = some 0x53 ∧
      statusAfter (exec (.or 4 0 0) (v9 0 0 0)) = some 0x93 := by decide

/-- V8: overhang bits cleared too. -/
theorem test_xor_combines :
    emAfter (exec (.xor 0 0 0) (v8)) 0 = some 0 ∧
      emAfter (exec (.xor 0 0 0) (v8)) 1 = some 0 ∧
      emAfter (exec (.xor 0 0 0) (v8)) 2 = some 0x77 := by decide

/-- R135. -/
theorem test_xor_raises :
    statusAfter (exec (.xor 0 1 2) (v9 0 0 0)) = some 0x43 ∧
      statusAfter (exec (.xor 0 3 1) (v9 0 0 0)) = some 0x13 ∧
      statusAfter (exec (.xor 3 0 1) (v9with 1 20 0 0)) = some 0x53 ∧
      statusAfter (exec (.xor 0 4 0) (v9 0 0 0)) = some 0x93 := by decide

/-- V8. -/
theorem test_not_inverts :
    emAfter (exec (.not 2 0) (v8)) 16 = some 0x33 ∧
      emAfter (exec (.not 2 0) (v8)) 17 = some 0x05 := by decide

/-- V9. -/
theorem test_not_raises :
    statusAfter (exec (.not 2 0) (v9 0 0 0)) = some 0x43 ∧
      statusAfter (exec (.not 3 0) (v9 0 0 0)) = some 0x13 ∧
      statusAfter (exec (.not 3 0) (v9with 1 20 0 0)) = some 0x53 ∧
      statusAfter (exec (.not 0 4) (v9 0 0 0)) = some 0x93 := by decide

/-- V6: `0xFFF + 0xFFF + 1 = 0xFFF + 2^12`, the carry at bit 4 of the last element. -/
theorem test_add_adds :
    emAfter (exec (.add 2 0 1 true) (demo [some (0, 12), some (8, 12), some (16, 12), none] [(0, 0xFF), (1, 0xFF), (8, 0xFF), (9, 0xFF), (18, 0x99)] 0 0 0)) 16 = some 0xFF ∧
      emAfter (exec (.add 2 0 1 true) (demo [some (0, 12), some (8, 12), some (16, 12), none] [(0, 0xFF), (1, 0xFF), (8, 0xFF), (9, 0xFF), (18, 0x99)] 0 0 0)) 17 = some 0x1F ∧
      resultsAfter (exec (.add 2 0 1 true) (demo [some (0, 12), some (8, 12), some (16, 12), none] [(0, 0xFF), (1, 0xFF), (8, 0xFF), (9, 0xFF), (18, 0x99)] 0 0 0)) = some (false, true, 0) := by decide

/-- V9. -/
theorem test_add_raises :
    statusAfter (exec (.add 2 0 1 false) (v9 0 0 0)) = some 0x43 ∧
      statusAfter (exec (.add 3 0 2 false) (v9 0 0 0)) = some 0x13 ∧
      statusAfter (exec (.add 3 0 1 false) (v9with 0 20 0 0)) = some 0x53 ∧
      statusAfter (exec (.add 1 0 0 false) (v9 0 0 0)) = some 0x53 ∧
      statusAfter (exec (.add 3 3 3 true) (v9with 0 0 0 0)) = some 0x83 ∧
      statusAfter (exec (.add 0 0 4 false) (v9 0 0 0)) = some 0x93 := by decide

/-- V7, `lsh h1, h0, 5`, and in place for every draw. -/
theorem test_lsh_shifts :
    emAfter (exec (.lsh 1 0) (demo [some (0, 20), some (8, 20), none, none] [(0, 0xB7), (1, 0x4E), (2, 0xFA), (8, 0x99), (9, 0x99), (10, 0x99)] 5 0 0)) 8 = some 0xE0 ∧
      emAfter (exec (.lsh 1 0) (demo [some (0, 20), some (8, 20), none, none] [(0, 0xB7), (1, 0x4E), (2, 0xFA), (8, 0x99), (9, 0x99), (10, 0x99)] 5 0 0)) 9 = some 0xD6 ∧
      ∀ d < 16, emRead (lshEffect d 0 0 (demo [some (0, 20), some (8, 20), none, none] [(0, 0xB7), (1, 0x4E), (2, 0xFA), (8, 0x99), (9, 0x99), (10, 0x99)] 5 0 0)).em 2 = d * 16 + 9 := by decide

/-- V9: LENGTH_MISMATCH before SHIFT_RANGE; coinciding handles accepted. -/
theorem test_lsh_raises :
    statusAfter (exec (.lsh 1 0) (v9 20 0 0)) = some 0 ∧
      statusAfter (exec (.lsh 1 0) (v9 21 0 0)) = some 0x63 ∧
      statusAfter (exec (.lsh 2 0) (v9 99 0 0)) = some 0x43 ∧
      statusAfter (exec (.lsh 3 0) (v9 0 0 0)) = some 0x13 ∧
      statusAfter (exec (.lsh 3 0) (v9with 1 20 1 0)) = some 0x53 ∧
      statusAfter (exec (.lsh 3 0) (v9with 0 20 1 0)) = some 0 ∧
      statusAfter (exec (.lsh 4 0) (v9 0 0 0)) = some 0x93 := by decide

/-- V7, `rsh h1, h0, 1`: the masked read of the last element. -/
theorem test_rsh_shifts :
    emAfter (exec (.rsh 1 0) (demo [some (0, 20), some (8, 20), none, none] [(0, 0xB7), (1, 0x4E), (2, 0xFA), (8, 0x99), (9, 0x99), (10, 0x99)] 1 0 0)) 8 = some 0x5B ∧
      emAfter (exec (.rsh 1 0) (demo [some (0, 20), some (8, 20), none, none] [(0, 0xB7), (1, 0x4E), (2, 0xFA), (8, 0x99), (9, 0x99), (10, 0x99)] 1 0 0)) 9 = some 0x27 ∧
      ∀ d < 16, emRead (rshEffect d 1 0 (demo [some (0, 20), some (8, 20), none, none] [(0, 0xB7), (1, 0x4E), (2, 0xFA), (8, 0x99), (9, 0x99), (10, 0x99)] 1 0 0)).em 10 = d * 16 + 5 := by decide

/-- V9. -/
theorem test_rsh_raises :
    statusAfter (exec (.rsh 1 0) (v9 21 0 0)) = some 0x63 ∧
      statusAfter (exec (.rsh 2 0) (v9 0 0 0)) = some 0x43 ∧
      statusAfter (exec (.rsh 0 3) (v9 0 0 0)) = some 0x13 ∧
      statusAfter (exec (.rsh 0 3) (v9with 1 20 1 0)) = some 0x53 ∧
      statusAfter (exec (.rsh 0 4) (v9 0 0 0)) = some 0x93 := by decide

/-! ### Parameters other than those of reset -/

/-- V7 with `W = 32`, `M = 64`: `lsh h1, h0, 33` on 72 bits. -/
theorem test_lsh_w32 :
    emAfter (exec (.lsh 1 0)
      { State.resetWith ⟨32, 64, 4, 32⟩ [(0, 0x89ABCDEF), (1, 0x01234567), (2, 0xFFFFFF5A)] with
        handles := [geom 32 0 72, geom 32 8 72, Handle.unbound, Handle.unbound], pos := 33 }) 9 = some 0x13579BDE := by
  decide

/-! ### Steps -/

/-- V9: the word `0x00001024` (CLRALL with `hs1 = 1`) is illegal; P5: `ERRS` sticks over a completing command. -/
theorem test_step_illegal :
    statusAfter (step ((v9 0 0 0).withFetchWord 32 0x00001024)) = some 0x93 ∧
      statusAfter (step ({ v9 4 0 0 with status := 0x93 }.withFetchWord 32 0x00000023)) = some 0x02 := by decide

/-- R187: a host write of an element. -/
theorem test_step_host_write :
    emAfter (step { v9 0 0 0 with host := [.writeEm 3 0x5A] }) 3 = some 0x5A := by decide

/-! ### Witnesses: states and operands that meet the hypotheses of the statements -/

theorem witness_EncodeOfDecodeIsTheWord :
    decode 0x00010240 = .ok (.and 2 0 1) :=
  by decide

theorem witness_WordSelectsCommandByMaskAndMatch :
    (0x00010240 : CommandWord) &&& (Instr.and 2 0 1).formatMask = (Instr.and 2 0 1).formatMatch ∧
      decode 0x00010240 = .ok (.and 2 0 1) :=
  by decide

theorem witness_IllegalWordsRaiseAndLegalWordsRun :
    ({ v9 0 0 0 with host := [.issue 0x00000420] } : State).host = .issue 0x00000420 :: [] ∧
      illegalWord 4 0x00000420 ∧ illegalWord 4 0x80000020 ∧ illegalWord 4 0x00001020 ∧ ¬ illegalWord 4 0x00000320 := by
  refine ⟨rfl, .inr (.inr ⟨.setbit 0, by decide⟩), .inr (.inl (by decide)), .inr (.inr ⟨.setbit 0, by decide⟩), ?_⟩
  rintro (h | h | ⟨i, hop, h⟩)
  · exact h (.setbit 0) (by decide)
  · exact h (by decide)
  · cases i <;> first
      | exact absurd hop (by simp only [Instr.op]; decide)
      | exact absurd h (by simp only [Instr.selectors, List.length_cons, List.length_nil, usesCin]; decide)

theorem witness_StepRunsTheDecodedCommand :
    ({ v9 4 0 0 with host := [.issue 0x00000023] } : State).host = .issue 0x00000023 :: [] ∧
      decode 0x00000023 = .ok (.rdbit 0) ∧ (Instr.rdbit 0).wf (v9 4 0 0).par.nh :=
  by decide

theorem witness_EveryCommandCompletesOrRaises :
    (v9 19 0 0).Inv :=
  v9_inv _ _ _ (by decide) (by decide) (by decide)

/-- A completing command and a raising one (CommandsEndByWritingStatus, CausesAreThoseOfTheTable). -/
theorem witness_CommandsEndByWritingStatus :
    (∃ t, exec (.setbit 0) (v9 19 0 0) = .next t ∧ statusErr t.status = false) ∧
      ∃ t, exec (.setbit 0) (v9 20 0 0) = .next t ∧ statusErr t.status = true :=
  ⟨⟨_, rfl, by decide⟩, ⟨_, rfl, by decide⟩⟩

theorem witness_CausesAreThoseOfTheTable :
    (∃ t, exec (.setbit 0) (v9 20 0 0) = .next t ∧ statusErr t.status = true) ∧
      Cause.indexRange ∈ causesOf (.setbit 0) :=
  ⟨⟨_, rfl, by decide⟩, by decide⟩

theorem witness_FirstViolatedCauseIsReported :
    (v9 20 0 0).Inv ∧ violates (.setbit 0) (v9 20 0 0) .indexRange ∧
      (∀ c', violates (.setbit 0) (v9 20 0 0) c' → causeRank .indexRange ≤ causeRank c') ∧
      ∀ c, ¬ violates (.setbit 0) (v9 19 0 0) c := by
  refine ⟨v9_inv _ _ _ (by decide) (by decide) (by decide), by show (20 : Nat) ≤ 20; decide, ?_, ?_⟩
  · intro c h
    cases c <;> simp [violates, causeRank] at h ⊢ <;> revert h <;> decide
  · intro c h
    cases c <;> simp [violates] at h <;> revert h <;> decide

theorem witness_OnlyResetClearsErrs :
    ∃ t, step { v9 4 0 0 with status := 0x93, host := [.issue 0x00000023] } = .next t ∧
      statusErrs ({ v9 4 0 0 with status := 0x93, host := [.issue 0x00000023] } : State).status = true ∧
      HostAction.issue 0x00000023 ≠ .reset :=
  ⟨_, rfl, by decide, by decide⟩

/-- A step from a state that meets the invariant (BoundHandlesKeepDerivedGeometry, EveryStepKeepsTheInvariant). -/
theorem witness_EveryStepKeepsTheInvariant :
    ({ v9 4 0 0 with host := [.issue 0x00000023] } : State).Inv ∧
      ∃ t, step { v9 4 0 0 with host := [.issue 0x00000023] } = .next t :=
  ⟨{ (v9_inv 4 0 0 (by decide) (by decide) (by decide)) with }, _, rfl⟩

theorem witness_BoundHandlesKeepDerivedGeometry :
    (v9 4 0 0).par.wf ∧ (∀ h ∈ (v9 4 0 0).handles, h.bound = true → GeometryHolds (v9 4 0 0).par h) ∧
      ∃ t, step (v9 4 0 0) = .next t :=
  ⟨by decide, (v9_inv 4 0 0 (by decide) (by decide) (by decide)).geometry, _, rfl⟩

theorem witness_ResetMeetsTheInvariant : Params.vectors.wf ∧ Memory.wf Params.vectors [(3, 0x5A)] := by decide

/-- `setbit h0, 19` with another element at index 200, outside every range it names. -/
theorem witness_CommandsReachOnlyOperandRanges :
    (v9 19 0 0).Inv ∧ Memory.wf (v9 19 0 0).par ((v9 19 0 0).em ++ [(200, 7)]) ∧
      (∃ t, exec (.setbit 0) (v9 19 0 0) = .next t) ∧
      (∀ h ∈ (Instr.setbit 0).selectors, ¬ (v9 19 0 0).inRange h 200) ∧
      ∀ h ∈ (Instr.setbit 0).selectors, ∀ k, (v9 19 0 0).inRange h k →
        emRead ((v9 19 0 0).em ++ [(200, 7)]) k = emRead (v9 19 0 0).em k := by
  refine ⟨v9_inv _ _ _ (by decide) (by decide) (by decide), by decide, ⟨_, rfl⟩, by decide, ?_⟩
  intro h hm k hk
  obtain rfl : h = 0 := by simpa [Instr.selectors] using hm
  have h3 : k < 3 := hk.2
  interval_cases k <;> decide

/-- `rdbit h0, 4` with the overhang nibble of the array changed. -/
theorem witness_OverhangBitsNeverReachDeclaredBits :
    (v9 4 0 0).Inv ∧ Memory.wf (v9 4 0 0).par (emWrite 8 (v9 4 0 0).em 2 0x0A) ∧
      (∀ hd, Instr.rdbit 0 ≠ .init hd) ∧ (∀ hd, Instr.rdbit 0 ≠ .setlen hd) ∧
      (∃ t, exec (.rdbit 0) (v9 4 0 0) = .next t) ∧
      ∀ h ∈ (Instr.rdbit 0).selectors, ∀ u < ((v9 4 0 0).handle h).lengthBits,
        State.abit { v9 4 0 0 with em := emWrite 8 (v9 4 0 0).em 2 0x0A } h u = (v9 4 0 0).abit h u := by
  refine ⟨v9_inv _ _ _ (by decide) (by decide) (by decide), by decide, by simp, by simp, ⟨_, rfl⟩, ?_⟩
  intro h hm
  obtain rfl : h = 0 := by simpa [Instr.selectors] using hm
  decide

theorem witness_HandlesAreWrittenOnlyByInitAndSetlen :
    (∃ t, exec (.setlen 0) (v9 0 12 0) = .next t) ∧
      (∃ t, step { v9 0 0 0 with host := [.writePos 5] } = .next t) ∧ (v9 0 12 0).Inv ∧
      (3 : HSel).toNat < (v9 0 12 0).par.nh :=
  ⟨⟨_, rfl⟩, ⟨_, rfl⟩, v9_inv _ _ _ (by decide) (by decide) (by decide), by decide⟩

theorem witness_ResultRegistersHaveOneWriterAndNoReader :
    (∃ t, exec (.rdbit 0) (v9 4 0 0) = .next t) ∧ ∃ t, exec (.add 2 0 1 true) v8 = .next t :=
  ⟨⟨_, rfl⟩, ⟨_, rfl⟩⟩

theorem witness_HandleFieldsFitTheirWidths : (v9 0 0 0).Inv ∧ ((v9 0 0 0).handle 0).bound = true :=
  ⟨v9_inv _ _ _ (by decide) (by decide) (by decide), rfl⟩

theorem witness_DisjointMeansNoCommonElement : (v9 0 0 0).Inv ∧ (v9 0 0 0).allBound [0, 1] :=
  ⟨v9_inv _ _ _ (by decide) (by decide) (by decide), by decide⟩

theorem witness_ResetKeepsElementMemory : ({ v9 0 0 0 with host := [.reset] } : State).host = .reset :: [] := rfl

theorem witness_HostWritesOneElementAndReadsNone :
    ({ v9 0 0 0 with host := [.writeEm 255 0xFF] } : State).host = .writeEm 255 0xFF :: [] ∧
      255 < (v9 0 0 0).par.m ∧ 0xFF < 2 ^ (v9 0 0 0).par.w ∧
      ({ v9 0 0 0 with host := [.read (.em 255)] } : State).host = .read (.em 255) :: [] := by decide

theorem witness_HostWritesOperandRegisters :
    4294967295 < 2 ^ (v9 0 0 0).par.idxw ∧
      ({ v9 0 0 0 with host := [.writePos 4294967295] } : State).host = .writePos 4294967295 :: [] ∧
      ({ v9 0 0 0 with host := [.writeLen 4294967295] } : State).host = .writeLen 4294967295 :: [] ∧
      ({ v9 0 0 0 with host := [.writeBase 4294967295] } : State).host = .writeBase 4294967295 :: [] := by decide

theorem witness_IdleStepsAndHostFaults :
    (v9 0 0 0).host = [] ∧ ¬ 256 < (v9 0 0 0).par.m ∧ ¬ 256 < 2 ^ (v9 0 0 0).par.w ∧
      ({ v9 0 0 0 with host := [.writeEm 256 0] } : State).host = .writeEm 256 0 :: [] ∧
      ({ v9 0 0 0 with host := [.writePos 4294967296] } : State).host = .writePos 4294967296 :: [] ∧
      2 ^ (v9 0 0 0).par.idxw ≤ 4294967296 := by decide

/-! Each contract is an if-else chain over states that meet the invariant: a state for its last case, then one for each
refusal, at the boundary. -/

theorem witness_InitBindsTheHandle :
    (v9 0 16 254).Inv ∧ (v9 0 17 254).Inv ∧
      (v9 0 16 254).legal [3] ∧ 254 + (16 + 8 - 1) / 8 ≤ 256 ∧ ¬ 254 + (17 + 8 - 1) / 8 ≤ 256 ∧ ¬ (v9 0 0 0).legal [4] :=
  ⟨v9_inv _ _ _ (by decide) (by decide) (by decide), v9_inv _ _ _ (by decide) (by decide) (by decide), by decide⟩

theorem witness_SetlenResizesOverTheSameStorage :
    (v9 0 1920 0).Inv ∧ (v9 0 1921 0).Inv ∧
      (v9 0 1920 0).legal [2] ∧ (v9 0 1920 0).allBound [2] ∧ ((v9 0 0 0).handle 2).first + (1920 + 8 - 1) / 8 ≤ 256 ∧
      ¬ ((v9 0 0 0).handle 2).first + (1921 + 8 - 1) / 8 ≤ 256 ∧ ¬ (v9 0 0 0).allBound [3] ∧ ¬ (v9 0 0 0).legal [4] :=
  ⟨v9_inv _ _ _ (by decide) (by decide) (by decide), v9_inv _ _ _ (by decide) (by decide) (by decide), by decide⟩

theorem witness_SetbitSetsTheBitAtPos :
    (v9 19 0 0).Inv ∧ (v9 20 0 0).Inv ∧
      (v9 19 0 0).legal [0] ∧ (v9 19 0 0).allBound [0] ∧ 19 < ((v9 19 0 0).handle 0).lengthBits ∧
      ¬ 20 < ((v9 20 0 0).handle 0).lengthBits ∧ ¬ (v9 0 0 0).allBound [3] ∧ ¬ (v9 0 0 0).legal [4] :=
  ⟨v9_inv _ _ _ (by decide) (by decide) (by decide), v9_inv _ _ _ (by decide) (by decide) (by decide), by decide⟩

theorem witness_ClrbitClearsTheBitAtPos :
    (v9 19 0 0).Inv ∧ (v9 20 0 0).Inv ∧
      (v9 19 0 0).legal [0] ∧ (v9 19 0 0).allBound [0] ∧ 19 < ((v9 19 0 0).handle 0).lengthBits ∧
      ¬ 20 < ((v9 20 0 0).handle 0).lengthBits ∧ ¬ (v9 0 0 0).allBound [3] ∧ ¬ (v9 0 0 0).legal [4] :=
  ⟨v9_inv _ _ _ (by decide) (by decide) (by decide), v9_inv _ _ _ (by decide) (by decide) (by decide), by decide⟩

theorem witness_TglbitInvertsTheBitAtPos :
    (v9 19 0 0).Inv ∧ (v9 20 0 0).Inv ∧
      (v9 19 0 0).legal [0] ∧ (v9 19 0 0).allBound [0] ∧ 19 < ((v9 19 0 0).handle 0).lengthBits ∧
      ¬ 20 < ((v9 20 0 0).handle 0).lengthBits ∧ ¬ (v9 0 0 0).allBound [3] ∧ ¬ (v9 0 0 0).legal [4] :=
  ⟨v9_inv _ _ _ (by decide) (by decide) (by decide), v9_inv _ _ _ (by decide) (by decide) (by decide), by decide⟩

theorem witness_RdbitReadsTheBitAtPos :
    (v9 19 0 0).Inv ∧ (v9 20 0 0).Inv ∧
      (v9 19 0 0).legal [0] ∧ (v9 19 0 0).allBound [0] ∧ 19 < ((v9 19 0 0).handle 0).lengthBits ∧
      ¬ 20 < ((v9 20 0 0).handle 0).lengthBits ∧ ¬ (v9 0 0 0).allBound [3] ∧ ¬ (v9 0 0 0).legal [4] :=
  ⟨v9_inv _ _ _ (by decide) (by decide) (by decide), v9_inv _ _ _ (by decide) (by decide) (by decide), by decide⟩

theorem witness_ClrallClearsEveryElement :
    (v9 0 0 0).Inv ∧
      (v9 0 0 0).legal [0] ∧ (v9 0 0 0).allBound [0] ∧ ¬ (v9 0 0 0).allBound [3] ∧ ¬ (v9 0 0 0).legal [4] :=
  ⟨v9_inv _ _ _ (by decide) (by decide) (by decide), by decide⟩

theorem witness_SetallSetsEveryElement :
    (v9 0 0 0).Inv ∧
      (v9 0 0 0).legal [0] ∧ (v9 0 0 0).allBound [0] ∧ ¬ (v9 0 0 0).allBound [3] ∧ ¬ (v9 0 0 0).legal [4] :=
  ⟨v9_inv _ _ _ (by decide) (by decide) (by decide), by decide⟩

theorem witness_SetsecSetsExactlyTheRun :
    (v9 10 10 0).Inv ∧ (v9 10 11 0).Inv ∧
      (v9 10 10 0).legal [0] ∧ (v9 10 10 0).allBound [0] ∧ 10 + 10 ≤ ((v9 10 10 0).handle 0).lengthBits ∧
      ¬ 10 + 11 ≤ ((v9 10 11 0).handle 0).lengthBits ∧ ¬ (v9 0 0 0).allBound [3] ∧ ¬ (v9 0 0 0).legal [4] :=
  ⟨v9_inv _ _ _ (by decide) (by decide) (by decide), v9_inv _ _ _ (by decide) (by decide) (by decide), by decide⟩

theorem witness_ClrsecClearsExactlyTheRun :
    (v9 10 10 0).Inv ∧ (v9 10 11 0).Inv ∧
      (v9 10 10 0).legal [0] ∧ (v9 10 10 0).allBound [0] ∧ 10 + 10 ≤ ((v9 10 10 0).handle 0).lengthBits ∧
      ¬ 10 + 11 ≤ ((v9 10 11 0).handle 0).lengthBits ∧ ¬ (v9 0 0 0).allBound [3] ∧ ¬ (v9 0 0 0).legal [4] :=
  ⟨v9_inv _ _ _ (by decide) (by decide) (by decide), v9_inv _ _ _ (by decide) (by decide) (by decide), by decide⟩

theorem witness_LastvalReadsTheMaskedLastElement :
    (v9 0 0 0).Inv ∧ (v9with 0 0 0 0).Inv ∧
      (v9 0 0 0).legal [0] ∧ (v9 0 0 0).allBound [0] ∧ 0 < ((v9 0 0 0).handle 0).lengthBits ∧
      ¬ 0 < ((v9with 0 0 0 0).handle 3).lengthBits ∧ ¬ (v9 0 0 0).allBound [3] ∧ ¬ (v9 0 0 0).legal [4] :=
  ⟨v9_inv _ _ _ (by decide) (by decide) (by decide), demo_inv _ _ _ _ _ rfl (by decide) (by decide) (by decide) (by decide) (by decide), by decide⟩

theorem witness_RdsecCopiesTheRun :
    (v9 8 0 0).Inv ∧ (v9 9 0 0).Inv ∧ (v9with 2 8 4 0).Inv ∧
      (v9 8 0 0).legal [2, 0] ∧ (v9 8 0 0).allBound [2, 0] ∧ 8 + ((v9 8 0 0).handle 2).lengthBits ≤ ((v9 8 0 0).handle 0).lengthBits ∧
      (v9 8 0 0).apart 2 0 ∧ ((v9 8 0 0).handle 2).bme ≠ 0 ∧ ¬ (v9with 2 8 4 0).apart 3 0 ∧
      ¬ 9 + ((v9 9 0 0).handle 2).lengthBits ≤ ((v9 9 0 0).handle 0).lengthBits ∧ ¬ (v9 0 0 0).allBound [3, 0] ∧ ¬ (v9 0 0 0).legal [0, 4] :=
  ⟨v9_inv _ _ _ (by decide) (by decide) (by decide), v9_inv _ _ _ (by decide) (by decide) (by decide), demo_inv _ _ _ _ _ rfl (by decide) (by decide) (by decide) (by decide) (by decide), by decide⟩

theorem witness_WrsecWritesExactlyTheRun :
    (v9 8 0 0).Inv ∧ (v9 9 0 0).Inv ∧ (v9with 2 8 4 0).Inv ∧
      (v9 8 0 0).legal [0, 2] ∧ (v9 8 0 0).allBound [0, 2] ∧ 8 + ((v9 8 0 0).handle 2).lengthBits ≤ ((v9 8 0 0).handle 0).lengthBits ∧
      (v9 8 0 0).apart 0 2 ∧ ¬ (v9with 2 8 4 0).apart 0 3 ∧
      ¬ 9 + ((v9 9 0 0).handle 2).lengthBits ≤ ((v9 9 0 0).handle 0).lengthBits ∧ ¬ (v9 0 0 0).allBound [0, 3] ∧ ¬ (v9 0 0 0).legal [0, 4] :=
  ⟨v9_inv _ _ _ (by decide) (by decide) (by decide), v9_inv _ _ _ (by decide) (by decide) (by decide), demo_inv _ _ _ _ _ rfl (by decide) (by decide) (by decide) (by decide) (by decide), by decide⟩

theorem witness_ReadThenWriteOfASectionRestores :
    (v9 8 0 0).Inv ∧ ∃ t, exec (.rdsec 2 0) (v9 8 0 0) = .next t ∧ statusErr t.status = false :=
  ⟨v9_inv _ _ _ (by decide) (by decide) (by decide), _, rfl, by decide⟩

theorem witness_AndCombinesElementwise :
    (v8).Inv ∧ (v9 0 0 0).Inv ∧ (v9with 1 20 0 0).Inv ∧
      v8.legal [2, 0, 1] ∧ v8.allBound [2, 0, 1] ∧ (v8.handle 0).lengthBits = (v8.handle 2).lengthBits ∧ (v8.handle 1).lengthBits = (v8.handle 2).lengthBits ∧
      v8.apartOrSame 2 0 ∧ v8.apartOrSame 2 1 ∧ v8.apartOrSame 0 1 ∧ v8.apartOrSame 0 0 ∧
      ¬ (v9with 1 20 0 0).apartOrSame 3 0 ∧ ¬ ((v9 0 0 0).handle 2).lengthBits = ((v9 0 0 0).handle 0).lengthBits ∧
      ¬ (v9 0 0 0).allBound [0, 1, 3] ∧ ¬ (v9 0 0 0).legal [0, 0, 4] :=
  ⟨v8_inv, v9_inv _ _ _ (by decide) (by decide) (by decide), demo_inv _ _ _ _ _ rfl (by decide) (by decide) (by decide) (by decide) (by decide), by decide⟩

theorem witness_OrCombinesElementwise :
    (v8).Inv ∧ (v9 0 0 0).Inv ∧ (v9with 1 20 0 0).Inv ∧
      v8.legal [2, 0, 1] ∧ v8.allBound [2, 0, 1] ∧ (v8.handle 0).lengthBits = (v8.handle 2).lengthBits ∧ (v8.handle 1).lengthBits = (v8.handle 2).lengthBits ∧
      v8.apartOrSame 2 0 ∧ v8.apartOrSame 2 1 ∧ v8.apartOrSame 0 1 ∧ v8.apartOrSame 0 0 ∧
      ¬ (v9with 1 20 0 0).apartOrSame 3 0 ∧ ¬ ((v9 0 0 0).handle 2).lengthBits = ((v9 0 0 0).handle 0).lengthBits ∧
      ¬ (v9 0 0 0).allBound [0, 1, 3] ∧ ¬ (v9 0 0 0).legal [0, 0, 4] :=
  ⟨v8_inv, v9_inv _ _ _ (by decide) (by decide) (by decide), demo_inv _ _ _ _ _ rfl (by decide) (by decide) (by decide) (by decide) (by decide), by decide⟩

theorem witness_XorCombinesElementwise :
    (v8).Inv ∧ (v9 0 0 0).Inv ∧ (v9with 1 20 0 0).Inv ∧
      v8.legal [2, 0, 1] ∧ v8.allBound [2, 0, 1] ∧ (v8.handle 0).lengthBits = (v8.handle 2).lengthBits ∧ (v8.handle 1).lengthBits = (v8.handle 2).lengthBits ∧
      v8.apartOrSame 2 0 ∧ v8.apartOrSame 2 1 ∧ v8.apartOrSame 0 1 ∧ v8.apartOrSame 0 0 ∧
      ¬ (v9with 1 20 0 0).apartOrSame 3 0 ∧ ¬ ((v9 0 0 0).handle 2).lengthBits = ((v9 0 0 0).handle 0).lengthBits ∧
      ¬ (v9 0 0 0).allBound [0, 1, 3] ∧ ¬ (v9 0 0 0).legal [0, 0, 4] :=
  ⟨v8_inv, v9_inv _ _ _ (by decide) (by decide) (by decide), demo_inv _ _ _ _ _ rfl (by decide) (by decide) (by decide) (by decide) (by decide), by decide⟩

theorem witness_NotInvertsElementwise :
    (v8).Inv ∧ (v9 0 0 0).Inv ∧ (v9with 1 20 0 0).Inv ∧
      v8.legal [2, 0] ∧ v8.allBound [2, 0] ∧ (v8.handle 0).lengthBits = (v8.handle 2).lengthBits ∧ v8.apartOrSame 2 0 ∧
      ¬ (v9with 1 20 0 0).apartOrSame 3 0 ∧ ¬ ((v9 0 0 0).handle 0).lengthBits = ((v9 0 0 0).handle 2).lengthBits ∧
      ¬ (v9 0 0 0).allBound [3, 0] ∧ ¬ (v9 0 0 0).legal [0, 4] :=
  ⟨v8_inv, v9_inv _ _ _ (by decide) (by decide) (by decide), demo_inv _ _ _ _ _ rfl (by decide) (by decide) (by decide) (by decide) (by decide), by decide⟩

theorem witness_ElementFullAdderIsExact :
    1 ≤ 8 ∧ (0xFF : Elem) < 2 ^ 8 ∧ fullAdd 8 0xFF 0xFF true = (0xFF, true) ∧
      1 ≤ 1 ∧ (1 : Elem) < 2 ^ 1 ∧ fullAdd 1 1 1 true = (1, true) :=
  by decide

theorem witness_AddIsExactUnsignedAddition :
    (v8).Inv ∧ (v9 0 0 0).Inv ∧ (v9with 0 20 0 0).Inv ∧ (v9with 0 0 0 0).Inv ∧
      v8.legal [2, 0, 1] ∧ v8.allBound [2, 0, 1] ∧ (v8.handle 0).lengthBits = (v8.handle 2).lengthBits ∧ (v8.handle 1).lengthBits = (v8.handle 2).lengthBits ∧
      0 < (v8.handle 2).lengthBits ∧ v8.apart 2 0 ∧ v8.apart 2 1 ∧ v8.apart 0 1 ∧ (v8.handle 2).bme ≠ 0 ∧
      ¬ (v9with 0 20 0 0).apart 3 0 ∧ ¬ 0 < ((v9with 0 0 0 0).handle 3).lengthBits ∧
      ¬ ((v9 0 0 0).handle 0).lengthBits = ((v9 0 0 0).handle 2).lengthBits ∧ ¬ (v9 0 0 0).allBound [3, 0, 1] ∧
      ¬ (v9 0 0 0).legal [0, 0, 4] :=
  ⟨v8_inv, v9_inv _ _ _ (by decide) (by decide) (by decide), demo_inv _ _ _ _ _ rfl (by decide) (by decide) (by decide) (by decide) (by decide), demo_inv _ _ _ _ _ rfl (by decide) (by decide) (by decide) (by decide) (by decide), by decide⟩

theorem witness_AddMatchesBitSerialAdder :
    v8.Inv ∧ ∃ t, exec (.add 2 0 1 true) v8 = .next t ∧ statusErr t.status = false :=
  ⟨v8_inv, _, rfl, by decide⟩

theorem witness_LshShiftsTowardHigherBits :
    (v9 20 0 0).Inv ∧ (v9 21 0 0).Inv ∧ (v9with 1 20 1 0).Inv ∧
      (v9 20 0 0).legal [1, 0] ∧ (v9 20 0 0).allBound [1, 0] ∧ ((v9 20 0 0).handle 0).lengthBits = ((v9 20 0 0).handle 1).lengthBits ∧
      20 ≤ ((v9 20 0 0).handle 1).lengthBits ∧ (v9 20 0 0).apartOrSame 1 0 ∧ ((v9 20 0 0).handle 1).bme ≠ 0 ∧
      ¬ 21 ≤ ((v9 21 0 0).handle 1).lengthBits ∧ ¬ (v9with 1 20 1 0).apartOrSame 3 0 ∧
      ¬ ((v9 20 0 0).handle 0).lengthBits = ((v9 20 0 0).handle 2).lengthBits ∧ ¬ (v9 0 0 0).allBound [3, 0] ∧ ¬ (v9 0 0 0).legal [4, 0] :=
  ⟨v9_inv _ _ _ (by decide) (by decide) (by decide), v9_inv _ _ _ (by decide) (by decide) (by decide), demo_inv _ _ _ _ _ rfl (by decide) (by decide) (by decide) (by decide) (by decide), by decide⟩

theorem witness_RshShiftsTowardLowerBits :
    (v9 20 0 0).Inv ∧ (v9 21 0 0).Inv ∧ (v9with 1 20 1 0).Inv ∧
      (v9 20 0 0).legal [1, 0] ∧ (v9 20 0 0).allBound [1, 0] ∧ ((v9 20 0 0).handle 0).lengthBits = ((v9 20 0 0).handle 1).lengthBits ∧
      20 ≤ ((v9 20 0 0).handle 1).lengthBits ∧ (v9 20 0 0).apartOrSame 1 0 ∧ ((v9 20 0 0).handle 1).bme ≠ 0 ∧
      ¬ 21 ≤ ((v9 21 0 0).handle 1).lengthBits ∧ ¬ (v9with 1 20 1 0).apartOrSame 3 0 ∧
      ¬ ((v9 20 0 0).handle 0).lengthBits = ((v9 20 0 0).handle 2).lengthBits ∧ ¬ (v9 0 0 0).allBound [3, 0] ∧ ¬ (v9 0 0 0).legal [4, 0] :=
  ⟨v9_inv _ _ _ (by decide) (by decide) (by decide), v9_inv _ _ _ (by decide) (by decide) (by decide), demo_inv _ _ _ _ _ rfl (by decide) (by decide) (by decide) (by decide) (by decide), by decide⟩

theorem witness_SetOrClearThenReadGivesTheBit :
    (v9 19 0 0).Inv ∧
      (v9 19 0 0).legal [0] ∧ (v9 19 0 0).allBound [0] ∧ (v9 19 0 0).pos < ((v9 19 0 0).handle 0).lengthBits :=
  ⟨v9_inv _ _ _ (by decide) (by decide) (by decide), by decide⟩

theorem witness_InvertingTwiceRestoresMemory :
    (v9 19 0 0).Inv ∧ (∃ t, exec (.tglbit 0) (v9 19 0 0) = .next t ∧ statusErr t.status = false) ∧ v8.Inv ∧
      v8.same 0 0 ∧ ∃ t, exec (.not 0 0) v8 = .next t ∧ statusErr t.status = false :=
  ⟨v9_inv _ _ _ (by decide) (by decide) (by decide), ⟨_, rfl, by decide⟩, v8_inv, by decide, ⟨_, rfl, by decide⟩⟩

end Sys2Proof.Tests
end

/-! PROOFS. Every command in the shape of `runCommand`, and the statements of 00_scope.md: every command completes or
raises (R11, 60 R160), and what `disjoint` means (R17). -/

namespace Sys2Proof.Machine

/-! ### Every command is `runCommand` of its checks, operands and effect -/

/-- The checks of a command, in R164's order. -/
def checksOf (i : Instr) (s : State) : List (Bool × Cause) :=
  match i with
  | .init hd => [selectorsLegal s [hd], storageFits s s.base]
  | .setlen hd => [selectorsLegal s [hd], handlesBound s [hd], storageFits s (s.handle hd).first]
  | .setbit hd | .clrbit hd | .tglbit hd | .rdbit hd => singleBitChecks s hd
  | .clrall hd | .setall hd => [selectorsLegal s [hd], handlesBound s [hd]]
  | .setsec hd | .clrsec hd => sectionChecks s hd
  | .lastval hd => [selectorsLegal s [hd], handlesBound s [hd], notEmpty s hd]
  | .rdsec hd hs1 =>
    [selectorsLegal s [hd, hs1], handlesBound s [hd, hs1], sectionInRange s (s.handle hd).lengthBits hs1,
      aliasing s disjoint [hd, hs1]]
  | .wrsec hd hs1 =>
    [selectorsLegal s [hd, hs1], handlesBound s [hd, hs1], sectionInRange s (s.handle hs1).lengthBits hd,
      aliasing s disjoint [hd, hs1]]
  | .and hd hs1 hs2 | .or hd hs1 hs2 | .xor hd hs1 hs2 => bitwiseChecks s hd [hs1, hs2]
  | .not hd hs1 => bitwiseChecks s hd [hs1]
  | .add hd hs1 hs2 _ =>
    [selectorsLegal s [hd, hs1, hs2], handlesBound s [hd, hs1, hs2], lengthsAgree s hd [hs1, hs2], notEmpty s hd,
      aliasing s disjoint [hd, hs1, hs2]]
  | .lsh hd hs1 | .rsh hd hs1 => shiftChecks s hd hs1

/-- The handles whose elements a command's effect reaches: none for INIT and SETLEN, else all it names. -/
def operandsOf : Instr → List HSel
  | .init _ | .setlen _ => []
  | i => i.selectors

/-- What a command does, before it writes `STATUS`, when its checks hold. -/
def effectOf (i : Instr) (s : State) : State :=
  match i with
  | .init hd => s.setHandle hd (geom s.par.w s.base s.len)
  | .setlen hd => s.setHandle hd { geom s.par.w (s.handle hd).first s.len with bound := (s.handle hd).bound }
  | .setbit hd => modifyBit s hd (fun v m => v ||| m)
  | .clrbit hd => modifyBit s hd (fun v m => v &&& compl s.par.w m)
  | .tglbit hd => modifyBit s hd (fun v m => v ^^^ m)
  | .rdbit hd => s.setRbit ((emRead s.em (bitElement s.par.w (s.handle hd) s.pos)).testBit (s.pos % s.par.w))
  | .clrall hd => fillArray s hd 0
  | .setall hd => fillArray s hd (ones s.par.w)
  | .setsec hd => s.setEm (sectionRun s.par.w (s.handle hd).first s.pos s.len (fun v m => v ||| m) s.em)
  | .clrsec hd =>
    s.setEm (sectionRun s.par.w (s.handle hd).first s.pos s.len (fun v m => v &&& compl s.par.w m) s.em)
  | .lastval hd => s.setRval (lastValue s.em (s.handle hd))
  | .rdsec hd hs1 => rdsecEffect (Config.draw s.drawn) (Config.draw (s.drawn + 1)) hd hs1 s
  | .wrsec hd hs1 => wrsecEffect hd hs1 s
  | .and hd hs1 hs2 => bitwise2 s (fun x y => x &&& y) hd hs1 hs2
  | .or hd hs1 hs2 => bitwise2 s (fun x y => x ||| y) hd hs1 hs2
  | .xor hd hs1 hs2 => bitwise2 s (fun x y => x ^^^ y) hd hs1 hs2
  | .not hd hs1 => bitwise1 s (compl s.par.w) hd hs1
  | .add hd hs1 hs2 cin => addEffect hd hs1 hs2 cin s
  | .lsh hd hs1 => lshEffect (Config.draw s.drawn) hd hs1 s
  | .rsh hd hs1 => rshEffect (Config.draw s.drawn) hd hs1 s

/-- The tie to the model: each of the twenty arms of `exec` is `runCommand` of these three. -/
theorem exec_eq_runCommand (i : Instr) (s : State) :
    exec i s = runCommand s (checksOf i s) (operandsOf i) (effectOf i) := by
  cases i <;> rfl

/-! ### Every command completes or raises (R11, R160) -/

/-- A command that reaches elements of handles checks that these are bound (R162). -/
theorem operandsOf_eq_nil_or_handlesBound_mem (i : Instr) (s : State) :
    operandsOf i = [] ∨ handlesBound s (operandsOf i) ∈ checksOf i s := by
  cases i with
  | init hd => exact .inl rfl
  | setlen hd => exact .inl rfl
  | _ =>
    right
    simp [checksOf, operandsOf, Instr.selectors, singleBitChecks, sectionChecks, bitwiseChecks, shiftChecks]

/-- When a command's checks hold, its operand handles are bound. -/
theorem allBound_operandsOf {i : Instr} {s : State} (h : firstCause (checksOf i s) = none) :
    s.allBound (operandsOf i) := by
  obtain hnil | hmem := operandsOf_eq_nil_or_handlesBound_mem i s
  · rw [hnil]; exact List.forall_mem_nil _
  · exact (handlesBound_iff s _).1 (firstCause_eq_none.1 h _ hmem)

/-- What `exec` does in a state that meets the invariant: it raises the cause of the first check that fails, or applies
the command's effect and completes. -/
theorem exec_raises_or_completes (i : Instr) {s : State} (hs : s.Inv) :
    (∃ c, firstCause (checksOf i s) = some c ∧ exec i s = .next (s.raise c)) ∨
      (firstCause (checksOf i s) = none ∧ exec i s = .next (effectOf i s).complete) := by
  rw [exec_eq_runCommand]
  cases hc : firstCause (checksOf i s) with
  | some c => exact .inl ⟨c, rfl, runCommand_raises hc⟩
  | none =>
    have hconsistent : ∀ k ∈ operandsOf i, handleConsistent s.par (s.handle k) = true :=
      fun k hk => hs.consistent k (allBound_operandsOf hc k hk)
    exact .inr ⟨rfl, runCommand_completes hc hconsistent⟩

/-- Settles O7: the invariant makes every bound operand handle consistent, so no command stops. -/
theorem everyCommandCompletesOrRaises : Obligations.EveryCommandCompletesOrRaises := by
  intro i s hs
  obtain ⟨c, -, hraise⟩ | ⟨-, hcomplete⟩ := exec_raises_or_completes i hs
  · exact ⟨_, hraise, .inr ⟨c, rfl⟩⟩
  · exact ⟨_, hcomplete, .inl (by simp)⟩

/-! ### Disjoint handles (R17) -/

/-- An array takes up no element exactly when it declares no bit (R24). -/
theorem GeometryHolds.lengthElements_eq_zero_iff {p : Params} {h : Handle} (hg : GeometryHolds p h) (hw : 1 ≤ p.w) :
    h.lengthElements = 0 ↔ h.lengthBits = 0 := by
  rw [hg.lengthElements, Nat.div_eq_zero_iff_lt hw]
  omega

/-- The machine's check says that the two ranges `[first, limiter)` have no index in common, for any two handles. -/
theorem disjoint_iff_no_common_index (a b : Handle) :
    disjoint a b = true ↔ ∀ k, ¬ ((a.first ≤ k ∧ k < a.limiter) ∧ (b.first ≤ k ∧ k < b.limiter)) := by
  simp only [disjoint, decide_eq_true_eq, ← Set.Ico_disjoint_Ico, Set.disjoint_left, Set.mem_Ico, not_and]

/-- For handles that satisfy R24 the contracts' form of disjointness is the machine's check. -/
theorem State.apart_iff_disjoint {s : State} {a b : HSel} (hw : 1 ≤ s.par.w) (ha : GeometryHolds s.par (s.handle a))
    (hb : GeometryHolds s.par (s.handle b)) : s.apart a b ↔ disjoint (s.handle a) (s.handle b) = true := by
  have hla := ha.limiter
  have hlb := hb.limiter
  have hea := ha.lengthElements_eq_zero_iff hw
  have heb := hb.lengthElements_eq_zero_iff hw
  simp only [State.apart, disjoint, decide_eq_true_eq]
  omega

/-- Settles O20: an array without declared bits has an empty range, so both forms say that the ranges do not meet. -/
theorem disjointMeansNoCommonElement : Obligations.DisjointMeansNoCommonElement := by
  intro s a b hs hbound
  have ha := hs.geometryOf a (hbound a (by simp))
  have hb := hs.geometryOf b (hbound b (by simp))
  have hdisjoint := disjoint_iff_no_common_index (s.handle a) (s.handle b)
  exact ⟨hdisjoint, (State.apart_iff_disjoint hs.params.1 ha hb).trans hdisjoint⟩

end Sys2Proof.Machine

/-! PROOFS. The statements of 10_state.md: what a command's effect leaves (R25 to R29), what a host action does (70 R187),
which elements a command reaches (R22), and from these the invariant (R24, R31, R35). -/

namespace Sys2Proof.Machine

variable {i : Instr} {s t : State}

/-! ### What a command leaves unchanged -/

/-- Everything `exec` can do when it answers a next state, in whatever state it starts. -/
theorem exec_next (h : exec i s = .next t) :
    (∃ c, firstCause (checksOf i s) = some c ∧ t = s.raise c) ∨
      (firstCause (checksOf i s) = none ∧ t = (effectOf i s).complete) := by
  rw [exec_eq_runCommand] at h
  exact (runCommand_next h).imp_right fun ⟨hc, _, ht⟩ => ⟨hc, ht⟩

/-- Every check of a command whose effect is applied holds. -/
theorem check_holds (hc : firstCause (checksOf i s) = none) {x : Bool × Cause} (hx : x ∈ checksOf i s) :
    x.1 = true := firstCause_eq_none.1 hc x hx

@[simp] theorem effectOf_par : (effectOf i s).par = s.par := by cases i <;> rfl
@[simp] theorem effectOf_pos : (effectOf i s).pos = s.pos := by cases i <;> rfl
@[simp] theorem effectOf_len : (effectOf i s).len = s.len := by cases i <;> rfl
@[simp] theorem effectOf_base : (effectOf i s).base = s.base := by cases i <;> rfl
@[simp] theorem effectOf_status : (effectOf i s).status = s.status := by cases i <;> rfl

/-- Only ADD writes `CARRY` (R26). -/
theorem effectOf_carry : (effectOf i s).carry = s.carry ∨ ∃ hd hs1 hs2 cin, i = .add hd hs1 hs2 cin := by
  cases i with
  | add hd hs1 hs2 cin => exact .inr ⟨hd, hs1, hs2, cin, rfl⟩
  | _ => exact .inl rfl

/-- Only RDBIT writes `RBIT` (R27). -/
theorem effectOf_rbit : (effectOf i s).rbit = s.rbit ∨ ∃ hd, i = .rdbit hd := by
  cases i with
  | rdbit hd => exact .inr ⟨hd, rfl⟩
  | _ => exact .inl rfl

/-- Only LASTVAL writes `RVAL` (R28). -/
theorem effectOf_rval : (effectOf i s).rval = s.rval ∨ ∃ hd, i = .lastval hd := by
  cases i with
  | lastval hd => exact .inr ⟨hd, rfl⟩
  | _ => exact .inl rfl

/-! ### The result registers have no reader (R26 to R28) -/

/-- Write `CARRY`, `RBIT` and `RVAL`. -/
def State.setResults (s : State) (c b : Bool) (v : Elem) : State := { s with carry := c, rbit := b, rval := v }

theorem checksOf_setResults (c b : Bool) (v : Elem) : checksOf i (s.setResults c b v) = checksOf i s := by
  cases i <;> rfl

/-- Started with other result registers an effect does the same, and each register ends as it was given or as the effect
writes it. -/
theorem effectOf_setResults (i : Instr) (s : State) (c b : Bool) (v : Elem) : ∃ c' b' v',
    effectOf i (s.setResults c b v) = (effectOf i s).setResults c' b' v' ∧
      (c' = c ∨ c' = (effectOf i s).carry) ∧ (b' = b ∨ b' = (effectOf i s).rbit) ∧
      (v' = v ∨ v' = (effectOf i s).rval) := by
  cases i with
  | add hd hs1 hs2 cin => exact ⟨(effectOf (.add hd hs1 hs2 cin) s).carry, b, v, rfl, .inr rfl, .inl rfl, .inl rfl⟩
  | rdbit hd => exact ⟨c, (effectOf (.rdbit hd) s).rbit, v, rfl, .inl rfl, .inr rfl, .inl rfl⟩
  | lastval hd => exact ⟨c, b, (effectOf (.lastval hd) s).rval, rfl, .inl rfl, .inl rfl, .inr rfl⟩
  | _ => exact ⟨c, b, v, rfl, .inl rfl, .inl rfl, .inl rfl⟩

/-- The same of a whole command: neither its checks nor its operands' geometry read a result register. -/
theorem exec_setResults (h : exec i s = .next t) (c b : Bool) (v : Elem) : ∃ c' b' v',
    exec i (s.setResults c b v) = .next (t.setResults c' b' v') ∧
      (c' = c ∨ c' = t.carry) ∧ (b' = b ∨ b' = t.rbit) ∧ (v' = v ∨ v' = t.rval) := by
  rw [exec_eq_runCommand] at h
  rw [exec_eq_runCommand]
  obtain ⟨cause, hc, rfl⟩ | ⟨hc, hconsistent, rfl⟩ := runCommand_next h
  · exact ⟨c, b, v, runCommand_raises (by rw [checksOf_setResults, hc]), .inl rfl, .inl rfl, .inl rfl⟩
  · obtain ⟨c', b', v', heffect, hcarry, hrbit, hrval⟩ := effectOf_setResults i s c b v
    have hcompletes := runCommand_completes (s := s.setResults c b v) (effect := effectOf i)
      ((congrArg _ (checksOf_setResults c b v)).trans hc) (List.all_eq_true.1 hconsistent)
    exact ⟨c', b', v', by rw [hcompletes, heffect]; rfl, hcarry, hrbit, hrval⟩

/-- Settles O18: by the writers of each register and `exec_setResults`; a raising command writes `STATUS` only. -/
theorem resultRegistersHaveOneWriterAndNoReader : Obligations.ResultRegistersHaveOneWriterAndNoReader := by
  intro i s t h
  have hnoReader := exec_setResults h
  obtain ⟨c, -, rfl⟩ | ⟨-, rfl⟩ := exec_next h
  · exact ⟨.inl rfl, .inl rfl, .inl rfl, rfl, rfl, rfl, hnoReader⟩
  · have herr : statusErr (effectOf i s).complete.status = false := by simp
    exact ⟨effectOf_carry.imp_right fun hadd => ⟨herr, hadd⟩, effectOf_rbit.imp_right fun hrdbit => ⟨herr, hrdbit⟩,
      effectOf_rval.imp_right fun hlastval => ⟨herr, hlastval⟩, effectOf_pos, effectOf_len, effectOf_base, hnoReader⟩

/-! ### The handle file under a command (R25) -/

/-- A command leaves every handle but one that it initialises or resizes. -/
theorem effectOf_handle_other {k : HSel} (hinit : i ≠ .init k) (hsetlen : i ≠ .setlen k) :
    (effectOf i s).handle k = s.handle k := by
  cases i with
  | init hd => exact s.setHandle_handle_other hd k _ fun e => hinit (e ▸ rfl)
  | setlen hd => exact s.setHandle_handle_other hd k _ fun e => hsetlen (e ▸ rfl)
  | _ => rfl

/-- SETLEN keeps `bound` and `first`; of a selector that names no register it writes nothing. -/
theorem effectOf_setlen_keeps (k : HSel) : ((effectOf (.setlen k) s).handle k).bound = (s.handle k).bound ∧
    ((effectOf (.setlen k) s).handle k).first = (s.handle k).first := by
  by_cases hlt : k.toNat < s.handles.length
  · rw [effectOf, s.setHandle_handle_same k _ hlt]
    exact ⟨rfl, rfl⟩
  · have hle := Nat.le_of_not_lt hlt
    rw [s.handle_unbound_of_le k hle, State.handle_unbound_of_le _ k (by simpa [effectOf] using hle)]
    exact ⟨rfl, rfl⟩

/-- Writing one register with the geometry of a buffer that fits in `EM`: every register holds what some register held or
a bound handle that satisfies R24. -/
theorem setHandle_geom_handles (hw : 1 ≤ s.par.w) {first : Nat} (hfits : (storageFits s first).1 = true) (k : HSel) :
    (s.setHandle k (geom s.par.w first s.len)).handles.length = s.handles.length ∧
      ∀ h ∈ (s.setHandle k (geom s.par.w first s.len)).handles,
        h ∈ s.handles ∨ (h.bound = true ∧ GeometryHolds s.par h) := by
  have hgeom := geom_geometryHolds s.par hw first s.len ((storageFits_iff s first).1 hfits)
  refine ⟨List.length_set, fun h hmem => ?_⟩
  obtain hold | rfl := List.mem_or_eq_of_mem_set hmem
  · exact .inl hold
  · exact .inr ⟨rfl, hgeom⟩

/-- When its checks hold a command keeps the number of handle registers, and every register holds what some register held
or a bound handle that satisfies R24. -/
theorem effectOf_handles (hw : 1 ≤ s.par.w) (hc : firstCause (checksOf i s) = none) :
    (effectOf i s).handles.length = s.handles.length ∧
      ∀ h ∈ (effectOf i s).handles, h ∈ s.handles ∨ (h.bound = true ∧ GeometryHolds s.par h) := by
  cases i with
  | init hd => exact setHandle_geom_handles hw (check_holds hc (by simp [checksOf])) hd
  | setlen hd =>
    have hbound : (s.handle hd).bound = true :=
      (handlesBound_iff s [hd]).1 (check_holds hc (by simp [checksOf])) hd (by simp)
    rw [effectOf, hbound]
    exact setHandle_geom_handles hw (first := (s.handle hd).first) (check_holds hc (by simp [checksOf])) hd
  | _ => exact ⟨rfl, fun _ => .inl⟩

/-- The same of a command that completes or raises. -/
theorem exec_handles (hw : 1 ≤ s.par.w) (h : exec i s = .next t) :
    t.handles.length = s.handles.length ∧
      ∀ x ∈ t.handles, x ∈ s.handles ∨ (x.bound = true ∧ GeometryHolds s.par x) := by
  obtain ⟨c, -, rfl⟩ | ⟨hc, rfl⟩ := exec_next h
  · exact ⟨rfl, fun _ => .inl⟩
  · exact effectOf_handles hw hc

theorem exec_par (h : exec i s = .next t) : t.par = s.par := by
  obtain ⟨c, -, rfl⟩ | ⟨-, rfl⟩ := exec_next h
  · rfl
  · exact effectOf_par

/-! ### What a step does (70 R187, R188, R180) -/

/-- What a host action that the block carries out can lead to. -/
inductive ActsTo (s : State) : HostAction → State → Prop
  | writeEm {k v : Nat} (hk : k < s.par.m) (hv : v < 2 ^ s.par.w) :
      ActsTo s (.writeEm k v) (s.setEm (emWrite s.par.w s.em k v))
  | writePos {v : Nat} (hv : v < 2 ^ s.par.idxw) : ActsTo s (.writePos v) (s.setPos v)
  | writeLen {v : Nat} (hv : v < 2 ^ s.par.idxw) : ActsTo s (.writeLen v) (s.setLen v)
  | writeBase {v : Nat} (hv : v < 2 ^ s.par.idxw) : ActsTo s (.writeBase v) (s.setBase v)
  | read {port : HostPort} : ActsTo s (.read port) s
  | illegalWord {cw : CommandWord} : ActsTo s (.issue cw) (s.raise .illegalCommand)
  | command {cw : CommandWord} {i : Instr} {t : State} (hdecode : decode cw = .ok i) (hexec : exec i s = .next t) :
      ActsTo s (.issue cw) t
  | reset : ActsTo s .reset s.applyReset

/-- A host write that is carried out: its value fits the place. -/
theorem hostWrite_next {n v : Nat} {u : State} (h : hostWrite n v u = .next t) : v < 2 ^ n ∧ t = u := by
  unfold hostWrite at h
  split at h
  · next hv => exact ⟨hv, (Host.Outcome.next.inj h).symm⟩
  · exact nomatch h

/-- The tie to the model: everything `hostAct` can do when it answers a next state. -/
theorem hostAct_next {a : HostAction} (h : hostAct a s = .next t) : ActsTo s a t := by
  cases a with
  | writeEm k v =>
    simp only [hostAct] at h
    split at h
    · next hk =>
      obtain ⟨hv, rfl⟩ := hostWrite_next h
      exact .writeEm hk hv
    · exact nomatch h
  | writePos v => obtain ⟨hv, rfl⟩ := hostWrite_next h; exact .writePos hv
  | writeLen v => obtain ⟨hv, rfl⟩ := hostWrite_next h; exact .writeLen hv
  | writeBase v => obtain ⟨hv, rfl⟩ := hostWrite_next h; exact .writeBase hv
  | read port =>
    simp only [hostAct] at h
    split at h
    · cases h; exact .read
    · exact nomatch h
  | issue cw =>
    simp only [hostAct, issueWord] at h
    split at h
    · cases h; exact .illegalWord
    · next i hi => exact .command hi h
  | reset => cases h; exact .reset

/-- What a step with a pending action does. -/
theorem step_next_cons {a : HostAction} {rest : List HostAction} (hhost : s.host = a :: rest)
    (h : step s = .next t) : ActsTo { s with host := rest } a t := by
  unfold step hostStep at h
  rw [hhost] at h
  exact hostAct_next h

/-- Everything a step can do when it answers a next state: nothing, or the oldest pending host action. -/
theorem step_next (h : step s = .next t) :
    (s.host = [] ∧ t = s) ∨ ∃ a rest, s.host = a :: rest ∧ ActsTo { s with host := rest } a t := by
  cases hhost : s.host with
  | nil =>
    unfold step hostStep at h
    rw [hhost] at h
    exact .inl ⟨rfl, (Host.Outcome.next.inj h).symm⟩
  | cons a rest => exact .inr ⟨a, rest, rfl, step_next_cons hhost h⟩

/-- A host action that is neither a command word nor reset writes no handle (R25). -/
theorem ActsTo.handles_eq {a : HostAction} (h : ActsTo s a t) (hreset : a ≠ .reset) (hissue : ∀ cw, a ≠ .issue cw) :
    t.handles = s.handles := by
  cases h with
  | reset => exact absurd rfl hreset
  | illegalWord => exact absurd rfl (hissue _)
  | command => exact absurd rfl (hissue _)
  | _ => rfl

/-- Settles O17: by the writers of the handle file, and the host's read port of it. -/
theorem handlesAreWrittenOnlyByInitAndSetlen : Obligations.HandlesAreWrittenOnlyByInitAndSetlen := by
  refine ⟨fun i s t h => ?_, fun s t a rest hhost hreset hissue h => ?_, fun s h f hs hlt => ?_⟩
  · obtain ⟨c, -, rfl⟩ | ⟨-, rfl⟩ := exec_next h
    · exact ⟨fun _ _ => rfl, fun _ _ => ⟨rfl, rfl⟩⟩
    · exact ⟨fun k hk => effectOf_handle_other hk.1 hk.2, fun k hk => hk ▸ effectOf_setlen_keeps k⟩
  · exact (step_next_cons hhost h).handles_eq hreset hissue
  · have hlen : h.toNat < s.handles.length := hs.fileSize ▸ hlt
    simp [hostRead, State.handle, List.getD, hlen]

/-! ### Reset (R35) -/

/-- Every handle register after reset is unbound. -/
theorem eq_unbound_of_mem_resetWith {p : Params} {m : Memory} {h : Handle} (hmem : h ∈ (State.resetWith p m).handles) :
    h = Handle.unbound := List.eq_of_mem_replicate hmem

/-- Settles O21: R35's table, field by field. -/
theorem resetLeavesTheRegistersAtZero : Obligations.ResetLeavesTheRegistersAtZero := by
  intro p m
  refine ⟨List.length_replicate, fun h hmem => ?_, fun _ => rfl, rfl, rfl, rfl, rfl, rfl, rfl, rfl⟩
  rw [eq_unbound_of_mem_resetWith hmem]
  exact ⟨rfl, rfl, rfl, rfl, rfl, rfl, rfl, rfl⟩

/-- No handle register is bound after reset. -/
theorem resetWith_geometry (p : Params) (m : Memory) :
    ∀ h ∈ (State.resetWith p m).handles, h.bound = true → GeometryHolds p h := by
  intro h hmem hb
  rw [eq_unbound_of_mem_resetWith hmem] at hb
  exact nomatch hb

/-- Reset establishes the invariant, whatever the parameters and the contents of `EM`. -/
theorem resetWith_inv {p : Params} {m : Memory} (hp : p.wf) (hm : Memory.wf p m) : (State.resetWith p m).Inv where
  params := hp
  memory := hm
  fileSize := List.length_replicate
  geometry := resetWith_geometry p m
  unbound := fun _ hmem _ => eq_unbound_of_mem_resetWith hmem
  rval := Nat.two_pow_pos _
  pos := Nat.two_pow_pos _
  len := Nat.two_pow_pos _
  base := Nat.two_pow_pos _
  status := statusLegal_zero

/-- Settles O14: `State.reset` is one of the states `resetWith_inv` speaks of. -/
theorem resetMeetsTheInvariant : Obligations.ResetMeetsTheInvariant :=
  ⟨fun _ _ => resetWith_inv, resetWith_inv (by decide) (Memory.wf_nil _)⟩

/-! ### The geometry of bound handles at all times (R24, R9) -/

/-- A command keeps R24 for every bound handle. -/
theorem exec_geometry (hw : 1 ≤ s.par.w) (hg : ∀ h ∈ s.handles, h.bound = true → GeometryHolds s.par h)
    (h : exec i s = .next t) : ∀ x ∈ t.handles, x.bound = true → GeometryHolds t.par x := by
  intro x hmem hb
  rw [exec_par h]
  obtain hold | ⟨-, hnew⟩ := (exec_handles hw h).2 x hmem
  · exact hg x hold hb
  · exact hnew

/-- Settles O12: only INIT, SETLEN and reset write a handle; the first two write `geom` where it fits in `EM`. -/
theorem boundHandlesKeepDerivedGeometry : Obligations.BoundHandlesKeepDerivedGeometry := by
  refine ⟨fun s t hp hg h => ?_, resetWith_geometry⟩
  obtain ⟨-, rfl⟩ | ⟨a, rest, -, hact⟩ := step_next h
  · exact hg
  · cases hact with
    | command _ hexec => exact exec_geometry (s := { s with host := rest }) hp.1 hg hexec
    | reset => exact resetWith_geometry s.par s.em
    | _ => exact hg

/-- Bit `b` of an array of that many elements lies in element `b div W` of it (R16, R24). -/
theorem GeometryHolds.div_lt_lengthElements {p : Params} {h : Handle} (hg : GeometryHolds p h) (hw : 1 ≤ p.w) {b : Nat}
    (hb : b < h.lengthBits) : b / p.w < h.lengthElements := by
  rw [hg.lengthElements, ← Nat.succ_le_iff, Nat.succ_eq_add_one, ← Nat.add_div_right b hw]
  exact Nat.div_le_div_right (by omega)

/-- The declared bits fit in the elements of the array (R24). -/
theorem GeometryHolds.lengthBits_le {p : Params} {h : Handle} (hg : GeometryHolds p h) (hw : 1 ≤ p.w) :
    h.lengthBits ≤ h.lengthElements * p.w := by
  rw [hg.lengthElements]
  have := Nat.div_add_mod (h.lengthBits + p.w - 1) p.w
  have := Nat.mod_lt (h.lengthBits + p.w - 1) hw
  rw [Nat.mul_comm]
  omega

/-- The overhang mask is an element (R24, R12). -/
theorem GeometryHolds.overhangMask_lt {p : Params} {h : Handle} (hg : GeometryHolds p h) (hw : 1 ≤ p.w) :
    h.overhangMask < 2 ^ p.w := by
  rw [hg.overhangMask]
  split
  · exact ones_lt p.w
  · have hbme : h.bme ≤ p.w := hg.bme ▸ (Nat.mod_lt _ hw).le
    exact (lowMask_lt h.bme).trans_le (Nat.pow_le_pow_right (by decide) hbme)

/-- Settles O19: every count and index is at most `M * W`, which R9 keeps below `2^IDXW`. -/
theorem handleFieldsFitTheirWidths : Obligations.HandleFieldsFitTheirWidths := by
  intro s k hs hb
  have hg := hs.geometryOf k hb
  obtain ⟨hw, -, -, -, hidx⟩ := hs.params
  have hlimiter := hg.limiter
  have hm := hg.inMemory
  have hmw : s.par.m ≤ s.par.m * s.par.w := Nat.le_mul_of_pos_right _ hw
  have hbits : (s.handle k).lengthBits ≤ s.par.m * s.par.w :=
    (hg.lengthBits_le hw).trans (Nat.mul_le_mul_right _ (by omega))
  have hlast : (s.handle k).last ≤ (s.handle k).limiter := by
    have := hg.last
    split at this <;> omega
  have hbme : (s.handle k).bme < s.par.w := hg.bme ▸ Nat.mod_lt _ hw
  exact ⟨by omega, by omega, by omega, by omega, by omega, hbme, hg.overhangMask_lt hw⟩

end Sys2Proof.Machine

/-! PROOFS. Which elements a command reaches (R22). A datapath stays in a set of elements when it writes only there and
what it leaves there depends only on what was there; every datapath stays in the ranges of the handles it is given. -/

namespace Sys2Proof.Machine

variable {p : Params} {R : Set Nat} {α : Type}

/-! ### Reading and writing only in a set of elements -/

/-- The value depends only on the elements in `R`. -/
def ReadsOnly (R : Set Nat) (v : Memory → α) : Prop :=
  ∀ ⦃m m' : Memory⦄, Set.EqOn (emRead m) (emRead m') R → v m = v m'

/-- The memory function writes only elements in `R`, computes them from elements in `R` alone, and keeps the canonical
form where `R` lies in `EM`. -/
structure StaysIn (p : Params) (R : Set Nat) (f : Memory → Memory) : Prop where
  /-- An element outside `R` reads as before. -/
  frame : ∀ m, ∀ k ∉ R, emRead (f m) k = emRead m k
  /-- Elements outside `R` do not matter. -/
  agree : ∀ ⦃m m' : Memory⦄, Set.EqOn (emRead m) (emRead m') R → Set.EqOn (emRead (f m)) (emRead (f m')) R
  /-- The canonical form is kept (R21). -/
  wf : (∀ k ∈ R, k < p.m) → ∀ m, Memory.wf p m → Memory.wf p (f m)

theorem ReadsOnly.const (x : α) : ReadsOnly R (fun _ => x) := fun _ _ _ => rfl

theorem ReadsOnly.emRead {k : Nat} (hk : k ∈ R) : ReadsOnly R (fun m => emRead m k) := fun _ _ h => h hk

theorem ReadsOnly.map {β : Type} {u : Memory → α} (hu : ReadsOnly R u) (g : α → β) : ReadsOnly R (fun m => g (u m)) :=
  fun _ _ h => congrArg g (hu h)

theorem ReadsOnly.map₂ {β γ : Type} {u : Memory → α} {v : Memory → β} (hu : ReadsOnly R u) (hv : ReadsOnly R v)
    (g : α → β → γ) : ReadsOnly R (fun m => g (u m) (v m)) :=
  fun _ _ h => congrArg₂ g (hu h) (hv h)

theorem ReadsOnly.comp {v : Memory → α} {f : Memory → Memory} (hv : ReadsOnly R v) (hf : StaysIn p R f) :
    ReadsOnly R (fun m => v (f m)) := fun _ _ h => hv (hf.agree h)

theorem StaysIn.id : StaysIn p R (fun m => m) := ⟨fun _ _ _ => rfl, fun _ _ h => h, fun _ _ h => h⟩

theorem StaysIn.comp {f g : Memory → Memory} (hg : StaysIn p R g) (hf : StaysIn p R f) :
    StaysIn p R (fun m => g (f m)) where
  frame m k hk := (hg.frame _ k hk).trans (hf.frame m k hk)
  agree _ _ h := hg.agree (hf.agree h)
  wf hR m hm := hg.wf hR _ (hf.wf hR m hm)

/-- After a function that stays in `R`, writing one element of `R` with a value read from `R` stays in `R`. -/
theorem StaysIn.write {f : Memory → Memory} {v : Memory → Elem} {k : Nat} (hf : StaysIn p R f) (hk : k ∈ R)
    (hv : ReadsOnly R v) : StaysIn p R (fun m => emWrite p.w (f m) k (v m)) where
  frame m j hj := by
    rw [emRead_emWrite_ne _ _ _ _ _ (ne_of_mem_of_not_mem hk hj).symm, hf.frame m j hj]
  agree m m' h j hj := by
    simp only [emRead_emWrite, hv h, hf.agree h hj]
  wf hR m hm := (hf.wf hR m hm).write _ _ (hR k hk)

/-- The same when the element is read, changed and written back (R53). -/
theorem StaysIn.modify {f : Memory → Memory} {v : Memory → α} {k : Nat} (hf : StaysIn p R f) (hk : k ∈ R)
    (hv : ReadsOnly R v) (change : Elem → α → Elem) :
    StaysIn p R (fun m => emWrite p.w (f m) k (change (emRead (f m) k) (v m))) :=
  hf.write hk (((ReadsOnly.emRead hk).comp hf).map₂ hv change)

theorem StaysIn.forUp {n : Nat} {f : Nat → Memory → Memory} (hf : ∀ k < n, StaysIn p R (f k)) :
    StaysIn p R (forUp n f) := by
  induction n with
  | zero => exact .id
  | succ n ih => exact (hf n (by omega)).comp (ih fun k hk => hf k (by omega))

theorem StaysIn.forDown {n : Nat} {f : Nat → Memory → Memory} (hf : ∀ k < n, StaysIn p R (f k)) :
    StaysIn p R (forDown n f) := by
  induction n with
  | zero => exact .id
  | succ n ih => exact (ih fun k hk => hf k (by omega)).comp (hf n (by omega))

theorem StaysIn.fillUp {base n : Nat} {value : Nat → Memory → Elem} (hbase : ∀ k < n, base + k ∈ R)
    (hv : ∀ k < n, ReadsOnly R (value k)) : StaysIn p R (fillUp p.w base n value) :=
  .forUp fun k hk => StaysIn.id.write (hbase k hk) (hv k hk)

theorem StaysIn.fillDown {base n : Nat} {value : Nat → Memory → Elem} (hbase : ∀ k < n, base + k ∈ R)
    (hv : ∀ k < n, ReadsOnly R (value k)) : StaysIn p R (fillDown p.w base n value) :=
  .forDown fun k hk => StaysIn.id.write (hbase k hk) (hv k hk)

/-! ### Arrays -/

/-- The elements of the array lie in `R`. -/
def Handle.within (h : Handle) (R : Set Nat) : Prop := ∀ k < h.lengthElements, h.first + k ∈ R

variable {h : Handle}

/-- The last element of a nonempty array is one of its elements (R24). -/
theorem GeometryHolds.last_eq (hg : GeometryHolds p h) (hw : 1 ≤ p.w) (hb : 0 < h.lengthBits) :
    0 < h.lengthElements ∧ h.last = h.first + (h.lengthElements - 1) := by
  have hpos := (hg.lengthElements_eq_zero_iff hw).not.2 hb.ne'
  have hlast := hg.last
  have hlimiter := hg.limiter
  rw [if_neg hb.ne'] at hlast
  omega

/-- The masked last element of a nonempty array is read from the array (R67). -/
theorem readsOnly_lastValue (hg : GeometryHolds p h) (hw : 1 ≤ p.w) (hb : 0 < h.lengthBits) (hR : h.within R) :
    ReadsOnly R (fun m => lastValue m h) := by
  obtain ⟨hpos, hlast⟩ := hg.last_eq hw hb
  exact (ReadsOnly.emRead (hlast ▸ hR _ (by omega))).map (· &&& h.overhangMask)

/-- Drawing the overhang bits reaches the last element alone (R66). -/
theorem staysIn_drawOverhang (hg : GeometryHolds p h) (hw : 1 ≤ p.w) (hR : h.within R) (d : Nat) :
    StaysIn p R (drawOverhang p.w h d) := by
  unfold drawOverhang
  split
  · exact .id
  · next hbme =>
    have hb : 0 < h.lengthBits := Nat.pos_of_ne_zero fun e => hbme (by rw [hg.bme, e, Nat.zero_mod])
    obtain ⟨hpos, hlast⟩ := hg.last_eq hw hb
    exact StaysIn.id.write (hlast ▸ hR _ (by omega)) ((readsOnly_lastValue hg hw hb hR).map (· ||| _))

/-- Bit `b` of the array lies in one of its elements. -/
theorem Handle.within.bit_mem (hR : h.within R) (hg : GeometryHolds p h) (hw : 1 ≤ p.w) {b : Nat}
    (hb : b < h.lengthBits) : h.first + b / p.w ∈ R := hR _ (hg.div_lt_lengthElements hw hb)

/-- Every element of the array holds a declared bit (R24). -/
theorem GeometryHolds.mul_lt_lengthBits (hg : GeometryHolds p h) (hw : 1 ≤ p.w) {j : Nat}
    (hj : j < h.lengthElements) : j * p.w < h.lengthBits := by
  rw [hg.lengthElements, ← Nat.succ_le_iff, Nat.le_div_iff_mul_le hw, Nat.succ_mul] at hj
  omega

/-! ### The section datapath (R109) -/

theorem staysIn_applyMask {first k : Nat} (hk : first + k ∈ R) (change : Elem → Elem → Elem) (mask : Elem) :
    StaysIn p R (applyMask p.w first change k mask) :=
  StaysIn.id.modify hk (.const mask) change

/-- The run of `len` bits at bit `pos` reaches only elements that hold a bit of the run. -/
theorem staysIn_sectionRun (hw : 1 ≤ p.w) {first pos len : Nat} (change : Elem → Elem → Elem)
    (hR : ∀ b, pos ≤ b → b < pos + len → first + b / p.w ∈ R) :
    StaysIn p R (sectionRun p.w first pos len change) := by
  unfold sectionRun
  split
  · exact .id
  next hlen =>
  have hfirst : first + pos / p.w ∈ R := hR pos (by omega) (by omega)
  simp only
  split
  · exact staysIn_applyMask hfirst change _
  have hinterior : ∀ j < (pos + len) / p.w - (pos / p.w + 1), first + (pos / p.w + 1 + j) ∈ R := by
    intro j hj
    have hle : (pos / p.w + 1 + j + 1) * p.w ≤ pos + len :=
      (Nat.mul_le_mul_right _ (by omega)).trans (Nat.div_mul_le_self _ _)
    have hge : pos < (pos / p.w + 1 + j) * p.w := (Nat.div_lt_iff_lt_mul hw).1 (by omega)
    rw [Nat.add_mul _ 1, Nat.one_mul] at hle
    have := hR ((pos / p.w + 1 + j) * p.w) hge.le (by omega)
    rwa [Nat.mul_div_cancel _ hw] at this
  have hwhole := (StaysIn.forUp fun j hj => staysIn_applyMask (hinterior j hj) change (ones p.w)).comp
    (staysIn_applyMask (p := p) hfirst change (ones p.w - lowMask (pos % p.w)))
  split
  · exact hwhole
  next hr1 =>
  have hlast : first + (pos + len) / p.w ∈ R := by
    have hdiv := Nat.div_add_mod (pos + len) p.w
    have hmod := Nat.mod_lt (pos + len) hw
    have heq : (pos + len - 1) / p.w = (pos + len) / p.w :=
      Nat.div_eq_of_lt_le (by rw [Nat.mul_comm]; omega) (by rw [Nat.add_mul, Nat.mul_comm]; omega)
    exact heq ▸ hR (pos + len - 1) (by omega) (by omega)
  exact (staysIn_applyMask hlast change _).comp hwhole

/-! ### The shifter (R153) -/

variable {inp : Handle}

theorem readsOnly_lshElem (w e b k : Nat) (hk : k < inp.lengthElements) (hR : inp.within R) :
    ReadsOnly R (lshElem w inp e b k) := by
  have hread : ∀ j < inp.lengthElements, ReadsOnly R (fun m => emRead m (inp.first + j)) :=
    fun j hj => .emRead (hR j hj)
  unfold lshElem
  split
  · exact .const 0
  split
  · exact hread _ (by omega)
  refine ((hread _ (by omega)).map (shl w · b)).map₂ ?_ (· ||| ·)
  split
  · exact .const 0
  · exact (hread _ (by omega)).map (shr · (w - b))

theorem readsOnly_rshIn (k : Nat) (hR : inp.within R) : ReadsOnly R (rshIn inp k) := by
  unfold rshIn
  split
  · exact .emRead (hR k (by omega))
  split
  · exact (ReadsOnly.emRead (hR k (by omega))).map (· &&& inp.overhangMask)
  · exact .const 0

theorem readsOnly_rshElem (w e b k : Nat) (hR : inp.within R) : ReadsOnly R (rshElem w inp e b k) := by
  unfold rshElem
  split
  · exact .const 0
  split
  · exact readsOnly_rshIn _ hR
  · exact ((readsOnly_rshIn _ hR).map (shr · b)).map₂ ((readsOnly_rshIn _ hR).map (shl w · (w - b))) (· ||| ·)

/-! ### The section mover (R122, R124) -/

theorem readsOnly_rdsecElem (w e r missing j : Nat) (hg : GeometryHolds p inp) (hj : e + j < inp.lengthElements)
    (hR : inp.within R) : ReadsOnly R (rdsecElem w inp e r missing j) := by
  have hcur : ReadsOnly R (fun m => emRead m (inp.first + e + j)) := .emRead (by
    rw [Nat.add_assoc]; exact hR _ hj)
  unfold rdsecElem
  simp only
  split
  · exact hcur
  split
  · next hnext =>
    have hmem : inp.first + e + j + 1 ∈ R := by
      rw [Nat.add_assoc inp.first, Nat.add_assoc inp.first]
      exact hR (e + j + 1) (by have := hg.limiter; omega)
    exact (hcur.map (shr · r)).map₂ ((ReadsOnly.emRead hmem).map (shl w · (w - r))) (· ||| ·)
  · exact hcur.map (shr · r ||| missing % 2 ^ r * 2 ^ (w - r))

/-- The declared bits of a nonempty array: all of every element but the last, and of the last `bme` bits, or all when
`bme` is 0 (R24). -/
theorem GeometryHolds.lengthBits_eq (hg : GeometryHolds p h) (hw : 1 ≤ p.w) (hn : 0 < h.lengthElements) :
    h.lengthBits = (h.lengthElements - 1) * p.w + if h.bme = 0 then p.w else h.bme := by
  have hdiv := Nat.div_add_mod h.lengthBits p.w
  have hmod := Nat.mod_lt h.lengthBits hw
  have helements : h.lengthElements = h.lengthBits / p.w + (h.bme + p.w - 1) / p.w := by
    rw [hg.lengthElements, hg.bme, ← Nat.mul_add_div hw]
    congr 1
    omega
  rw [hg.bme] at helements ⊢
  split
  · next hzero =>
    rw [hzero, Nat.div_eq_of_lt (show 0 + p.w - 1 < p.w by omega), Nat.add_zero] at helements
    rw [← Nat.succ_mul, Nat.succ_eq_add_one, Nat.sub_add_cancel hn, helements, Nat.mul_comm]
    omega
  · next hbme =>
    have hone : (h.lengthBits % p.w + p.w - 1) / p.w = 1 := Nat.div_eq_of_lt_le (by omega) (by omega)
    rw [hone] at helements
    rw [helements, Nat.add_sub_cancel, Nat.mul_comm, hdiv]

/-- The meaningful bits of input element `j`: at least one, at most `W`, and all of them declared (R124). -/
theorem wrsecCount_bounds (hg : GeometryHolds p inp) (hw : 1 ≤ p.w) {j : Nat} (hj : j < inp.lengthElements) :
    1 ≤ wrsecCount p.w inp j ∧ wrsecCount p.w inp j ≤ p.w ∧ j * p.w + wrsecCount p.w inp j ≤ inp.lengthBits := by
  have hbits := hg.lengthBits_eq hw (by omega)
  have hbme : inp.bme < p.w := hg.bme ▸ Nat.mod_lt _ hw
  unfold wrsecCount
  split
  · next hinner =>
    have : (j + 1) * p.w ≤ (inp.lengthElements - 1) * p.w := Nat.mul_le_mul_right _ (by omega)
    rw [Nat.succ_mul] at this
    omega
  · next hlast =>
    rw [show inp.lengthElements - 1 = j by omega] at hbits
    refine ⟨?_, ?_, hbits.ge⟩ <;> split <;> omega

/-- Step `j` of WRSEC reads input element `j` and writes the elements of the destination that get its bits. -/
theorem staysIn_wrsecStep {dst : Handle} {pos j : Nat} (hginp : GeometryHolds p inp) (hgdst : GeometryHolds p dst)
    (hw : 1 ≤ p.w) (hj : j < inp.lengthElements) (hfits : pos + inp.lengthBits ≤ dst.lengthBits)
    (hinp : inp.within R) (hdst : dst.within R) :
    StaysIn p R (wrsecStep p.w inp dst (pos / p.w) (pos % p.w) j) := by
  obtain ⟨hcount, hcountw, hdeclared⟩ := wrsecCount_bounds hginp hw hj
  have hlow : dst.first + pos / p.w + j ∈ R := by
    have hmem := hdst.bit_mem hgdst hw (b := pos + j * p.w) (by omega)
    rwa [Nat.add_mul_div_right _ _ hw, ← Nat.add_assoc] at hmem
  have hx : ReadsOnly R (fun m => emRead m (inp.first + j) % 2 ^ wrsecCount p.w inp j) :=
    (ReadsOnly.emRead (hinp j hj)).map (· % 2 ^ wrsecCount p.w inp j)
  have hfirst := (StaysIn.id (p := p)).modify hlow
    (hx.map (· % 2 ^ min (wrsecCount p.w inp j) (p.w - pos % p.w) * 2 ^ (pos % p.w)))
    (fun old new => old &&& compl p.w (lowMask (min (wrsecCount p.w inp j) (p.w - pos % p.w)) * 2 ^ (pos % p.w)) ||| new)
  unfold wrsecStep
  simp only
  split
  · next hspill =>
    have hhigh : dst.first + pos / p.w + j + 1 ∈ R := by
      have hdiv := Nat.div_add_mod pos p.w
      have hle : pos / p.w + j + 1 ≤ (pos + j * p.w + (wrsecCount p.w inp j - 1)) / p.w := by
        rw [Nat.le_div_iff_mul_le hw, Nat.add_mul, Nat.add_mul, Nat.mul_comm (pos / p.w)]
        omega
      have hlt := hgdst.div_lt_lengthElements hw (b := pos + j * p.w + (wrsecCount p.w inp j - 1)) (by omega)
      rw [Nat.add_assoc dst.first, Nat.add_assoc dst.first]
      exact hdst _ (by omega)
    exact hfirst.modify hhigh (hx.map (· / 2 ^ (p.w - pos % p.w)))
      (fun old new => old &&& compl p.w (lowMask (wrsecCount p.w inp j - (p.w - pos % p.w))) ||| new)
  · exact hfirst

/-! ### The adder (R142) -/

/-- The carry chain over the first `n` elements: the memory and the carry together. -/
theorem staysIn_addSteps {a b o n : Nat} (ha : ∀ k < n, a + k ∈ R) (hb : ∀ k < n, b + k ∈ R) (ho : ∀ k < n, o + k ∈ R)
    (c : Bool) : StaysIn p R (fun m => (forUp n (addStep p.w a b o) (m, c)).1) ∧
      ReadsOnly R (fun m => (forUp n (addStep p.w a b o) (m, c)).2) := by
  induction n with
  | zero => exact ⟨.id, .const c⟩
  | succ n ih =>
    obtain ⟨hmem, hcarry⟩ := ih (fun k hk => ha k (by omega)) (fun k hk => hb k (by omega)) (fun k hk => ho k (by omega))
    have hx := (ReadsOnly.emRead (ha n (by omega))).comp hmem
    have hy := (ReadsOnly.emRead (hb n (by omega))).comp hmem
    have hsum := (hx.map₂ hy (fullAdd p.w)).map₂ hcarry (· ·)
    exact ⟨hmem.write (ho n (by omega)) (hsum.map Prod.fst), hsum.map Prod.snd⟩

theorem staysIn_addChain {in1 in2 out : Handle} (hpos : 0 < in1.lengthElements)
    (h2 : in2.lengthElements = in1.lengthElements) (hout : out.lengthElements = in1.lengthElements)
    (hR1 : in1.within R) (hR2 : in2.within R) (hRout : out.within R) (c : Bool) :
    StaysIn p R (fun m => (addChain p.w in1 in2 out c m).1) ∧
      ReadsOnly R (fun m => (addChain p.w in1 in2 out c m).2) := by
  obtain ⟨hmem, hcarry⟩ := staysIn_addSteps (p := p) (n := in1.lengthElements - 1)
    (fun k hk => hR1 k (by omega)) (fun k hk => hR2 k (by omega)) (fun k hk => hRout k (by omega)) c
  have hx := ((ReadsOnly.emRead (hR1 (in1.lengthElements - 1) (by omega))).comp hmem).map (· &&& in1.overhangMask)
  have hy := ((ReadsOnly.emRead (hR2 (in1.lengthElements - 1) (by omega))).comp hmem).map (· &&& in1.overhangMask)
  have hsum := (hx.map₂ hy (fullAdd p.w)).map₂ hcarry (· ·)
  exact ⟨hmem.write (hRout _ (by omega)) (hsum.map Prod.fst), hsum.map Prod.snd⟩

end Sys2Proof.Machine

/-! PROOFS. Every command reaches only the elements of the handles it names (R22), and so every step keeps the invariant. -/

namespace Sys2Proof.Machine

variable {i : Instr} {s t : State} {R : Set Nat}

/-! ### The operands of a command whose checks hold -/

/-- The elements in the ranges of the handles a command names (R17, R22). -/
def State.elementsOf (s : State) (i : Instr) : Set Nat := {k | ∃ h ∈ i.selectors, s.inRange h k}

/-- No array reaches past `EM` (R24); the range of an unbound handle is empty. -/
theorem State.Inv.limiter_le (hs : s.Inv) (h : HSel) : (s.handle h).limiter ≤ s.par.m := by
  by_cases hb : (s.handle h).bound = true
  · exact (hs.geometryOf h hb).inMemory
  · have hunbound : s.handle h = Handle.unbound := by
      by_cases hlt : h.toNat < s.handles.length
      · exact hs.unbound _ (s.handle_mem h hlt) (by simpa using hb)
      · exact s.handle_unbound_of_le h (Nat.le_of_not_lt hlt)
    rw [hunbound]
    exact Nat.zero_le _

theorem State.Inv.elementsOf_lt (hs : s.Inv) : ∀ k ∈ s.elementsOf i, k < s.par.m := by
  rintro k ⟨h, -, hk⟩
  exact hk.2.trans_le (hs.limiter_le h)

theorem mem_selectors_of_mem_operandsOf {h : HSel} (hmem : h ∈ operandsOf i) : h ∈ i.selectors := by
  cases i with
  | init hd => exact nomatch hmem
  | setlen hd => exact nomatch hmem
  | _ => exact hmem

/-- When a command's checks hold, its operand handles satisfy R24 and its elements are those of their arrays. -/
theorem operand_geometry (hs : s.Inv) (hc : firstCause (checksOf i s) = none) {h : HSel} (hmem : h ∈ operandsOf i) :
    GeometryHolds s.par (s.handle h) ∧ (s.handle h).within (s.elementsOf i) := by
  have hg := hs.geometryOf h (allBound_operandsOf hc h hmem)
  refine ⟨hg, fun k hk => ⟨h, mem_selectors_of_mem_operandsOf hmem, Nat.le_add_right _ _, ?_⟩⟩
  rw [hg.limiter]
  omega

theorem lengthsAgree_iff (s : State) (hd : HSel) (sources : List HSel) : (lengthsAgree s hd sources).1 = true ↔
    ∀ h ∈ sources, (s.handle h).lengthBits = (s.handle hd).lengthBits := by simp [lengthsAgree]

/-- Arrays of one length take up equally many elements (R24). -/
theorem GeometryHolds.lengthElements_congr {p : Params} {a b : Handle} (ha : GeometryHolds p a) (hb : GeometryHolds p b)
    (h : a.lengthBits = b.lengthBits) : a.lengthElements = b.lengthElements := by
  rw [ha.lengthElements, hb.lengthElements, h]

/-! ### What the effects reach -/

/-- What the effect does to the memory stays in `R`, and what it does to the registers depends on the elements in `R`
alone. -/
structure ReachesOnly (R : Set Nat) (s : State) (effect : State → State) : Prop where
  /-- The element memory after the effect, as a function of the one before. -/
  memory : StaysIn s.par R (fun m => (effect (s.setEm m)).em)
  /-- Everything else after the effect. -/
  rest : ReadsOnly R (fun m => (effect (s.setEm m)).setEm s.em)

/-- The single-bit commands that write reach the element of bit `POS` (R100). -/
theorem staysIn_modifyBit {hd : HSel} (hw : 1 ≤ s.par.w) (hg : GeometryHolds s.par (s.handle hd))
    (hR : (s.handle hd).within R) (hpos : s.pos < (s.handle hd).lengthBits) (change : Elem → Elem → Elem) :
    StaysIn s.par R (fun m => (modifyBit (s.setEm m) hd change).em) :=
  StaysIn.id.modify (hR.bit_mem hg hw hpos) (.const (bitMask s.par.w s.pos)) change

theorem staysIn_fillArray {hd : HSel} (hg : GeometryHolds s.par (s.handle hd)) (hR : (s.handle hd).within R) (v : Elem) :
    StaysIn s.par R (fun m => (fillArray (s.setEm m) hd v).em) := by
  have hn : (s.handle hd).limiter - (s.handle hd).first = (s.handle hd).lengthElements := by
    rw [hg.limiter, Nat.add_sub_cancel_left]
  exact .fillUp (n := (s.handle hd).limiter - (s.handle hd).first) (fun k hk => hR k (hn ▸ hk)) fun _ _ => .const v

/-- A section inside the array reaches only elements of the array (R107 to R109). -/
theorem staysIn_section {hd : HSel} (hw : 1 ≤ s.par.w) (hg : GeometryHolds s.par (s.handle hd))
    (hR : (s.handle hd).within R) (hfits : s.pos + s.len ≤ (s.handle hd).lengthBits) (change : Elem → Elem → Elem) :
    StaysIn s.par R (sectionRun s.par.w (s.handle hd).first s.pos s.len change) :=
  staysIn_sectionRun hw change fun b _ hb => hR.bit_mem hg hw (by omega)

theorem staysIn_bitwise2 {hd hs1 hs2 : HSel} (hR : (s.handle hd).within R) (hR1 : (s.handle hs1).within R)
    (hR2 : (s.handle hs2).within R) (h1 : (s.handle hs1).lengthElements = (s.handle hd).lengthElements)
    (h2 : (s.handle hs2).lengthElements = (s.handle hd).lengthElements) (op : Elem → Elem → Elem) :
    StaysIn s.par R (fun m => (bitwise2 (s.setEm m) op hd hs1 hs2).em) :=
  .fillUp hR fun k hk => (ReadsOnly.emRead (hR1 k (h1 ▸ hk))).map₂ (.emRead (hR2 k (h2 ▸ hk))) op

theorem staysIn_bitwise1 {hd hs1 : HSel} (hR : (s.handle hd).within R) (hR1 : (s.handle hs1).within R)
    (h1 : (s.handle hs1).lengthElements = (s.handle hd).lengthElements) (op : Elem → Elem) :
    StaysIn s.par R (fun m => (bitwise1 (s.setEm m) op hd hs1).em) :=
  .fillUp hR fun k hk => (ReadsOnly.emRead (hR1 k (h1 ▸ hk))).map op

/-- RDSEC reads the elements of the source that hold the run, each followed by the next where there is one (R122). -/
theorem staysIn_rdsecEffect {hd hs1 : HSel} (hw : 1 ≤ s.par.w) (hg : GeometryHolds s.par (s.handle hd))
    (hg1 : GeometryHolds s.par (s.handle hs1)) (hR : (s.handle hd).within R) (hR1 : (s.handle hs1).within R)
    (hfits : s.pos + (s.handle hd).lengthBits ≤ (s.handle hs1).lengthBits) (missing ovh : Nat) :
    StaysIn s.par R (fun m => (rdsecEffect missing ovh hd hs1 (s.setEm m)).em) := by
  have hrun : ∀ j < (s.handle hd).lengthElements, s.pos / s.par.w + j < (s.handle hs1).lengthElements := by
    intro j hj
    have hstart := hg.mul_lt_lengthBits hw hj
    have hlt := hg1.div_lt_lengthElements hw (b := s.pos + j * s.par.w) (by omega)
    rwa [Nat.add_mul_div_right _ _ hw] at hlt
  have hfill := StaysIn.fillUp (p := s.par) hR fun j hj =>
    readsOnly_rdsecElem s.par.w (s.pos / s.par.w) (s.pos % s.par.w) missing j hg1 (hrun j hj) hR1
  exact (staysIn_drawOverhang hg hw hR ovh).comp hfill

theorem staysIn_wrsecEffect {hd hs1 : HSel} (hw : 1 ≤ s.par.w) (hg : GeometryHolds s.par (s.handle hd))
    (hg1 : GeometryHolds s.par (s.handle hs1)) (hR : (s.handle hd).within R) (hR1 : (s.handle hs1).within R)
    (hfits : s.pos + (s.handle hs1).lengthBits ≤ (s.handle hd).lengthBits) :
    StaysIn s.par R (fun m => (wrsecEffect hd hs1 (s.setEm m)).em) :=
  .forUp fun _ hj => staysIn_wrsecStep hg1 hg hw hj hfits hR1 hR

theorem staysIn_lshEffect {hd hs1 : HSel} (hw : 1 ≤ s.par.w) (hg : GeometryHolds s.par (s.handle hd))
    (hR : (s.handle hd).within R) (hR1 : (s.handle hs1).within R)
    (h1 : (s.handle hs1).lengthElements = (s.handle hd).lengthElements) (ovh : Nat) :
    StaysIn s.par R (fun m => (lshEffect ovh hd hs1 (s.setEm m)).em) := by
  have hfill := StaysIn.fillDown (p := s.par) hR fun k hk =>
    readsOnly_lshElem s.par.w (s.pos / s.par.w) (s.pos % s.par.w) k (h1 ▸ hk) hR1
  exact (staysIn_drawOverhang hg hw hR ovh).comp hfill

theorem staysIn_rshEffect {hd hs1 : HSel} (hw : 1 ≤ s.par.w) (hg : GeometryHolds s.par (s.handle hd))
    (hR : (s.handle hd).within R) (hR1 : (s.handle hs1).within R) (ovh : Nat) :
    StaysIn s.par R (fun m => (rshEffect ovh hd hs1 (s.setEm m)).em) := by
  have hfill := StaysIn.fillUp (p := s.par) hR fun k _ =>
    readsOnly_rshElem s.par.w (s.pos / s.par.w) (s.pos % s.par.w) k hR1
  exact (staysIn_drawOverhang hg hw hR ovh).comp hfill

/-- ADD is the one command that writes both memory and a result register (R140, R143). -/
theorem addEffect_reachesOnly {hd hs1 hs2 : HSel} (cin : Bool) (hpos : 0 < (s.handle hd).lengthElements)
    (hR : (s.handle hd).within R) (hR1 : (s.handle hs1).within R) (hR2 : (s.handle hs2).within R)
    (h1 : (s.handle hs1).lengthElements = (s.handle hd).lengthElements)
    (h2 : (s.handle hs2).lengthElements = (s.handle hd).lengthElements) :
    ReachesOnly R s (addEffect hd hs1 hs2 cin) := by
  obtain ⟨hmem, hcarry⟩ := staysIn_addChain (p := s.par) (h1 ▸ hpos) (h2.trans h1.symm) h1.symm hR1 hR2 hR cin
  have hlast := (ReadsOnly.emRead (hR ((s.handle hd).lengthElements - 1) (by omega))).comp hmem
  exact ⟨hmem, hlast.map₂ hcarry fun x c => s.setCarry (carryOut (s.handle hd).bme x c)⟩

/-- A source whose length a command checks takes up as many elements as its destination. -/
theorem source_lengthElements (hs : s.Inv) (hc : firstCause (checksOf i s) = none) {hd h : HSel} {sources : List HSel}
    (hcheck : lengthsAgree s hd sources ∈ checksOf i s) (hsource : h ∈ sources) (hd_mem : hd ∈ operandsOf i)
    (h_mem : h ∈ operandsOf i) : (s.handle h).lengthElements = (s.handle hd).lengthElements :=
  (operand_geometry hs hc h_mem).1.lengthElements_congr (operand_geometry hs hc hd_mem).1
    ((lengthsAgree_iff s hd sources).1 (check_holds hc hcheck) h hsource)

/-- Every command reaches only elements of the handles it names: each of the twenty by the lemma about its datapath. -/
theorem effectOf_reachesOnly (hs : s.Inv) (hc : firstCause (checksOf i s) = none) :
    ReachesOnly (s.elementsOf i) s (effectOf i) := by
  have hw := hs.params.1
  have hops : ∀ h ∈ operandsOf i, GeometryHolds s.par (s.handle h) ∧ (s.handle h).within (s.elementsOf i) :=
    fun h hmem => operand_geometry hs hc hmem
  cases i with
  | init hd | setlen hd => exact ⟨.id, fun _ _ _ => rfl⟩
  | setbit hd | tglbit hd =>
    obtain ⟨hg, hR⟩ := hops hd (.head _)
    have hpos := (indexInRange_iff s hd).1 (check_holds hc (by simp [checksOf, singleBitChecks]))
    exact ⟨staysIn_modifyBit hw hg hR hpos _, fun _ _ _ => rfl⟩
  | clrbit hd =>
    obtain ⟨hg, hR⟩ := hops hd (.head _)
    have hpos := (indexInRange_iff s hd).1 (check_holds hc (by simp [checksOf, singleBitChecks]))
    exact ⟨staysIn_modifyBit hw hg hR hpos fun v m => v &&& compl s.par.w m, fun _ _ _ => rfl⟩
  | rdbit hd =>
    obtain ⟨hg, hR⟩ := hops hd (.head _)
    have hpos := (indexInRange_iff s hd).1 (check_holds hc (by simp [checksOf, singleBitChecks]))
    have hread := ReadsOnly.emRead (hR.bit_mem hg hw hpos)
    exact ⟨.id, hread.map fun x => s.setRbit (x.testBit (s.pos % s.par.w))⟩
  | clrall hd =>
    obtain ⟨hg, hR⟩ := hops hd (.head _)
    exact ⟨staysIn_fillArray hg hR 0, fun _ _ _ => rfl⟩
  | setall hd =>
    obtain ⟨hg, hR⟩ := hops hd (.head _)
    exact ⟨staysIn_fillArray hg hR (ones s.par.w), fun _ _ _ => rfl⟩
  | setsec hd =>
    obtain ⟨hg, hR⟩ := hops hd (.head _)
    have hfits := (sectionInRange_iff s s.len hd).1 (check_holds hc (by simp [checksOf, sectionChecks]))
    exact ⟨staysIn_section hw hg hR hfits _, fun _ _ _ => rfl⟩
  | clrsec hd =>
    obtain ⟨hg, hR⟩ := hops hd (.head _)
    have hfits := (sectionInRange_iff s s.len hd).1 (check_holds hc (by simp [checksOf, sectionChecks]))
    exact ⟨staysIn_section hw hg hR hfits fun v m => v &&& compl s.par.w m, fun _ _ _ => rfl⟩
  | lastval hd =>
    obtain ⟨hg, hR⟩ := hops hd (.head _)
    have hnonempty := (notEmpty_iff s hd).1 (check_holds hc (by simp [checksOf]))
    exact ⟨.id, (readsOnly_lastValue hg hw hnonempty hR).map s.setRval⟩
  | rdsec hd hs1 =>
    obtain ⟨hg, hR⟩ := hops hd (.head _)
    obtain ⟨hg1, hR1⟩ := hops hs1 (.tail _ (.head _))
    have hfits := (sectionInRange_iff s (s.handle hd).lengthBits hs1).1 (check_holds hc (by simp [checksOf]))
    exact ⟨staysIn_rdsecEffect hw hg hg1 hR hR1 hfits (Config.draw s.drawn) (Config.draw (s.drawn + 1)), fun _ _ _ => rfl⟩
  | wrsec hd hs1 =>
    obtain ⟨hg, hR⟩ := hops hd (.head _)
    obtain ⟨hg1, hR1⟩ := hops hs1 (.tail _ (.head _))
    have hfits := (sectionInRange_iff s (s.handle hs1).lengthBits hd).1 (check_holds hc (by simp [checksOf]))
    exact ⟨staysIn_wrsecEffect hw hg hg1 hR hR1 hfits, fun _ _ _ => rfl⟩
  | and hd hs1 hs2 | or hd hs1 hs2 | xor hd hs1 hs2 =>
    have hcheck : lengthsAgree s hd [hs1, hs2] ∈ bitwiseChecks s hd [hs1, hs2] := by simp [bitwiseChecks]
    have h1 := source_lengthElements hs hc (h := hs1) hcheck (by simp) (.head _) (.tail _ (.head _))
    have h2 := source_lengthElements hs hc (h := hs2) hcheck (by simp) (.head _) (.tail _ (.tail _ (.head _)))
    exact ⟨staysIn_bitwise2 (hops hd (.head _)).2 (hops hs1 (.tail _ (.head _))).2
      (hops hs2 (.tail _ (.tail _ (.head _)))).2 h1 h2 _, fun _ _ _ => rfl⟩
  | not hd hs1 =>
    have hcheck : lengthsAgree s hd [hs1] ∈ bitwiseChecks s hd [hs1] := by simp [bitwiseChecks]
    have h1 := source_lengthElements hs hc hcheck (.head _) (.head _) (.tail _ (.head _))
    exact ⟨staysIn_bitwise1 (hops hd (.head _)).2 (hops hs1 (.tail _ (.head _))).2 h1 (compl s.par.w), fun _ _ _ => rfl⟩
  | add hd hs1 hs2 cin =>
    have hcheck : lengthsAgree s hd [hs1, hs2] ∈ checksOf (.add hd hs1 hs2 cin) s := by simp [checksOf]
    have h1 := source_lengthElements hs hc (h := hs1) hcheck (by simp) (.head _) (.tail _ (.head _))
    have h2 := source_lengthElements hs hc (h := hs2) hcheck (by simp) (.head _) (.tail _ (.tail _ (.head _)))
    obtain ⟨hg, hR⟩ := hops hd (.head _)
    have hnonempty := (notEmpty_iff s hd).1 (check_holds hc (by simp [checksOf]))
    exact addEffect_reachesOnly cin (hg.last_eq hw hnonempty).1 hR (hops hs1 (.tail _ (.head _))).2
      (hops hs2 (.tail _ (.tail _ (.head _)))).2 h1 h2
  | lsh hd hs1 =>
    have hcheck : lengthsAgree s hd [hs1] ∈ checksOf (.lsh hd hs1) s := by simp [checksOf, shiftChecks]
    have h1 := source_lengthElements hs hc hcheck (.head _) (.head _) (.tail _ (.head _))
    obtain ⟨hg, hR⟩ := hops hd (.head _)
    exact ⟨staysIn_lshEffect hw hg hR (hops hs1 (.tail _ (.head _))).2 h1 (Config.draw s.drawn), fun _ _ _ => rfl⟩
  | rsh hd hs1 =>
    obtain ⟨hg, hR⟩ := hops hd (.head _)
    exact ⟨staysIn_rshEffect hw hg hR (hops hs1 (.tail _ (.head _))).2 (Config.draw s.drawn), fun _ _ _ => rfl⟩

/-! ### R22 -/

theorem checksOf_setEm (m : Memory) : checksOf i (s.setEm m) = checksOf i s := by cases i <;> rfl

/-- Two states that differ only in elements a command does not reach are led to states that differ only there. -/
theorem effectOf_setEm {m : Memory} (hreach : ReachesOnly R s (effectOf i)) (hm : Set.EqOn (emRead m) (emRead s.em) R) :
    ∃ m', effectOf i (s.setEm m) = (effectOf i s).setEm m' ∧ Set.EqOn (emRead m') (emRead (effectOf i s).em) R :=
  ⟨(effectOf i (s.setEm m)).em, congrArg (·.setEm (effectOf i (s.setEm m)).em) (hreach.rest hm), hreach.memory.agree hm⟩

/-- Settles O15: writing and reading are the two halves of `effectOf_reachesOnly`; a raising command touches no element. -/
theorem commandsReachOnlyOperandRanges : Obligations.CommandsReachOnlyOperandRanges := by
  refine ⟨fun i s t hs h k hk => ?_, fun i s t m hs hwf h hm => ?_⟩
  · obtain ⟨c, -, rfl⟩ | ⟨hc, rfl⟩ := exec_next h
    · rfl
    · exact (effectOf_reachesOnly hs hc).memory.frame s.em k fun ⟨x, hx, hrange⟩ => hk x hx hrange
  · have hs' : (s.setEm m).Inv := { hs with memory := hwf }
    have hEqOn : Set.EqOn (emRead m) (emRead s.em) (s.elementsOf i) := fun k ⟨x, hx, hrange⟩ => hm x hx k hrange
    obtain ⟨c, hc, rfl⟩ | ⟨hc, rfl⟩ := exec_next h
    · refine ⟨m, ?_, hm⟩
      rw [exec_eq_runCommand]
      exact runCommand_raises ((congrArg _ (checksOf_setEm m)).trans hc)
    · obtain ⟨m', heffect, hm'⟩ := effectOf_setEm (effectOf_reachesOnly hs hc) hEqOn
      refine ⟨m', ?_, fun x hx k hrange => hm' ⟨x, hx, hrange⟩⟩
      have hc' : firstCause (checksOf i (s.setEm m)) = none := (congrArg _ (checksOf_setEm m)).trans hc
      have hcompletes := runCommand_completes (effect := effectOf i) hc' fun x hx =>
        hs'.consistent x (allBound_operandsOf hc' x hx)
      exact (exec_eq_runCommand i (s.setEm m)).trans (hcompletes.trans (by rw [heffect]; rfl))

/-! ### Every step keeps the invariant -/

/-- The masked last element is an element (R28, R112). -/
theorem lastValue_lt {p : Params} {m : Memory} (hm : Memory.wf p m) (h : Handle) : lastValue m h < 2 ^ p.w :=
  Nat.and_le_left.trans_lt (hm.read_lt h.last)

/-- `RVAL` stays `W` bits wide. -/
theorem effectOf_rval_lt (hs : s.Inv) : (effectOf i s).rval < 2 ^ s.par.w := by
  obtain hkeep | ⟨hd, rfl⟩ := effectOf_rval (i := i) (s := s)
  · exact hkeep ▸ hs.rval
  · exact lastValue_lt hs.memory _

/-- An effect whose command's checks hold, followed by its write of `STATUS`, keeps the invariant. -/
theorem effectOf_complete_inv (hs : s.Inv) (hc : firstCause (checksOf i s) = none) : (effectOf i s).complete.Inv := by
  obtain ⟨hlength, hnew⟩ := effectOf_handles hs.params.1 hc
  have hmemory : Memory.wf s.par (effectOf i s).em :=
    (effectOf_reachesOnly hs hc).memory.wf hs.elementsOf_lt s.em hs.memory
  have hgeometry : ∀ h ∈ (effectOf i s).handles, h.bound = true → GeometryHolds s.par h :=
    fun h hmem hb => (hnew h hmem).elim (fun hold => hs.geometry h hold hb) (·.2)
  have hunbound : ∀ h ∈ (effectOf i s).handles, h.bound = false → h = Handle.unbound := by
    intro h hmem hb
    obtain hold | ⟨hbound, -⟩ := hnew h hmem
    · exact hs.unbound h hold hb
    · exact absurd (hb.symm.trans hbound) (by decide)
  constructor
  case params => simpa using hs.params
  case memory => simpa using hmemory
  case fileSize => simpa using hlength.trans hs.fileSize
  case geometry => simpa using hgeometry
  case unbound => exact hunbound
  case rval => simpa using effectOf_rval_lt hs
  case pos => simpa using hs.pos
  case len => simpa using hs.len
  case base => simpa using hs.base
  case status => exact statusLegal_completed _

theorem raise_inv (hs : s.Inv) (c : Cause) : (s.raise c).Inv := { hs with status := statusLegal_raised c }

theorem exec_inv (hs : s.Inv) (h : exec i s = .next t) : t.Inv := by
  obtain ⟨c, -, rfl⟩ | ⟨hc, rfl⟩ := exec_next h
  · exact raise_inv hs c
  · exact effectOf_complete_inv hs hc

/-- Every host action that the block carries out keeps the invariant. -/
theorem ActsTo.inv {a : HostAction} (h : ActsTo s a t) (hs : s.Inv) : t.Inv := by
  cases h with
  | writeEm hk _ => exact { hs with memory := hs.memory.write _ _ hk }
  | writePos hv => exact { hs with pos := hv }
  | writeLen hv => exact { hs with len := hv }
  | writeBase hv => exact { hs with base := hv }
  | read => exact hs
  | illegalWord => exact raise_inv hs _
  | command _ hexec => exact exec_inv hs hexec
  | reset => exact { resetWith_inv hs.params hs.memory with }

theorem ActsTo.par_eq {a : HostAction} (h : ActsTo s a t) : t.par = s.par := by
  cases h with
  | command _ hexec => exact exec_par hexec
  | _ => rfl

/-- Settles O13: each kind of step keeps the invariant, a command because it reaches only elements of `EM` and writes
only legal handles. -/
theorem everyStepKeepsTheInvariant : Obligations.EveryStepKeepsTheInvariant := by
  intro s t hs h
  obtain ⟨-, rfl⟩ | ⟨a, rest, -, hact⟩ := step_next h
  · exact ⟨hs, rfl⟩
  · exact ⟨hact.inv { hs with }, hact.par_eq⟩

end Sys2Proof.Machine

/-! PROOFS. What the host does to the element memory (20 R55), and that the overhang bits of an array carry no meaning
(20 R65, R67). The second is shown by two runs in lockstep: every write of a datapath gives the declared bits alike when
it finds them alike. -/

namespace Sys2Proof.Machine

/-! ### The host's access to the element memory (R55) -/

/-- A step with a pending host action carries it out (R188). -/
theorem step_of_host_cons {s : State} {a : HostAction} {rest : List HostAction} (h : s.host = a :: rest) :
    step s = hostAct a { s with host := rest } := by
  unfold step hostStep
  rw [h]

theorem hostWrite_of_lt {n v : Nat} (hv : v < 2 ^ n) (s : State) : hostWrite n v s = .next s := if_pos hv

/-- Settles O23: by read after write; a read hands the state on as it is. -/
theorem hostWritesOneElementAndReadsNone : Obligations.HostWritesOneElementAndReadsNone := by
  refine ⟨fun s k v rest hhost hk hv => ?_, fun s k rest hhost hk => ?_⟩
  · refine ⟨{ s with em := emWrite s.par.w s.em k v, host := rest }, ?_, rfl, ?_, fun j => emRead_emWrite_ne _ _ _ _ j⟩
    · rw [step_of_host_cons hhost]
      exact (if_pos hk).trans (hostWrite_of_lt hv _)
    · rw [emRead_emWrite_same, Nat.mod_eq_of_lt hv]
  · have hread : hostRead s (.em k) = some (emRead s.em k) := if_pos hk
    have hsome : (hostRead { s with host := rest } (.em k)).isSome = true := Option.isSome_iff_exists.2 ⟨_, hread⟩
    refine ⟨?_, hread⟩
    rw [step_of_host_cons hhost]
    exact if_pos hsome

/-! ### Memories that agree on a set of bits -/

/-- A set of stored bits, each named by its element and its place in the element (R16). -/
abbrev BitSet := Set (Nat × Nat)

/-- The two memories hold `w`-bit elements and agree on the bits of `D`. -/
structure SameBits (w : Nat) (D : BitSet) (m m' : Memory) : Prop where
  fitsLeft : ∀ k, emRead m k < 2 ^ w
  fitsRight : ∀ k, emRead m' k < 2 ^ w
  bits : ∀ ⦃k b : Nat⦄, (k, b) ∈ D → (emRead m k).testBit b = (emRead m' k).testBit b

/-- Each bit of the result depends on the bit at the same place alone. -/
def BitLocal (change : Elem → Elem) : Prop :=
  ∀ ⦃x y : Elem⦄ ⦃b : Nat⦄, x.testBit b = y.testBit b → (change x).testBit b = (change y).testBit b

theorem bitLocal_or (c : Elem) : BitLocal (· ||| c) := fun x y b h => by simp only [Nat.testBit_or, h]
theorem bitLocal_and (c : Elem) : BitLocal (· &&& c) := fun x y b h => by simp only [Nat.testBit_and, h]
theorem bitLocal_xor (c : Elem) : BitLocal (· ^^^ c) := fun x y b h => by simp only [Nat.testBit_xor, h]

theorem testBit_compl_congr {w b : Nat} {x y : Elem} (hx : x < 2 ^ w) (hy : y < 2 ^ w)
    (h : x.testBit b = y.testBit b) : (compl w x).testBit b = (compl w y).testBit b := by
  rw [testBit_compl w b x hx, testBit_compl w b y hy, h]

/-- Read-modify-write of some bits (R53): the mask `keep` holds the others, `new` the new ones. -/
theorem bitLocal_merge (keep new : Elem) : BitLocal (fun x => x &&& keep ||| new) :=
  fun _ _ _ h => bitLocal_or new (bitLocal_and keep h)

/-- Two loops in lockstep keep a relation that each step keeps. -/
theorem forUp_rel {α : Type} {r : α → α → Prop} {f g : Nat → α → α} {a b : α} {n : Nat} (h : r a b)
    (hstep : ∀ k < n, ∀ a b, r a b → r (f k a) (g k b)) : r (forUp n f a) (forUp n g b) := by
  induction n with
  | zero => exact h
  | succ n ih => exact hstep n (by omega) _ _ (ih fun k hk => hstep k (by omega))

theorem forDown_rel {α : Type} {r : α → α → Prop} {f g : Nat → α → α} {a b : α} {n : Nat} (h : r a b)
    (hstep : ∀ k < n, ∀ a b, r a b → r (f k a) (g k b)) : r (forDown n f a) (forDown n g b) := by
  induction n generalizing a b with
  | zero => exact h
  | succ n ih => exact ih (hstep n (by omega) a b h) fun k hk => hstep k (by omega)

theorem emWrite_fits {w : Nat} {m : Memory} (h : ∀ k, emRead m k < 2 ^ w) (k : Nat) (v : Elem) (j : Nat) :
    emRead (emWrite w m k v) j < 2 ^ w := by
  rw [emRead_emWrite]
  split
  · exact Nat.mod_lt _ (Nat.two_pow_pos w)
  · exact h j

namespace SameBits

variable {w : Nat} {D : BitSet} {m m' : Memory}

/-- Writing one element keeps the agreement when the two values agree on its bits of `D`. -/
theorem write (h : SameBits w D m m') (k : Nat) {v v' : Elem}
    (hv : ∀ b, (k, b) ∈ D → v.testBit b = v'.testBit b) : SameBits w D (emWrite w m k v) (emWrite w m' k v') where
  fitsLeft := emWrite_fits h.fitsLeft k v
  fitsRight := emWrite_fits h.fitsRight k v'
  bits j b hjb := by
    rw [emRead_emWrite, emRead_emWrite]
    split
    · next hj => subst hj; rw [Nat.testBit_mod_two_pow, Nat.testBit_mod_two_pow, hv b hjb]
    · exact h.bits hjb

theorem write_same (h : SameBits w D m m') (k : Nat) {v v' : Elem} (hv : v = v') :
    SameBits w D (emWrite w m k v) (emWrite w m' k v') := h.write k fun _ _ => hv ▸ rfl

/-- Reading an element, changing it bit by bit and writing it back keeps the agreement. -/
theorem modify (h : SameBits w D m m') (k : Nat) {change : Elem → Elem} (hchange : BitLocal change) :
    SameBits w D (emWrite w m k (change (emRead m k))) (emWrite w m' k (change (emRead m' k))) :=
  h.write k fun _ hb => hchange (h.bits hb)

theorem fillUp {base n : Nat} {value value' : Nat → Memory → Elem} (h : SameBits w D m m')
    (hv : ∀ k < n, ∀ m m', SameBits w D m m' →
      ∀ b, (base + k, b) ∈ D → (value k m).testBit b = (value' k m').testBit b) :
    SameBits w D (fillUp w base n value m) (fillUp w base n value' m') :=
  forUp_rel h fun k hk m m' h => h.write _ (hv k hk m m' h)

theorem fillDown {base n : Nat} {value value' : Nat → Memory → Elem} (h : SameBits w D m m')
    (hv : ∀ k < n, ∀ m m', SameBits w D m m' →
      ∀ b, (base + k, b) ∈ D → (value k m).testBit b = (value' k m').testBit b) :
    SameBits w D (fillDown w base n value m) (fillDown w base n value' m') :=
  forDown_rel h fun k hk m m' h => h.write _ (hv k hk m m' h)

/-- The section datapath changes the bits of its elements each by itself (R109). -/
theorem sectionRun (h : SameBits w D m m') (first pos len : Nat) {change : Elem → Elem → Elem}
    (hchange : ∀ mask, BitLocal (change · mask)) :
    SameBits w D (sectionRun w first pos len change m) (sectionRun w first pos len change m') := by
  have happly : ∀ k mask, ∀ {m m'}, SameBits w D m m' →
      SameBits w D (applyMask w first change k mask m) (applyMask w first change k mask m') :=
    fun k mask _ _ h => h.modify (first + k) (hchange mask)
  unfold Machine.sectionRun
  split
  · exact h
  simp only
  split
  · exact happly _ _ h
  have hwhole := forUp_rel (n := (pos + len) / w - (pos / w + 1))
    (happly (pos / w) (ones w - lowMask (pos % w)) h)
    fun j _ _ _ h => happly (pos / w + 1 + j) (ones w) h
  split
  · exact hwhole
  · exact happly _ _ hwhole

end SameBits

/-! ### The declared bits of an array (R16, R65) -/

/-- The places of the declared bits of the array, in elements of `w` bits. -/
def Handle.declaredBits (w : Nat) (h : Handle) : BitSet := {x | ∃ u < h.lengthBits, x = (h.first + u / w, u % w)}

/-- Of the elements of the array no bits but declared bits of it are in `D`: its overhang bits are not. -/
def Handle.OverhangFree (w : Nat) (h : Handle) (D : BitSet) : Prop :=
  ∀ ⦃k b : Nat⦄, k < h.lengthElements → (h.first + k, b) ∈ D → k * w + b < h.lengthBits

/-- The array satisfies R24 and its declared bits are in `D`. -/
structure Handle.OperandIn (p : Params) (D : BitSet) (h : Handle) : Prop where
  width : 1 ≤ p.w
  geometry : GeometryHolds p h
  declared : h.declaredBits p.w ⊆ D

section Array

variable {p : Params} {D : BitSet} {m m' : Memory} {h : Handle}

/-- Bit `b` of element `k` of an array agrees when it is declared, or outside an element. -/
theorem SameBits.bit_eq (hm : SameBits p.w D m m') (ho : h.OperandIn p D) {k b : Nat}
    (hb : b < p.w → k * p.w + b < h.lengthBits) :
    (emRead m (h.first + k)).testBit b = (emRead m' (h.first + k)).testBit b := by
  by_cases hbw : b < p.w
  · have hdiv : (k * p.w + b) / p.w = k := by
      rw [Nat.add_comm, Nat.add_mul_div_right _ _ ho.width, Nat.div_eq_of_lt hbw, Nat.zero_add]
    have hmod : (k * p.w + b) % p.w = b := by rw [Nat.mul_add_mod_self_right, Nat.mod_eq_of_lt hbw]
    exact hm.bits (ho.declared ⟨k * p.w + b, hb hbw, by rw [hdiv, hmod]⟩)
  · rw [testBit_of_lt p.w b _ (hm.fitsLeft _) (by omega), testBit_of_lt p.w b _ (hm.fitsRight _) (by omega)]

/-- Every element of an array but the last has declared bits only, so it agrees as a whole. -/
theorem SameBits.element_eq (hm : SameBits p.w D m m') (ho : h.OperandIn p D) {k : Nat}
    (hk : k + 1 < h.lengthElements) : emRead m (h.first + k) = emRead m' (h.first + k) := by
  refine Nat.eq_of_testBit_eq fun b => hm.bit_eq ho fun hb => ?_
  have := ho.geometry.mul_lt_lengthBits ho.width hk
  rw [Nat.succ_mul] at this
  omega

/-- The overhang mask holds places of declared bits only (R24, R67). -/
theorem GeometryHolds.declared_of_testBit_overhangMask (hg : GeometryHolds p h) (hw : 1 ≤ p.w) {k b : Nat}
    (hk : k + 1 = h.lengthElements) (hb : h.overhangMask.testBit b = true) : k * p.w + b < h.lengthBits := by
  rw [hg.lengthBits_eq hw (by omega), ← hk, Nat.add_sub_cancel]
  rw [hg.overhangMask] at hb
  split at hb
  · next hbme => simpa [hbme, Nat.testBit_two_pow_sub_one] using hb
  · next hbme => simpa [hbme, Nat.testBit_two_pow_sub_one] using hb

/-- The last element of an array agrees under its overhang mask (R67). -/
theorem SameBits.masked_eq (hm : SameBits p.w D m m') (ho : h.OperandIn p D) {k : Nat}
    (hk : k + 1 = h.lengthElements) :
    emRead m (h.first + k) &&& h.overhangMask = emRead m' (h.first + k) &&& h.overhangMask := by
  refine Nat.eq_of_testBit_eq fun b => ?_
  rw [Nat.testBit_and, Nat.testBit_and]
  cases hmask : h.overhangMask.testBit b with
  | false => rw [Bool.and_false, Bool.and_false]
  | true => rw [hm.bit_eq ho fun _ => ho.geometry.declared_of_testBit_overhangMask ho.width hk hmask]

/-- What LASTVAL reads depends on declared bits only (R112). -/
theorem SameBits.lastValue_eq (hm : SameBits p.w D m m') (ho : h.OperandIn p D) (hb : 0 < h.lengthBits) :
    lastValue m h = lastValue m' h := by
  obtain ⟨hpos, hlast⟩ := ho.geometry.last_eq ho.width hb
  rw [lastValue, lastValue, hlast]
  exact hm.masked_eq ho (by omega)

/-- Whatever is drawn, the drawn bits lie above the declared ones (R66). -/
theorem SameBits.drawOverhang (hm : SameBits p.w D m m') (ho : h.OperandIn p D) (hfree : h.OverhangFree p.w D)
    (d d' : Nat) : SameBits p.w D (drawOverhang p.w h d m) (drawOverhang p.w h d' m') := by
  unfold Machine.drawOverhang
  split
  · exact hm
  next hbme =>
  have hpos : 0 < h.lengthBits := Nat.pos_of_ne_zero fun e => hbme (by rw [ho.geometry.bme, e, Nat.zero_mod])
  obtain ⟨hn, hlast⟩ := ho.geometry.last_eq ho.width hpos
  refine hm.write h.last fun b hb => ?_
  have hdeclared : b < h.bme := by
    have hlt := hfree (by omega) (hlast ▸ hb)
    rw [ho.geometry.lengthBits_eq ho.width hn, if_neg hbme] at hlt
    omega
  have hnot : ¬ h.bme ≤ b := by omega
  simp only [lastValue, Nat.testBit_or, Nat.testBit_and, testBit_mul_two_pow, hm.bits hb, hnot, decide_false,
    Bool.false_and]

/-! ### The datapaths, one output element at a time -/

variable {inp : Handle}

/-- A declared bit of LSH's output comes from a lower declared bit of its input (R153). -/
theorem SameBits.lshElem_testBit (hm : SameBits p.w D m m') (ho : inp.OperandIn p D)
    (e b : Nat) {k j : Nat} (hj : k * p.w + j < inp.lengthBits) :
    (lshElem p.w inp e b k m).testBit j = (lshElem p.w inp e b k m').testBit j := by
  have hle : (k - e) * p.w ≤ k * p.w := Nat.mul_le_mul_right _ (Nat.sub_le k e)
  unfold lshElem
  split
  · rfl
  split
  · exact hm.bit_eq ho fun _ => by omega
  have hshl : (emRead m (inp.first + (k - e))).testBit (j - b) = (emRead m' (inp.first + (k - e))).testBit (j - b) :=
    hm.bit_eq ho fun _ => by omega
  rw [Nat.testBit_or, Nat.testBit_or, testBit_shl, testBit_shl, hshl]
  congr 1
  split
  · rfl
  · next hk =>
    rw [testBit_shr, testBit_shr]
    refine hm.bit_eq ho fun hlt => ?_
    have : (k - e - 1 + 1) * p.w ≤ k * p.w := Nat.mul_le_mul_right _ (by omega)
    rw [Nat.succ_mul] at this
    omega

theorem SameBits.rshIn_eq (hm : SameBits p.w D m m') (ho : inp.OperandIn p D) (k : Nat) :
    rshIn inp k m = rshIn inp k m' := by
  unfold rshIn
  split
  · next hk => exact hm.element_eq ho hk
  split
  · next hk => exact hm.masked_eq ho hk
  · rfl

/-- RSH masks the last element of its input, so its output elements agree as a whole (R153). -/
theorem SameBits.rshElem_eq (hm : SameBits p.w D m m') (ho : inp.OperandIn p D) (e b k : Nat) :
    rshElem p.w inp e b k m = rshElem p.w inp e b k m' := by
  unfold rshElem
  rw [hm.rshIn_eq ho (k + e), hm.rshIn_eq ho (k + e + 1)]

/-- A bit of RDSEC's output that copies a declared bit of the source agrees, whatever stands in for a missing element
(R122). -/
theorem SameBits.rdsecElem_testBit (hm : SameBits p.w D m m') (ho : inp.OperandIn p D) (missing missing' : Nat)
    {pos k b : Nat} (hdeclared : pos + (k * p.w + b) < inp.lengthBits) :
    (rdsecElem p.w inp (pos / p.w) (pos % p.w) missing k m).testBit b =
      (rdsecElem p.w inp (pos / p.w) (pos % p.w) missing' k m').testBit b := by
  have hpos : pos / p.w * p.w + pos % p.w = pos := by rw [Nat.mul_comm]; exact Nat.div_add_mod pos p.w
  have hcur : ∀ c ≤ pos % p.w + b, (emRead m (inp.first + pos / p.w + k)).testBit c =
      (emRead m' (inp.first + pos / p.w + k)).testBit c := by
    intro c hc
    rw [Nat.add_assoc inp.first]
    exact hm.bit_eq ho fun _ => by rw [Nat.add_mul]; omega
  unfold rdsecElem
  simp only
  split
  · exact hcur b (by omega)
  have hshr := hcur (pos % p.w + b) le_rfl
  split
  · have hnext : (emRead m (inp.first + pos / p.w + k + 1)).testBit (b - (p.w - pos % p.w)) =
        (emRead m' (inp.first + pos / p.w + k + 1)).testBit (b - (p.w - pos % p.w)) := by
      rw [Nat.add_assoc inp.first, Nat.add_assoc inp.first]
      refine hm.bit_eq ho fun _ => ?_
      have hstart := ho.geometry.mul_lt_lengthBits ho.width (j := pos / p.w + k + 1)
        (by have := ho.geometry.limiter; omega)
      rw [Nat.add_mul, Nat.add_mul] at hstart ⊢
      omega
    rw [Nat.testBit_or, Nat.testBit_or, testBit_shr, testBit_shr, testBit_shl, testBit_shl, hshr, hnext]
  · next hmissing =>
    have hlow : ¬ p.w - pos % p.w ≤ b := by
      intro hle
      have hnext : pos / p.w + k + 1 ≤ (pos + (k * p.w + b)) / p.w := by
        rw [Nat.le_div_iff_mul_le ho.width, Nat.add_mul, Nat.add_mul]
        omega
      have := ho.geometry.div_lt_lengthElements ho.width hdeclared
      have := ho.geometry.limiter
      omega
    simp only [Nat.testBit_or, testBit_shr, testBit_mul_two_pow, hshr, hlow, decide_false, Bool.false_and]

/-- The input element of a WRSEC step without its overhang bits agrees as a whole (R124). -/
theorem SameBits.wrsecInput_eq (hm : SameBits p.w D m m') (ho : inp.OperandIn p D) {j : Nat}
    (hj : j < inp.lengthElements) :
    emRead m (inp.first + j) % 2 ^ wrsecCount p.w inp j = emRead m' (inp.first + j) % 2 ^ wrsecCount p.w inp j := by
  obtain ⟨-, -, hcount⟩ := wrsecCount_bounds ho.geometry ho.width hj
  refine Nat.eq_of_testBit_eq fun b => ?_
  rw [Nat.testBit_mod_two_pow, Nat.testBit_mod_two_pow]
  by_cases hb : b < wrsecCount p.w inp j
  · rw [hm.bit_eq ho fun _ => by omega]
  · simp only [hb, decide_false, Bool.false_and]

/-- A WRSEC step merges the same input bits into the destination (R124). -/
theorem SameBits.wrsecStep (hm : SameBits p.w D m m') (ho : inp.OperandIn p D) (dst : Handle) (e ls : Nat)
    {j : Nat} (hj : j < inp.lengthElements) :
    SameBits p.w D (wrsecStep p.w inp dst e ls j m) (wrsecStep p.w inp dst e ls j m') := by
  unfold Machine.wrsecStep
  simp only
  rw [hm.wrsecInput_eq ho hj]
  split
  · exact (hm.modify _ (bitLocal_merge _ _)).modify _ (bitLocal_merge _ _)
  · exact hm.modify _ (bitLocal_merge _ _)

/-! ### The adder (R142) -/

variable {in1 in2 : Handle}

/-- Memory and carry of the adder, in two runs. -/
def SameSum (w : Nat) (D : BitSet) (r r' : Memory × Bool) : Prop := SameBits w D r.1 r'.1 ∧ r.2 = r'.2

/-- Writing the sum of two elements that agree as a whole, and handing on the carry. -/
theorem SameBits.addElement {w : Nat} (hm : SameBits w D m m') (k : Nat) {x x' y y' : Elem} {c c' : Bool} (hx : x = x')
    (hy : y = y') (hc : c = c') : SameSum w D (emWrite w m k (fullAdd w x y c).1, (fullAdd w x y c).2)
      (emWrite w m' k (fullAdd w x' y' c').1, (fullAdd w x' y' c').2) := by
  subst hx hy hc
  exact ⟨hm.write_same k rfl, rfl⟩

/-- The carry chain below the last element adds elements that hold declared bits only. -/
theorem SameBits.addSteps (hm : SameBits p.w D m m') (ho1 : in1.OperandIn p D) (ho2 : in2.OperandIn p D)
    (h2 : in2.lengthElements = in1.lengthElements) (o : Nat) (c : Bool) :
    SameSum p.w D (Machine.forUp (in1.lengthElements - 1) (addStep p.w in1.first in2.first o) (m, c))
      (Machine.forUp (in1.lengthElements - 1) (addStep p.w in1.first in2.first o) (m', c)) :=
  forUp_rel (r := SameSum p.w D) ⟨hm, rfl⟩ fun k hk _ _ ⟨hm, hc⟩ =>
    hm.addElement (o + k) (hm.element_eq ho1 (by omega)) (hm.element_eq ho2 (by omega)) hc

/-- The whole chain adds the last elements under their masks. -/
theorem SameBits.addChain (hm : SameBits p.w D m m') (ho1 : in1.OperandIn p D) (ho2 : in2.OperandIn p D)
    (hbits : in2.lengthBits = in1.lengthBits) (hpos : 0 < in1.lengthElements) (out : Handle) (c : Bool) :
    SameSum p.w D (addChain p.w in1 in2 out c m) (addChain p.w in1 in2 out c m') ∧
      emRead (addChain p.w in1 in2 out c m).1 (out.first + (in1.lengthElements - 1)) =
        emRead (addChain p.w in1 in2 out c m').1 (out.first + (in1.lengthElements - 1)) := by
  have h2 := ho2.geometry.lengthElements_congr ho1.geometry hbits
  have hmask : in2.overhangMask = in1.overhangMask := by
    rw [ho2.geometry.overhangMask, ho1.geometry.overhangMask, ho2.geometry.bme, ho1.geometry.bme, hbits]
  obtain ⟨hlow, hcarry⟩ := hm.addSteps ho1 ho2 h2 out.first c
  have hx := hlow.masked_eq ho1 (k := in1.lengthElements - 1) (by omega)
  have hy := hlow.masked_eq ho2 (k := in1.lengthElements - 1) (by omega)
  rw [hmask] at hy
  refine ⟨hlow.addElement _ hx hy hcarry, ?_⟩
  simp only [Machine.addChain, emRead_emWrite_same, hx, hy, hcarry]

end Array

/-! ### The effects of the commands -/

/-- The second state agrees with the first on everything but the element memory and the count of draws, and there on
the bits of `D`. -/
structure State.Alike (D : BitSet) (s t : State) : Prop where
  memory : SameBits s.par.w D s.em t.em
  rest : t = { s with em := t.em, drawn := t.drawn }

/-- Replace the element memory and the count of draws. -/
def State.setHidden (s : State) (m : Memory) (d : Nat) : State := { s with em := m, drawn := d }

/-- The declared bits of the arrays a command names (R16). -/
def State.declaredBits (s : State) (i : Instr) : BitSet :=
  {x | ∃ h ∈ i.selectors, x ∈ (s.handle h).declaredBits s.par.w}

section Effects

variable {i : Instr} {s : State} {D : BitSet} {m : Memory} {hd hs1 hs2 : HSel}

/-- When a command's checks hold, each of its operands is one. -/
theorem operandIn_declaredBits (hs : s.Inv) (hc : firstCause (checksOf i s) = none) {x : HSel} (hx : x ∈ operandsOf i) :
    (s.handle x).OperandIn s.par (s.declaredBits i) where
  width := hs.params.1
  geometry := (operand_geometry hs hc hx).1
  declared := fun _ hbit => ⟨x, mem_selectors_of_mem_operandsOf hx, hbit⟩

/-- The first named array is related to each of the others (R64). -/
theorem aliasing_head {rel : Handle → Handle → Bool} {sources : List HSel}
    (h : (aliasing s rel (hd :: sources)).1 = true) : ∀ x ∈ sources, rel (s.handle hd) (s.handle x) = true := by
  simp only [aliasing, List.map_cons, allPairs, Bool.and_eq_true, List.all_map, List.all_eq_true] at h
  exact h.1

theorem disjointOrCoincide_of_disjoint {a b : Handle} (h : disjoint a b = true) : disjointOrCoincide a b = true := by
  rw [disjointOrCoincide, h, Bool.true_or]

/-- The destination shares elements only with operands that coincide with it (R64), so none of its overhang bits is
declared in an operand. -/
theorem overhangFree_of_disjointOrCoincide {sources : List HSel} (hw : 1 ≤ s.par.w)
    (hg : ∀ h ∈ hd :: sources, GeometryHolds s.par (s.handle h)) (hi : i.selectors = hd :: sources)
    (hrel : ∀ h ∈ sources, disjointOrCoincide (s.handle hd) (s.handle h) = true) :
    (s.handle hd).OverhangFree s.par.w (s.declaredBits i) := by
  rintro k b hk ⟨h, hmem, u, hu, hx⟩
  obtain ⟨hindex, rfl⟩ := Prod.mk.inj hx
  rw [hi] at hmem
  have hsame : (s.handle hd).first = (s.handle h).first ∧ (s.handle hd).lengthBits = (s.handle h).lengthBits := by
    obtain rfl | hsource := List.mem_cons.1 hmem
    · exact ⟨rfl, rfl⟩
    have hor := hrel h hsource
    rw [disjointOrCoincide, Bool.or_eq_true] at hor
    obtain hdisjoint | hcoincide := hor
    · have hlimd := (hg hd (.head _)).limiter
      have hlimh := (hg h hmem).limiter
      have hlt := (hg h hmem).div_lt_lengthElements hw hu
      exact absurd ⟨⟨Nat.le_add_right _ _, by omega⟩, hindex ▸ Nat.le_add_right _ _, by omega⟩
        ((disjoint_iff_no_common_index _ _).1 hdisjoint ((s.handle hd).first + k))
    · simpa [coincide] using hcoincide
  obtain ⟨hfirst, hbits⟩ := hsame
  have hk : k = u / s.par.w := by omega
  rw [hk, Nat.div_add_mod', hbits]
  exact hu

/-- The same from the command's checks: the commands that do not keep the overhang
bits of their destination check their operands so. -/
theorem overhangFree_of_aliasing (hs : s.Inv) (hc : firstCause (checksOf i s) = none) {sources : List HSel}
    (hi : i.selectors = hd :: sources ∧ operandsOf i = hd :: sources) {rel : Handle → Handle → Bool}
    (hrel : ∀ a b, rel a b = true → disjointOrCoincide a b = true)
    (hcheck : aliasing s rel (hd :: sources) ∈ checksOf i s) :
    (s.handle hd).OverhangFree s.par.w (s.declaredBits i) :=
  overhangFree_of_disjointOrCoincide hs.params.1 (fun _ hx => (operand_geometry hs hc (hi.2 ▸ hx)).1) hi.1
    fun x hx => hrel _ _ (aliasing_head (check_holds hc hcheck) x hx)

theorem modifyBit_alike (h : SameBits s.par.w D s.em m) (d : Nat) {change : Elem → Elem → Elem}
    (hchange : ∀ mask, BitLocal (change · mask)) :
    (modifyBit s hd change).Alike D (modifyBit (s.setHidden m d) hd change) :=
  ⟨h.modify _ (hchange _), rfl⟩

theorem fillArray_alike (h : SameBits s.par.w D s.em m) (d : Nat) (v : Elem) :
    (fillArray s hd v).Alike D (fillArray (s.setHidden m d) hd v) :=
  ⟨h.fillUp fun _ _ _ _ _ _ _ => rfl, rfl⟩

theorem bitwise2_alike (h : SameBits s.par.w D s.em m) (d : Nat) (hfree : (s.handle hd).OverhangFree s.par.w D)
    (ho1 : (s.handle hs1).OperandIn s.par D) (ho2 : (s.handle hs2).OperandIn s.par D)
    (h1 : (s.handle hs1).lengthBits = (s.handle hd).lengthBits)
    (h2 : (s.handle hs2).lengthBits = (s.handle hd).lengthBits) {op : Elem → Elem → Elem}
    (hop : ∀ x y x' y' b, x.testBit b = x'.testBit b → y.testBit b = y'.testBit b →
      (op x y).testBit b = (op x' y').testBit b) :
    (bitwise2 s op hd hs1 hs2).Alike D (bitwise2 (s.setHidden m d) op hd hs1 hs2) :=
  ⟨h.fillUp fun _ hk _ _ hm b hb =>
    hop _ _ _ _ b (hm.bit_eq ho1 fun _ => h1 ▸ hfree hk hb) (hm.bit_eq ho2 fun _ => h2 ▸ hfree hk hb), rfl⟩

theorem not_alike (h : SameBits s.par.w D s.em m) (d : Nat) (hfree : (s.handle hd).OverhangFree s.par.w D)
    (ho1 : (s.handle hs1).OperandIn s.par D) (h1 : (s.handle hs1).lengthBits = (s.handle hd).lengthBits) :
    (bitwise1 s (compl s.par.w) hd hs1).Alike D (bitwise1 (s.setHidden m d) (compl s.par.w) hd hs1) :=
  ⟨h.fillUp fun _ hk _ _ hm _ hb =>
    testBit_compl_congr (hm.fitsLeft _) (hm.fitsRight _) (hm.bit_eq ho1 fun _ => h1 ▸ hfree hk hb), rfl⟩

theorem rdsecEffect_alike (h : SameBits s.par.w D s.em m) (d : Nat) (ho : (s.handle hd).OperandIn s.par D)
    (ho1 : (s.handle hs1).OperandIn s.par D) (hfree : (s.handle hd).OverhangFree s.par.w D)
    (hfits : s.pos + (s.handle hd).lengthBits ≤ (s.handle hs1).lengthBits) (missing ovh missing' ovh' : Nat) :
    (rdsecEffect missing ovh hd hs1 s).Alike D (rdsecEffect missing' ovh' hd hs1 (s.setHidden m d)) := by
  have hfill := h.fillUp (base := (s.handle hd).first) (n := (s.handle hd).lengthElements) fun k hk m m' hm b hb =>
    have hrun : s.pos + (k * s.par.w + b) < (s.handle hs1).lengthBits := by have := hfree hk hb; omega
    hm.rdsecElem_testBit ho1 missing missing' (pos := s.pos) (k := k) hrun
  exact ⟨hfill.drawOverhang ho hfree ovh ovh', rfl⟩

theorem wrsecEffect_alike (h : SameBits s.par.w D s.em m) (d : Nat) (ho1 : (s.handle hs1).OperandIn s.par D) :
    (wrsecEffect hd hs1 s).Alike D (wrsecEffect hd hs1 (s.setHidden m d)) :=
  ⟨forUp_rel h fun _ hj _ _ hm => hm.wrsecStep ho1 _ _ _ hj, rfl⟩

theorem lshEffect_alike (h : SameBits s.par.w D s.em m) (d : Nat) (ho : (s.handle hd).OperandIn s.par D)
    (ho1 : (s.handle hs1).OperandIn s.par D) (hfree : (s.handle hd).OverhangFree s.par.w D)
    (h1 : (s.handle hs1).lengthBits = (s.handle hd).lengthBits) (ovh ovh' : Nat) :
    (lshEffect ovh hd hs1 s).Alike D (lshEffect ovh' hd hs1 (s.setHidden m d)) := by
  have hfill := h.fillDown (base := (s.handle hd).first) (n := (s.handle hd).lengthElements) fun k hk m m' hm b hb =>
    hm.lshElem_testBit ho1 (s.pos / s.par.w) (s.pos % s.par.w) (k := k) (h1 ▸ hfree hk hb)
  exact ⟨hfill.drawOverhang ho hfree ovh ovh', rfl⟩

theorem rshEffect_alike (h : SameBits s.par.w D s.em m) (d : Nat) (ho : (s.handle hd).OperandIn s.par D)
    (ho1 : (s.handle hs1).OperandIn s.par D) (hfree : (s.handle hd).OverhangFree s.par.w D) (ovh ovh' : Nat) :
    (rshEffect ovh hd hs1 s).Alike D (rshEffect ovh' hd hs1 (s.setHidden m d)) := by
  have hfill := h.fillUp (base := (s.handle hd).first) (n := (s.handle hd).lengthElements) fun k _ m m' hm b _ =>
    congrArg (·.testBit b) (hm.rshElem_eq ho1 (s.pos / s.par.w) (s.pos % s.par.w) k)
  exact ⟨hfill.drawOverhang ho hfree ovh ovh', rfl⟩

/-- ADD writes `CARRY` as well: the boundary bit of the sum or the carry of the last step (R143). -/
theorem addEffect_alike (h : SameBits s.par.w D s.em m) (d : Nat) (ho : (s.handle hd).OperandIn s.par D)
    (ho1 : (s.handle hs1).OperandIn s.par D) (ho2 : (s.handle hs2).OperandIn s.par D)
    (h1 : (s.handle hs1).lengthBits = (s.handle hd).lengthBits)
    (h2 : (s.handle hs2).lengthBits = (s.handle hd).lengthBits) (hpos : 0 < (s.handle hd).lengthBits) (cin : Bool) :
    (addEffect hd hs1 hs2 cin s).Alike D (addEffect hd hs1 hs2 cin (s.setHidden m d)) := by
  have hn := ho1.geometry.lengthElements_congr ho.geometry h1
  have hnpos := (ho.geometry.last_eq ho.width hpos).1
  obtain ⟨⟨hmemory, hcarry⟩, hlast⟩ := h.addChain ho1 ho2 (h2.trans h1.symm) (hn ▸ hnpos) (s.handle hd) cin
  rw [hn] at hlast
  have hout := congrArg₂ (carryOut (s.handle hd).bme) hlast.symm hcarry.symm
  exact ⟨hmemory, congrArg (fun c =>
    ((addEffect hd hs1 hs2 cin s).setHidden (addEffect hd hs1 hs2 cin (s.setHidden m d)).em d).setCarry c) hout⟩

/-- Every command's effect leads alike states to alike states: each of the twenty by the lemma about its datapath. -/
theorem effectOf_alike (hs : s.Inv) (hc : firstCause (checksOf i s) = none)
    (h : SameBits s.par.w (s.declaredBits i) s.em m) (d : Nat) :
    (effectOf i s).Alike (s.declaredBits i) (effectOf i (s.setHidden m d)) := by
  have ho : ∀ x ∈ operandsOf i, (s.handle x).OperandIn s.par (s.declaredBits i) :=
    fun x hx => operandIn_declaredBits hs hc hx
  cases i with
  | init hd | setlen hd => exact ⟨h, rfl⟩
  | setbit hd => exact modifyBit_alike h d bitLocal_or
  | clrbit hd => exact modifyBit_alike h d fun mask => bitLocal_and (compl s.par.w mask)
  | tglbit hd => exact modifyBit_alike h d bitLocal_xor
  | rdbit hd =>
    have hpos := (indexInRange_iff s hd).1 (check_holds hc (by simp [checksOf, singleBitChecks]))
    have hbit := h.bits ((ho hd (.head _)).declared ⟨s.pos, hpos, rfl⟩)
    exact ⟨h, congrArg (s.setHidden m d).setRbit hbit.symm⟩
  | clrall hd => exact fillArray_alike h d 0
  | setall hd => exact fillArray_alike h d (ones s.par.w)
  | setsec hd => exact ⟨h.sectionRun _ _ _ bitLocal_or, rfl⟩
  | clrsec hd => exact ⟨h.sectionRun _ _ _ fun mask => bitLocal_and (compl s.par.w mask), rfl⟩
  | lastval hd =>
    have hpos := (notEmpty_iff s hd).1 (check_holds hc (by simp [checksOf]))
    have hvalue := h.lastValue_eq (ho hd (.head _)) hpos
    exact ⟨h, congrArg (s.setHidden m d).setRval hvalue.symm⟩
  | rdsec hd hs1 =>
    have hfits := (sectionInRange_iff s (s.handle hd).lengthBits hs1).1 (check_holds hc (by simp [checksOf]))
    have hfree := overhangFree_of_aliasing (hd := hd) (sources := [hs1]) (rel := disjoint) hs hc ⟨rfl, rfl⟩
      (fun _ _ => disjointOrCoincide_of_disjoint) (by simp [checksOf])
    exact rdsecEffect_alike h d (ho hd (.head _)) (ho hs1 (.tail _ (.head _))) hfree hfits _ _ _ _
  | wrsec hd hs1 => exact wrsecEffect_alike h d (ho hs1 (.tail _ (.head _)))
  | and hd hs1 hs2 | or hd hs1 hs2 | xor hd hs1 hs2 =>
    have hlengths := (lengthsAgree_iff s hd [hs1, hs2]).1 (check_holds hc (by simp [checksOf, bitwiseChecks]))
    have hfree := overhangFree_of_aliasing (hd := hd) (sources := [hs1, hs2]) hs hc ⟨rfl, rfl⟩
      (fun _ _ => id) (by simp [checksOf, bitwiseChecks])
    exact bitwise2_alike h d hfree (ho hs1 (.tail _ (.head _))) (ho hs2 (.tail _ (.tail _ (.head _))))
      (hlengths hs1 (.head _)) (hlengths hs2 (.tail _ (.head _)))
      fun _ _ _ _ _ hx hy => by simp only [Nat.testBit_and, Nat.testBit_or, Nat.testBit_xor, hx, hy]
  | not hd hs1 =>
    have hlengths := (lengthsAgree_iff s hd [hs1]).1 (check_holds hc (by simp [checksOf, bitwiseChecks]))
    have hfree := overhangFree_of_aliasing (hd := hd) (sources := [hs1]) hs hc ⟨rfl, rfl⟩
      (fun _ _ => id) (by simp [checksOf, bitwiseChecks])
    exact not_alike h d hfree (ho hs1 (.tail _ (.head _))) (hlengths hs1 (.head _))
  | add hd hs1 hs2 cin =>
    have hpos := (notEmpty_iff s hd).1 (check_holds hc (by simp [checksOf]))
    have hlengths := (lengthsAgree_iff s hd [hs1, hs2]).1 (check_holds hc (by simp [checksOf]))
    exact addEffect_alike h d (ho hd (.head _)) (ho hs1 (.tail _ (.head _))) (ho hs2 (.tail _ (.tail _ (.head _))))
      (hlengths hs1 (.head _)) (hlengths hs2 (.tail _ (.head _))) hpos cin
  | lsh hd hs1 =>
    have hlengths := (lengthsAgree_iff s hd [hs1]).1 (check_holds hc (by simp [checksOf, shiftChecks]))
    have hfree := overhangFree_of_aliasing (hd := hd) (sources := [hs1]) hs hc ⟨rfl, rfl⟩
      (fun _ _ => id) (by simp [checksOf, shiftChecks])
    exact lshEffect_alike h d (ho hd (.head _)) (ho hs1 (.tail _ (.head _))) hfree (hlengths hs1 (.head _)) _ _
  | rsh hd hs1 =>
    have hfree := overhangFree_of_aliasing (hd := hd) (sources := [hs1]) hs hc ⟨rfl, rfl⟩
      (fun _ _ => id) (by simp [checksOf, shiftChecks])
    exact rshEffect_alike h d (ho hd (.head _)) (ho hs1 (.tail _ (.head _))) hfree _ _

theorem checksOf_setHidden (m : Memory) (d : Nat) : checksOf i (s.setHidden m d) = checksOf i s := by cases i <;> rfl

/-- Noninterference of a whole command: its checks read no element and no draw. -/
theorem exec_alike {t : State} (hs : s.Inv) (h : SameBits s.par.w (s.declaredBits i) s.em m) (d : Nat)
    (hexec : exec i s = .next t) : ∃ t', exec i (s.setHidden m d) = .next t' ∧ t.Alike (s.declaredBits i) t' := by
  rw [exec_eq_runCommand] at hexec ⊢
  obtain ⟨c, hc, rfl⟩ | ⟨hc, hconsistent, rfl⟩ := runCommand_next hexec
  · exact ⟨_, runCommand_raises ((congrArg _ (checksOf_setHidden m d)).trans hc), h, rfl⟩
  · obtain ⟨hmemory, hrest⟩ := effectOf_alike hs hc h d
    exact ⟨_, runCommand_completes ((congrArg _ (checksOf_setHidden m d)).trans hc) (List.all_eq_true.1 hconsistent),
      hmemory, by rw [hrest]; rfl⟩

end Effects

/-- Settles O16: `exec_alike` for the declared bits of the named arrays; only INIT and SETLEN write a handle, so the
same bits are declared afterwards. -/
theorem overhangBitsNeverReachDeclaredBits : Obligations.OverhangBitsNeverReachDeclaredBits := by
  intro i s t m d hs hm hinit hsetlen hexec habit
  have hsame : SameBits s.par.w (s.declaredBits i) s.em m := by
    refine ⟨hs.memory.read_lt, hm.read_lt, ?_⟩
    rintro k b ⟨h, hmem, u, hu, hx⟩
    obtain ⟨rfl, rfl⟩ := Prod.mk.inj hx
    exact (habit h hmem u hu).symm
  obtain ⟨t', hexec', hmemory, hrest⟩ := exec_alike hs hsame d hexec
  refine ⟨t'.em, t'.drawn, hexec'.trans (congrArg _ hrest), fun h hmem u hu => ?_⟩
  have hhandle : t.handle h = s.handle h :=
    (handlesAreWrittenOnlyByInitAndSetlen.1 i s t hexec).1 h ⟨hinit h, hsetlen h⟩
  have hbit := hmemory.bits ⟨h, hmem, u, hu, rfl⟩
  show (emRead t'.em ((t.handle h).first + u / t.par.w)).testBit (u % t.par.w) =
    (emRead t.em ((t.handle h).first + u / t.par.w)).testBit (u % t.par.w)
  rw [hhandle, exec_par hexec]
  exact hbit.symm

end Sys2Proof.Machine

/-! PROOFS. The statements of 30_encoding.md. What `decode` does with a word whose `op` is that of a command is said
once (`decode_of_op`), in terms of the word's fields; the round trips, the selection by mask and match, and
which words are illegal follow from it. -/

namespace Sys2Proof

open Machine

variable {cw : CommandWord} {i : Instr}

/-! ### A word is its fields (R71) -/

/-- Putting the six fields of a word side by side gives the word. -/
theorem append_fields (cw : CommandWord) :
    rsvField cw ++ (cinField cw ++ (hs2Field cw ++ (hs1Field cw ++ (hdField cw ++ opField cw)))) = cw := by
  simp only [rsvField, cinField, hs2Field, hs1Field, hdField, opField,
    BitVec.extractLsb'_append_extractLsb'_eq_extractLsb', BitVec.extractLsb'_eq_self]

/-- Two words are the same when they agree on every field. -/
theorem word_eq_iff_fields (a b : CommandWord) : a = b ↔ opField a = opField b ∧ hdField a = hdField b ∧
    hs1Field a = hs1Field b ∧ hs2Field a = hs2Field b ∧ cinField a = cinField b ∧ rsvField a = rsvField b := by
  constructor
  · rintro rfl
    exact ⟨rfl, rfl, rfl, rfl, rfl, rfl⟩
  · rintro ⟨hop, hhd, hhs1, hhs2, hcin, hrsv⟩
    rw [← append_fields a, ← append_fields b, hop, hhd, hhs1, hhs2, hcin, hrsv]

/-- A one-bit field is its value as a Boolean. -/
theorem ofBool_beq_one (c : BitVec 1) : BitVec.ofBool (c == 1) = c := by
  revert c
  decide

theorem beq_one_ofBool (b : Bool) : (BitVec.ofBool b == 1#1) = b := by cases b <;> rfl

/-- A word without reserved bits is laid out from its other fields. -/
theorem layOut_fields (hrsv : rsvField cw = 0) :
    layOut (opField cw) (hdField cw) (hs1Field cw) (hs2Field cw) (cinField cw == 1) = cw := by
  rw [layOut, ofBool_beq_one, ← hrsv, append_fields]

/-- The word with a byte in `op` and 0 in every other field. -/
theorem setWidth_eq_layOut (b : BitVec 8) : b.setWidth 32 = layOut b 0 0 0 false := by
  rw [layOut_eq_fieldsWord]
  apply BitVec.eq_of_toNat_eq
  simp [fieldsWord]

/-- Masking to an `op` byte `b` compares the fields one by one: the masked `op` with `b`, the others with 0. -/
theorem and_eq_setWidth_iff (cw mask : CommandWord) (b : BitVec 8) : cw &&& mask = b.setWidth 32 ↔
    opField cw &&& opField mask = b ∧ hdField cw &&& hdField mask = 0 ∧ hs1Field cw &&& hs1Field mask = 0 ∧
      hs2Field cw &&& hs2Field mask = 0 ∧ cinField cw &&& cinField mask = 0 ∧ rsvField cw &&& rsvField mask = 0 := by
  rw [setWidth_eq_layOut, word_eq_iff_fields, Laws.opField_layOut, Laws.hdField_layOut, Laws.hs1Field_layOut,
    Laws.hs2Field_layOut, Laws.cinField_layOut, Laws.rsvField_layOut]
  simp only [opField, hdField, hs1Field, hs2Field, cinField, rsvField, BitVec.extractLsb'_and]
  rfl

/-! ### What the decoder asks of a word (R72, R75) -/

/-- The fields that the format of `i` does not use are 0 in the word (R75). -/
abbrev Instr.UnusedFieldsZero (i : Instr) (cw : CommandWord) : Prop :=
  (i.selectors.length < 2 → hs1Field cw = 0) ∧ (i.selectors.length < 3 → hs2Field cw = 0) ∧
    (usesCin i = false → cinField cw = 0)

/-- The word lies in the row of `i`: its reserved bits are 0, its `op` is that of `i`, and the fields that the format of
`i` does not use are 0 (R72, R75). -/
structure Instr.InRow (i : Instr) (cw : CommandWord) : Prop where
  reserved : rsvField cw = 0
  op : opField cw = i.op
  unused : i.UnusedFieldsZero cw

/-- The command with the name of `i` whose selectors and carry-in are those of the word. -/
def Instr.readFrom (i : Instr) (cw : CommandWord) : Instr :=
  match i with
  | .init _ => .init (hdField cw)
  | .setlen _ => .setlen (hdField cw)
  | .setbit _ => .setbit (hdField cw)
  | .clrbit _ => .clrbit (hdField cw)
  | .tglbit _ => .tglbit (hdField cw)
  | .rdbit _ => .rdbit (hdField cw)
  | .clrall _ => .clrall (hdField cw)
  | .setall _ => .setall (hdField cw)
  | .setsec _ => .setsec (hdField cw)
  | .clrsec _ => .clrsec (hdField cw)
  | .lastval _ => .lastval (hdField cw)
  | .rdsec _ _ => .rdsec (hdField cw) (hs1Field cw)
  | .wrsec _ _ => .wrsec (hdField cw) (hs1Field cw)
  | .and _ _ _ => .and (hdField cw) (hs1Field cw) (hs2Field cw)
  | .or _ _ _ => .or (hdField cw) (hs1Field cw) (hs2Field cw)
  | .xor _ _ _ => .xor (hdField cw) (hs1Field cw) (hs2Field cw)
  | .not _ _ => .not (hdField cw) (hs1Field cw)
  | .add _ _ _ _ => .add (hdField cw) (hs1Field cw) (hs2Field cw) (cinField cw == 1)
  | .lsh _ _ => .lsh (hdField cw) (hs1Field cw)
  | .rsh _ _ => .rsh (hdField cw) (hs1Field cw)

@[simp] theorem Instr.readFrom_op (i : Instr) (cw : CommandWord) : (i.readFrom cw).op = i.op := by
  cases i <;> rfl

/-- The tie to the model: the decoder on a word with the `op` of a command. -/
theorem decode_of_op (hrsv : rsvField cw = 0) (hop : opField cw = i.op) :
    decode cw = if i.UnusedFieldsZero cw then .ok (i.readFrom cw) else .error .unusedFieldSet := by
  cases i <;>
    simp [decode, hrsv, hop, Instr.op, Instr.UnusedFieldsZero, Instr.selectors, usesCin, decodeF1, decodeF2,
      decodeF3, decodeF3C, Instr.readFrom]

theorem Instr.InRow.decode_eq (h : i.InRow cw) : decode cw = .ok (i.readFrom cw) := by
  rw [decode_of_op h.reserved h.op, if_pos h.unused]

/-- A word that decodes has no reserved bit set and the `op` of its command. -/
theorem op_of_decode (h : decode cw = .ok i) : rsvField cw = 0 ∧ opField cw = i.op := by
  unfold decode at h
  split at h
  case isFalse => exact nomatch h
  case isTrue hrsv =>
    refine ⟨hrsv, BitVec.eq_of_toNat_eq ?_⟩
    simp only [decodeF1, decodeF2, decodeF3, decodeF3C] at h
    -- One goal for each arm's answer: an error is no command, a command is that of the arm's `op`.
    repeat' split at h
    all_goals cases h <;> assumption

/-- The decoder reads a command from a word when the word lies in the command's row and holds its selectors. -/
theorem decode_eq_ok_iff (cw : CommandWord) (i : Instr) :
    decode cw = .ok i ↔ i.InRow cw ∧ i.readFrom cw = i := by
  constructor
  · intro h
    obtain ⟨hrsv, hop⟩ := op_of_decode h
    rw [decode_of_op hrsv hop] at h
    split at h
    · next hunused => exact ⟨⟨hrsv, hop, hunused⟩, Except.ok.inj h⟩
    · exact nomatch h
  · rintro ⟨hrow, hread⟩
    rw [hrow.decode_eq, hread]

/-! ### The round trips (R71, R74, D15) -/

/-- The encoder puts a command in its own row. -/
theorem encode_inRow (i : Instr) : i.InRow (encode i) := by
  constructor <;> cases i <;>
    simp [encode, Instr.UnusedFieldsZero, Instr.selectors, usesCin, Laws.rsvField_layOut, Laws.opField_layOut,
      Laws.hs1Field_layOut, Laws.hs2Field_layOut, Laws.cinField_layOut]

/-- The fields of a command's word are the command's. -/
theorem readFrom_encode (i : Instr) : i.readFrom (encode i) = i := by
  cases i <;>
    simp [encode, Instr.readFrom, Laws.hdField_layOut, Laws.hs1Field_layOut, Laws.hs2Field_layOut,
      Laws.cinField_layOut, beq_one_ofBool]

/-- Settles O1: the word of a command lies in the command's row and holds its selectors. -/
theorem decodeOfEncodeIsTheCommand : Obligations.DecodeOfEncodeIsTheCommand :=
  fun i => (decode_eq_ok_iff (encode i) i).2 ⟨encode_inRow i, readFrom_encode i⟩

/-- The encoder writes 0 into the fields that the format does not use and copies the others. -/
theorem encode_readFrom (i : Instr) (cw : CommandWord) : encode (i.readFrom cw) =
    layOut i.op (hdField cw) (if i.selectors.length < 2 then 0 else hs1Field cw)
      (if i.selectors.length < 3 then 0 else hs2Field cw) (if usesCin i = false then false else cinField cw == 1) := by
  cases i <;> rfl

/-- Settles O2: a decoded word has 0 wherever the encoder writes 0. -/
theorem encodeOfDecodeIsTheWord : Obligations.EncodeOfDecodeIsTheWord := by
  intro cw i h
  obtain ⟨⟨hrsv, hop, hhs1, hhs2, hcin⟩, hread⟩ := (decode_eq_ok_iff cw i).1 h
  have hcin' : usesCin i = false → false = (cinField cw == 1) := fun hi => by rw [hcin hi]; rfl
  calc
    encode i = encode (i.readFrom cw) := by rw [hread]
    _ = layOut (opField cw) (hdField cw) (hs1Field cw) (hs2Field cw) (cinField cw == 1) := by
      rw [encode_readFrom, ite_eq_right_iff.2 fun hi => (hhs1 hi).symm, ite_eq_right_iff.2 fun hi => (hhs2 hi).symm,
        ite_eq_right_iff.2 hcin', hop]
    _ = cw := layOut_fields hrsv

/-! ### Selection by mask and match (R72) -/

theorem and_ite_allOnes_eq_zero_iff {n : Nat} (x : BitVec n) (c : Prop) [Decidable c] :
    x &&& (if c then BitVec.allOnes n else 0) = 0 ↔ (c → x = 0) := by
  split <;> simp_all

/-- A command's mask covers the reserved bits, `op` and the fields that its format does not use. -/
theorem formatMask_fields (i : Instr) : opField i.formatMask = BitVec.allOnes 8 ∧ hdField i.formatMask = 0 ∧
    hs1Field i.formatMask = (if i.selectors.length < 2 then BitVec.allOnes 4 else 0) ∧
    hs2Field i.formatMask = (if i.selectors.length < 3 then BitVec.allOnes 4 else 0) ∧
    cinField i.formatMask = (if usesCin i = false then BitVec.allOnes 1 else 0) ∧
    rsvField i.formatMask = BitVec.allOnes 11 := by
  cases i <;>
    simp only [Instr.formatMask, Instr.selectors, usesCin, List.length_cons, List.length_nil, Nat.reduceAdd,
      Nat.reduceLT, reduceCtorEq, reduceIte] <;>
    decide

/-- A word meets the mask and match of a command when it is in the command's row. -/
theorem and_formatMask_eq_iff (cw : CommandWord) (i : Instr) : cw &&& i.formatMask = i.formatMatch ↔ i.InRow cw := by
  obtain ⟨hop, hhd, hhs1, hhs2, hcin, hrsv⟩ := formatMask_fields i
  rw [Instr.formatMatch, and_eq_setWidth_iff, hop, hhd, hhs1, hhs2, hcin, hrsv]
  have hzero : hdField cw &&& 0 = 0 := BitVec.and_zero
  simp only [and_ite_allOnes_eq_zero_iff, BitVec.and_allOnes, hzero, true_and]
  exact ⟨fun ⟨hop, hhs1, hhs2, hcin, hrsv⟩ => ⟨hrsv, hop, hhs1, hhs2, hcin⟩,
    fun ⟨hrsv, hop, hhs1, hhs2, hcin⟩ => ⟨hop, hhs1, hhs2, hcin, hrsv⟩⟩

/-- Settles O3: the words that the mask and match of a command select are those of its row, which decode to its `op`. -/
theorem wordSelectsCommandByMaskAndMatch : Obligations.WordSelectsCommandByMaskAndMatch := by
  refine ⟨fun cw i hdecode => ?_, fun cw i hmatch => ?_⟩
  · have hrow : i.InRow cw := ((decode_eq_ok_iff cw i).1 hdecode).1
    exact (and_formatMask_eq_iff cw i).2 hrow
  · have hrow : i.InRow cw := (and_formatMask_eq_iff cw i).1 hmatch
    exact ⟨i.readFrom cw, hrow.decode_eq, i.readFrom_op cw⟩

/-- Settles O4: the decoder evaluated on the eight words. -/
theorem listedWordsDecode : Obligations.ListedWordsDecode := by
  unfold Obligations.ListedWordsDecode
  decide

end Sys2Proof

namespace Sys2Proof.Machine

variable {s : State} {cw : CommandWord} {i : Instr} {rest : List HostAction}

/-! ### Issuing a command word (R70, R75) -/

theorem step_issue (hhost : s.host = .issue cw :: rest) : step s = issueWord cw { s with host := rest } := by
  unfold step hostStep
  rw [hhost]
  rfl

theorem issueWord_of_decode_ok (s : State) (h : decode cw = .ok i) : issueWord cw s = exec i s := by
  rw [issueWord, h]

theorem issueWord_of_decode_error (s : State) {e : DecodeError} (h : decode cw = .error e) :
    issueWord cw s = .next (s.raise .illegalCommand) := by
  rw [issueWord, h]

/-- Settles O6: the step issues the word, and the word runs its command. -/
theorem stepRunsTheDecodedCommand : Obligations.StepRunsTheDecodedCommand := by
  intro s cw rest i hhost hdecode _
  rw [step_issue hhost, issueWord_of_decode_ok _ hdecode]

/-- Every command checks its selectors first (R164). -/
theorem checksOf_eq_selectorsLegal_cons (i : Instr) (s : State) :
    ∃ others, checksOf i s = selectorsLegal s i.selectors :: others := by
  cases i <;> exact ⟨_, rfl⟩

/-- A command that names a handle register the block does not have is illegal (R75). -/
theorem exec_of_not_legal (h : ¬ s.legal i.selectors) : exec i s = .next (s.raise .illegalCommand) := by
  obtain ⟨others, hchecks⟩ := checksOf_eq_selectorsLegal_cons i s
  have hfails : (selectorsLegal s i.selectors).1 = false := by
    rwa [← Bool.not_eq_true, selectorsLegal_iff]
  rw [exec_eq_runCommand]
  exact runCommand_raises (by rw [hchecks]; exact firstCause_cons_false hfails _ _)

/-- The selectors read from a word are below `NH` when the fields that the format uses are. -/
theorem wf_readFrom_iff (nh : Nat) (i : Instr) (cw : CommandWord) : (i.readFrom cw).wf nh ↔
    (hdField cw).toNat < nh ∧ (2 ≤ i.selectors.length → (hs1Field cw).toNat < nh) ∧
      (3 ≤ i.selectors.length → (hs2Field cw).toNat < nh) := by
  cases i <;> simp [Instr.wf, Instr.readFrom, Instr.selectors]

/-- R75's list, negated clause by clause. -/
theorem not_illegalWord_iff_fields (nh : Nat) (cw : CommandWord) : ¬ illegalWord nh cw ↔
    (∃ i : Instr, opField cw = i.op) ∧ rsvField cw = 0 ∧
      ∀ i : Instr, opField cw = i.op → i.UnusedFieldsZero cw ∧ (i.readFrom cw).wf nh := by
  simp only [illegalWord, wf_readFrom_iff, Instr.UnusedFieldsZero, not_or, not_forall, not_exists, not_and, not_not,
    ne_eq, Nat.not_le, and_assoc]

/-- "Every 32-bit word is either one of the twenty commands or illegal" (R75). -/
theorem not_illegalWord_iff (nh : Nat) (cw : CommandWord) :
    ¬ illegalWord nh cw ↔ ∃ i : Instr, i.wf nh ∧ decode cw = .ok i := by
  rw [not_illegalWord_iff_fields]
  constructor
  · rintro ⟨⟨i, hop⟩, hrsv, hfields⟩
    obtain ⟨hunused, hwf⟩ := hfields i hop
    exact ⟨i.readFrom cw, hwf, Instr.InRow.decode_eq ⟨hrsv, hop, hunused⟩⟩
  · rintro ⟨i, hwf, hdecode⟩
    obtain ⟨hrsv, hop⟩ := op_of_decode hdecode
    refine ⟨⟨i, hop⟩, hrsv, fun j hj => ?_⟩
    rw [decode_of_op hrsv hj] at hdecode
    split at hdecode
    · next hunused => exact ⟨hunused, Except.ok.inj hdecode ▸ hwf⟩
    · exact nomatch hdecode

/-- Settles O5: an illegal word does not decode, or it decodes to a command whose first check fails. -/
theorem illegalWordsRaiseAndLegalWordsRun : Obligations.IllegalWordsRaiseAndLegalWordsRun := by
  intro s cw rest hhost
  rw [step_issue hhost]
  refine ⟨fun hillegal => ?_, fun hlegal => ?_⟩
  · cases hdecode : decode cw with
    | error e => exact issueWord_of_decode_error _ hdecode
    | ok i =>
      have hwf : ¬ i.wf s.par.nh := fun hwf => (not_illegalWord_iff s.par.nh cw).2 ⟨i, hwf, hdecode⟩ hillegal
      rw [issueWord_of_decode_ok _ hdecode]
      exact exec_of_not_legal (s := { s with host := rest }) hwf
  · obtain ⟨i, hwf, hdecode⟩ := (not_illegalWord_iff s.par.nh cw).1 hlegal
    exact ⟨i, hwf, hdecode, issueWord_of_decode_ok _ hdecode⟩

end Sys2Proof.Machine

/-! PROOFS. The statements of 40_handle.md. First what the contract of any command needs: its word decodes, and its
chain of preconditions follows its checks. Then the handle that INIT and SETLEN leave (R92, R93). -/

namespace Sys2Proof.Machine

variable {i : Instr} {s : State}

/-! ### The contract of a command (R71, R164) -/

/-- The word with a command's fields at their places decodes to the command. -/
theorem decode_fieldsWord {op : BitVec 8} {hd hs1 hs2 : HSel} {cin : Bool} (h : encode i = layOut op hd hs1 hs2 cin) :
    decode (fieldsWord op.toNat hd hs1 hs2 cin) = .ok i := by
  rw [← layOut_eq_fieldsWord, ← h, decodeOfEncodeIsTheCommand]

/-- One link of a contract's chain: `P`, the first check that is left, decides whether its cause is raised; where `P`
holds, the checks after it decide. -/
theorem contract_link {x : Bool × Cause} {rest : List (Bool × Cause)} {P A : Prop} [Decidable P]
    (hleft : firstCause (checksOf i s) = firstCause (x :: rest)) (hx : x.1 = true ↔ P)
    (hrest : P → firstCause (checksOf i s) = firstCause rest → A) : if ¬ P then raises i s x.2 else A := by
  split
  · next hP =>
    have hfails : x.1 = false := Bool.eq_false_iff.2 fun h => hP (hx.1 h)
    exact (exec_eq_runCommand i s).trans (runCommand_raises (hleft.trans (firstCause_cons_false hfails _ _)))
  · next hP =>
    have hholds : P := not_not.1 hP
    exact hrest hholds (hleft.trans (firstCause_cons_true (hx.2 hholds) _ _))

/-- A command whose checks all hold completes. -/
theorem exec_completes (hs : s.Inv) (hc : firstCause (checksOf i s) = none) :
    exec i s = .next (effectOf i s).complete := by
  obtain ⟨c, hfails, -⟩ | ⟨-, hexec⟩ := exec_raises_or_completes i hs
  · exact nomatch hc.symm.trans hfails
  · exact hexec

/-! ### The handle that is written (R90, R92, R93) -/

/-- SETLEN on a bound handle writes it with the geometry of `LEN` bits over the storage it has. -/
theorem effectOf_setlen {hd : HSel} (hbound : s.allBound [hd]) :
    effectOf (.setlen hd) s = s.setHandle hd (geom s.par.w (s.handle hd).first s.len) := by
  rw [effectOf, hbound hd (List.mem_singleton_self hd)]
  rfl

/-- What a command leaves that completes by writing one handle with the geometry of `LEN` bits at `first`. -/
theorem completes_binding {hd : HSel} {first : Nat} (hs : s.Inv) (hlegal : s.legal [hd])
    (hfits : first + (s.len + s.par.w - 1) / s.par.w ≤ s.par.m)
    (hexec : exec i s = .next (s.setHandle hd (geom s.par.w first s.len)).complete) :
    ∃ t, exec i s = .next t ∧ t = { s with handles := t.handles, status := statusCompleted s.status } ∧
      (t.handle hd).bound = true ∧ (t.handle hd).first = first ∧ (t.handle hd).lengthBits = s.len ∧
      GeometryHolds s.par (t.handle hd) ∧ ∀ k, k ≠ hd → t.handle k = s.handle k := by
  have hlt : hd.toNat < s.handles.length := hs.fileSize ▸ hlegal hd (List.mem_singleton_self hd)
  have hgeom : GeometryHolds s.par (geom s.par.w first s.len) := geom_geometryHolds s.par hs.params.1 _ _ hfits
  refine ⟨_, hexec, rfl, ?_⟩
  rw [State.complete_handle, s.setHandle_handle_same hd _ hlt]
  exact ⟨rfl, rfl, rfl, hgeom, fun k hne => s.setHandle_handle_other hd k _ hne⟩

/-- Settles O26: INIT checks its selector, then its storage, and writes the handle with the geometry of `BASE` and
`LEN`. -/
theorem initBindsTheHandle : Obligations.InitBindsTheHandle := by
  intro hd s hs
  refine ⟨decode_fieldsWord (op := 0x10) rfl, ?_⟩
  refine contract_link rfl (selectorsLegal_iff s [hd]) fun hlegal hleft => ?_
  refine contract_link hleft (storageFits_iff s s.base) fun hfits hnone => ?_
  exact completes_binding hs hlegal hfits (exec_completes hs hnone)

/-- Settles O27: SETLEN checks its selector, that the handle is bound, then the storage from the handle's own `first`, and
writes the handle with the geometry of `LEN` there. -/
theorem setlenResizesOverTheSameStorage : Obligations.SetlenResizesOverTheSameStorage := by
  intro hd s hs
  refine ⟨decode_fieldsWord (op := 0x11) rfl, ?_⟩
  refine contract_link rfl (selectorsLegal_iff s [hd]) fun hlegal hleft => ?_
  refine contract_link hleft (handlesBound_iff s [hd]) fun hbound hleft => ?_
  refine contract_link hleft (storageFits_iff s (s.handle hd).first) fun hfits hnone => ?_
  have hexec := exec_completes hs hnone
  rw [effectOf_setlen hbound] at hexec
  exact completes_binding hs hlegal hfits hexec

end Sys2Proof.Machine

/-! PROOFS. The statements of 41_bit_manipulator.md. First what the contracts share: their first two checks, and how a
command ends that writes the element memory alone. Then the single-bit commands, the fills, the section commands (each
mask of R109 covers an interval of bits, and adjacent intervals join), LASTVAL, and two commands in a row. -/

namespace Sys2Proof.Machine

variable {i : Instr} {s t : State} {hd : HSel}

/-! ### What the contracts share -/

/-- The chain of a command on one array: the selector, then that the handle is bound, then the checks that are left. -/
theorem array_contract {rest : List (Bool × Cause)} {A : Prop}
    (hchecks : checksOf i s = selectorsLegal s [hd] :: handlesBound s [hd] :: rest)
    (hrest : s.allBound [hd] → firstCause (checksOf i s) = firstCause rest → A) :
    if ¬ s.legal [hd] then raises i s .illegalCommand
    else if ¬ s.allBound [hd] then raises i s .unboundHandle
    else A :=
  contract_link (congrArg firstCause hchecks) (selectorsLegal_iff s [hd]) fun _ hleft =>
    contract_link hleft (handlesBound_iff s [hd]) hrest

/-- A bound operand handle satisfies R24. -/
theorem State.Inv.geometryOf_bound (hs : s.Inv) (hbound : s.allBound [hd]) : GeometryHolds s.par (s.handle hd) :=
  hs.geometryOf hd (hbound hd (List.mem_singleton_self hd))

/-- How a command ends whose effect is a write of the element memory alone. -/
theorem completesInMemory_setEm {m : Memory} (hs : s.Inv) (hnone : firstCause (checksOf i s) = none)
    (heffect : effectOf i s = s.setEm m) : completesInMemory i s (s.setEm m).complete :=
  ⟨heffect ▸ exec_completes hs hnone, rfl⟩

/-- A completing command on one array leaves the elements outside its range (R22). -/
theorem exec_frame_of_selectors_eq (hs : s.Inv) (hexec : exec i s = .next t) (hsel : i.selectors = [hd]) {k : Nat}
    (hk : ¬ s.inRange hd k) : emRead t.em k = emRead s.em k :=
  commandsReachOnlyOperandRanges.1 i s t hs hexec k fun _ hmem => List.mem_singleton.1 (hsel ▸ hmem) ▸ hk

/-- A command that ends without an error has applied its effect. -/
theorem exec_next_of_noErr (h : exec i s = .next t) (hok : statusErr t.status = false) :
    firstCause (checksOf i s) = none ∧ t = (effectOf i s).complete := by
  obtain ⟨c, -, rfl⟩ | hcompletes := exec_next h
  · simp at hok
  · exact hcompletes

/-! ### The single-bit commands (R100 to R104) -/

/-- The chain of a single-bit command (R100). -/
theorem singleBit_contract {A : Prop} (hchecks : checksOf i s = singleBitChecks s hd)
    (hrest : s.allBound [hd] → s.pos < (s.handle hd).lengthBits → firstCause (checksOf i s) = none → A) :
    if ¬ s.legal [hd] then raises i s .illegalCommand
    else if ¬ s.allBound [hd] then raises i s .unboundHandle
    else if ¬ s.pos < (s.handle hd).lengthBits then raises i s .indexRange
    else A :=
  array_contract hchecks fun hbound hleft => contract_link hleft (indexInRange_iff s hd) (hrest hbound)

/-- The element of bit `POS` holds the changed value after the read-modify-write, cut to `W` bits (R53). -/
theorem modifyBit_read_same (s : State) (hd : HSel) (change : Elem → Elem → Elem) :
    emRead (modifyBit s hd change).em ((s.handle hd).first + s.pos / s.par.w) =
      change (emRead s.em ((s.handle hd).first + s.pos / s.par.w)) (2 ^ (s.pos % s.par.w)) % 2 ^ s.par.w :=
  emRead_emWrite_same _ _ _ _

theorem modifyBit_read_ne (s : State) (hd : HSel) (change : Elem → Elem → Elem) {k : Nat}
    (hk : k ≠ (s.handle hd).first + s.pos / s.par.w) : emRead (modifyBit s hd change).em k = emRead s.em k :=
  emRead_emWrite_ne _ _ _ _ _ hk

/-- The contract of a single-bit command that writes, for a change that gives a `W`-bit element. -/
theorem modifyBit_contract {change : Elem → Elem → Elem} (hs : s.Inv)
    (hchecks : checksOf i s = singleBitChecks s hd) (heffect : effectOf i s = modifyBit s hd change)
    (hfits : ∀ v < 2 ^ s.par.w, change v (2 ^ (s.pos % s.par.w)) < 2 ^ s.par.w) :
    if ¬ s.legal [hd] then raises i s .illegalCommand
    else if ¬ s.allBound [hd] then raises i s .unboundHandle
    else if ¬ s.pos < (s.handle hd).lengthBits then raises i s .indexRange
    else ∃ t, completesInMemory i s t ∧
      emRead t.em ((s.handle hd).first + s.pos / s.par.w) =
        change (emRead s.em ((s.handle hd).first + s.pos / s.par.w)) (2 ^ (s.pos % s.par.w)) ∧
      ∀ k, k ≠ (s.handle hd).first + s.pos / s.par.w → emRead t.em k = emRead s.em k :=
  singleBit_contract hchecks fun _ _ hnone =>
    ⟨_, completesInMemory_setEm hs hnone heffect,
      (modifyBit_read_same s hd change).trans (Nat.mod_eq_of_lt (hfits _ (hs.memory.read_lt _))),
      fun _ hk => modifyBit_read_ne s hd change hk⟩

/-- Settles O28: an element with one more bit below `W` set is an element. -/
theorem setbitSetsTheBitAtPos : Obligations.SetbitSetsTheBitAtPos := fun _ _ hs =>
  ⟨decode_fieldsWord (op := 0x20) rfl,
    modifyBit_contract hs rfl rfl fun _ hv => Nat.or_lt_two_pow hv (bitMask_lt _ _ hs.params.1)⟩

/-- Settles O29: a part of an element is an element. -/
theorem clrbitClearsTheBitAtPos : Obligations.ClrbitClearsTheBitAtPos := fun _ s hs =>
  ⟨decode_fieldsWord (op := 0x21) rfl,
    modifyBit_contract (change := fun v m => v &&& compl s.par.w m) hs rfl rfl
      fun _ hv => Nat.and_le_left.trans_lt hv⟩

/-- Settles O30: an element with one bit below `W` inverted is an element. -/
theorem tglbitInvertsTheBitAtPos : Obligations.TglbitInvertsTheBitAtPos := fun _ _ hs =>
  ⟨decode_fieldsWord (op := 0x22) rfl,
    modifyBit_contract hs rfl rfl fun _ hv => Nat.xor_lt_two_pow hv (bitMask_lt _ _ hs.params.1)⟩

/-- Settles O31: bit `p` of a number is its quotient by `2^p`, modulo 2. -/
theorem rdbitReadsTheBitAtPos : Obligations.RdbitReadsTheBitAtPos := fun _ _ hs =>
  ⟨decode_fieldsWord (op := 0x23) rfl,
    singleBit_contract rfl fun _ _ hnone => ⟨_, exec_completes hs hnone, rfl, Nat.toNat_testBit _ _⟩⟩

/-! ### The whole-array fills (R105, R106) -/

/-- Every element of the array holds the fill value, cut to `W` bits. -/
theorem fillArray_read_inRange (v : Elem) {k : Nat} (hk : s.inRange hd k) :
    emRead (fillArray s hd v).em k = v % 2 ^ s.par.w := by
  obtain ⟨hfirst, hlimiter⟩ := hk
  have hread := fillUp_read_at (w := s.par.w) (base := (s.handle hd).first) (value := fun _ _ => v) s.em
    (k - (s.handle hd).first) (Nat.sub_lt_sub_right hfirst hlimiter)
  rwa [Nat.add_sub_cancel' hfirst] at hread

/-- The contract of a fill with an element. -/
theorem fillArray_contract {v : Elem} (hs : s.Inv) (hsel : i.selectors = [hd])
    (hchecks : checksOf i s = [selectorsLegal s [hd], handlesBound s [hd]]) (heffect : effectOf i s = fillArray s hd v)
    (hv : v < 2 ^ s.par.w) :
    if ¬ s.legal [hd] then raises i s .illegalCommand
    else if ¬ s.allBound [hd] then raises i s .unboundHandle
    else ∃ t, completesInMemory i s t ∧
      (∀ k, s.inRange hd k → emRead t.em k = v) ∧ ∀ k, ¬ s.inRange hd k → emRead t.em k = emRead s.em k :=
  array_contract hchecks fun _ hnone =>
    have hcompletes := completesInMemory_setEm hs hnone heffect
    ⟨_, hcompletes, fun _ hk => (fillArray_read_inRange v hk).trans (Nat.mod_eq_of_lt hv),
      fun _ hk => exec_frame_of_selectors_eq hs hcompletes.1 hsel hk⟩

/-- Settles O32: the fill with 0. -/
theorem clrallClearsEveryElement : Obligations.ClrallClearsEveryElement := fun _ _ hs =>
  ⟨decode_fieldsWord (op := 0x24) rfl, fillArray_contract hs rfl rfl rfl (Nat.two_pow_pos _)⟩

/-- Settles O33: the fill with `ONES`. -/
theorem setallSetsEveryElement : Obligations.SetallSetsEveryElement := fun _ _ hs =>
  ⟨decode_fieldsWord (op := 0x25) rfl, fillArray_contract hs rfl rfl rfl (ones_lt _)⟩

/-! ### The section commands (R107 to R109) -/

section Runs

variable {w first lo mid hi pos len k : Nat} {x : Bool} {change : Elem → Elem → Elem} {m m' m'' : Memory}

/-- Stored bit `u` of an array that begins at element `first` (R16). -/
def storedBit (w first : Nat) (m : Memory) (u : Nat) : Bool := (emRead m (first + u / w)).testBit (u % w)

/-- From `m` to `m'` the stored bits from `lo` up to `hi` have become `x`, and no other stored bit has changed. -/
def RunWritten (w first lo hi : Nat) (x : Bool) (m m' : Memory) : Prop :=
  ∀ u, storedBit w first m' u = if lo ≤ u ∧ u < hi then x else storedBit w first m u

/-- A run written in the array of a handle, in the bits that the contracts speak of. -/
theorem RunWritten.abit (h : RunWritten s.par.w (s.handle hd).first lo hi x s.em m) (u : Nat) :
    (s.setEm m).complete.abit hd u = if lo ≤ u ∧ u < hi then x else s.abit hd u := h u

/-- The change gives the masked bits of an element the value `x` and leaves the others: `apply` of R109. -/
def WritesMasked (w : Nat) (x : Bool) (change : Elem → Elem → Elem) : Prop :=
  ∀ ⦃v mask : Elem⦄ ⦃b : Nat⦄, mask < 2 ^ w → b < w →
    (change v mask).testBit b = if mask.testBit b then x else v.testBit b

theorem writesMasked_or (w : Nat) : WritesMasked w true (fun v mask => v ||| mask) := by
  intro v mask b _ _
  rw [Nat.testBit_or]
  cases mask.testBit b <;> simp

theorem writesMasked_andCompl (w : Nat) : WritesMasked w false (fun v mask => v &&& compl w mask) := by
  intro v mask b hmask hb
  rw [Nat.testBit_and, testBit_compl w b mask hmask]
  cases mask.testBit b <;> simp [hb]

/-- Runs that meet join into one. -/
theorem RunWritten.trans (hlow : RunWritten w first lo mid x m m') (hhigh : RunWritten w first mid hi x m' m'')
    (hlo : lo ≤ mid) (hhi : mid ≤ hi) : RunWritten w first lo hi x m m'' := by
  intro u
  rw [hhigh u, hlow u, ← ite_or]
  exact if_congr (by omega) rfl rfl

/-- One `apply` of R109 writes the run that its mask covers in element `k`. -/
theorem applyMask_runWritten {mask : Elem} (hw : 1 ≤ w) (hchange : WritesMasked w x change) (hmask : mask < 2 ^ w)
    (hcover : ∀ b < w, mask.testBit b = decide (lo ≤ k * w + b ∧ k * w + b < hi)) (hlo : k * w ≤ lo)
    (hhi : hi ≤ k * w + w) : RunWritten w first lo hi x m (applyMask w first change k mask m) := by
  intro u
  have hmod : u % w < w := Nat.mod_lt u hw
  rw [storedBit, applyMask, emRead_emWrite]
  by_cases hk : u / w = k
  · subst hk
    rw [if_pos rfl, Nat.testBit_mod_two_pow, hchange hmask hmod, hcover _ hmod, Nat.div_add_mod']
    simp [hmod, storedBit]
  · have hout : ¬ (lo ≤ u ∧ u < hi) := fun ⟨hle, hlt⟩ =>
      hk (Nat.div_eq_of_lt_le (hlo.trans hle) (by rw [Nat.succ_mul]; omega))
    rw [if_neg (by omega), if_neg hout, storedBit]

/-- A whole element (R109). -/
theorem applyOnes_runWritten (hw : 1 ≤ w) (hchange : WritesMasked w x change) :
    RunWritten w first (k * w) (k * w + w) x m (applyMask w first change k (ones w) m) := by
  refine applyMask_runWritten hw hchange (ones_lt w) (fun b hb => ?_) le_rfl le_rfl
  rw [testBit_ones]
  simp [hb]

/-- The partial first element (R109). -/
theorem applyFirst_runWritten (hw : 1 ≤ w) (hchange : WritesMasked w x change) :
    RunWritten w first pos (pos / w * w + w) x m
      (applyMask w first change (pos / w) (ones w - lowMask (pos % w)) m) := by
  have hdiv := Nat.div_add_mod' pos w
  have hmod := Nat.mod_lt pos hw
  have hlow : lowMask (pos % w) < 2 ^ w := (lowMask_lt _).trans (Nat.pow_lt_pow_right (by decide) hmod)
  refine applyMask_runWritten hw hchange (compl_lt w _) (fun b hb => ?_) (by omega) le_rfl
  rw [← compl, testBit_compl w b _ hlow, testBit_lowMask, ← decide_not, ← Bool.decide_and]
  exact decide_eq_decide.2 (by omega)

/-- The partial last element (R109). -/
theorem applyLast_runWritten (hw : 1 ≤ w) (hchange : WritesMasked w x change) :
    RunWritten w first (hi / w * w) hi x m (applyMask w first change (hi / w) (lowMask (hi % w)) m) := by
  have hdiv := Nat.div_add_mod' hi w
  have hmod := Nat.mod_lt hi hw
  have hlow : lowMask (hi % w) < 2 ^ w := (lowMask_lt _).trans (Nat.pow_lt_pow_right (by decide) hmod)
  refine applyMask_runWritten hw hchange hlow (fun b hb => ?_) le_rfl (by omega)
  rw [testBit_lowMask]
  exact decide_eq_decide.2 (by omega)

/-- The run that fits in one element (R109, shape (a)). -/
theorem applyOnly_runWritten (hw : 1 ≤ w) (hchange : WritesMasked w x change) (hfits : pos % w + len ≤ w) :
    RunWritten w first pos (pos + len) x m
      (applyMask w first change (pos / w) (if len = w then ones w else lowMask len * 2 ^ (pos % w)) m) := by
  have hdiv := Nat.div_add_mod' pos w
  have hbits : ∀ b, (if len = w then ones w else lowMask len * 2 ^ (pos % w)).testBit b =
      decide (pos % w ≤ b ∧ b < pos % w + len) := by
    intro b
    split
    · rw [testBit_ones]
      exact decide_eq_decide.2 (by omega)
    · rw [testBit_mul_two_pow, testBit_lowMask, ← Bool.decide_and]
      exact decide_eq_decide.2 (by omega)
  have hmask : (if len = w then ones w else lowMask len * 2 ^ (pos % w)) < 2 ^ w :=
    Nat.lt_pow_two_of_testBit _ fun b hb => by rw [hbits]; simp; omega
  refine applyMask_runWritten hw hchange hmask (fun b _ => ?_) (by omega) (by omega)
  rw [hbits]
  exact decide_eq_decide.2 (by omega)

/-- The whole elements between the first and the last (R109), after a run that ends where they begin. -/
theorem applyInterior_runWritten {e n : Nat} (hw : 1 ≤ w) (hchange : WritesMasked w x change) (hlo : lo ≤ e * w)
    (hbefore : RunWritten w first lo (e * w) x m m') :
    RunWritten w first lo ((e + n) * w) x m
      (forUp n (fun j m => applyMask w first change (e + j) (ones w) m) m') := by
  refine forUp_induct (fun j m' => RunWritten w first lo ((e + j) * w) x m m') _ _ n hbefore fun j m' _ hm' => ?_
  have hmul : (e + (j + 1)) * w = (e + j) * w + w := Nat.succ_mul _ _
  have hle : e * w ≤ (e + j) * w := Nat.mul_le_mul_right w (Nat.le_add_right e j)
  rw [hmul]
  exact hm'.trans (applyOnes_runWritten hw hchange) (hlo.trans hle) (Nat.le_add_right _ _)

/-- The section datapath writes exactly the run (R107 to R109). -/
theorem sectionRun_runWritten (hw : 1 ≤ w) (hchange : WritesMasked w x change) (first pos len : Nat) (m : Memory) :
    RunWritten w first pos (pos + len) x m (sectionRun w first pos len change m) := by
  have hpos := Nat.div_add_mod' pos w
  have hposmod := Nat.mod_lt pos hw
  have hlim := Nat.div_add_mod' (pos + len) w
  unfold sectionRun
  split
  · next hlen => exact fun u => (if_neg (by omega)).symm
  next hlen =>
  simp only
  split
  · next hsame =>
    have hlast : pos + len - 1 < (pos / w + 1) * w := (Nat.div_lt_iff_lt_mul hw).1 (by omega)
    rw [Nat.succ_mul] at hlast
    exact applyOnly_runWritten hw hchange (by omega)
  next hdiffer =>
  have hnext : pos / w + 1 ≤ (pos + len - 1) / w :=
    Nat.lt_of_le_of_ne (Nat.div_le_div_right (by omega)) hdiffer
  have hle : pos / w + 1 ≤ (pos + len) / w := hnext.trans (Nat.div_le_div_right (by omega))
  have hfirst : RunWritten w first pos ((pos / w + 1) * w) x m _ :=
    (Nat.succ_mul (pos / w) w).symm ▸ applyFirst_runWritten hw hchange
  have hwhole := applyInterior_runWritten (n := (pos + len) / w - (pos / w + 1)) hw hchange
    (by rw [Nat.succ_mul]; omega) hfirst
  rw [Nat.add_sub_cancel' hle] at hwhole
  split
  · next hr1 => rwa [show (pos + len) / w * w = pos + len by omega] at hwhole
  · have hbegin : pos ≤ (pos + len) / w * w :=
      le_trans (by rw [Nat.succ_mul]; omega) (Nat.mul_le_mul_right w hle)
    exact hwhole.trans (applyLast_runWritten hw hchange) hbegin (by omega)

/-- The contract of a section command whose `apply` gives the masked bits the value `x`. -/
theorem section_contract (hs : s.Inv) (hsel : i.selectors = [hd]) (hchecks : checksOf i s = sectionChecks s hd)
    (heffect : effectOf i s = s.setEm (sectionRun s.par.w (s.handle hd).first s.pos s.len change s.em))
    (hchange : WritesMasked s.par.w x change) :
    if ¬ s.legal [hd] then raises i s .illegalCommand
    else if ¬ s.allBound [hd] then raises i s .unboundHandle
    else if ¬ s.pos + s.len ≤ (s.handle hd).lengthBits then raises i s .sectionRange
    else ∃ t, completesInMemory i s t ∧
      (∀ u < s.storedBits hd, t.abit hd u = if s.pos ≤ u ∧ u < s.pos + s.len then x else s.abit hd u) ∧
      ∀ k, ¬ s.inRange hd k → emRead t.em k = emRead s.em k :=
  array_contract hchecks fun _ hleft => contract_link hleft (sectionInRange_iff s s.len hd) fun _ hnone =>
    have hcompletes := completesInMemory_setEm hs hnone heffect
    ⟨_, hcompletes, fun u _ => (sectionRun_runWritten hs.params.1 hchange _ _ _ _).abit u,
      fun _ hk => exec_frame_of_selectors_eq hs hcompletes.1 hsel hk⟩

end Runs

/-- Settles O34: OR with a mask sets the masked bits. -/
theorem setsecSetsExactlyTheRun : Obligations.SetsecSetsExactlyTheRun := fun _ s hs =>
  ⟨decode_fieldsWord (op := 0x26) rfl, section_contract hs rfl rfl rfl (writesMasked_or s.par.w)⟩

/-- Settles O35: AND with the complement of a mask clears the masked bits. -/
theorem clrsecClearsExactlyTheRun : Obligations.ClrsecClearsExactlyTheRun := fun _ s hs =>
  ⟨decode_fieldsWord (op := 0x27) rfl, section_contract hs rfl rfl rfl (writesMasked_andCompl s.par.w)⟩

/-! ### The masked last element (R112) -/

/-- The overhang mask covers the declared bits of the last element (R24, R67). -/
theorem GeometryHolds.testBit_overhangMask {p : Params} {h : Handle} (hg : GeometryHolds p h) (hw : 1 ≤ p.w)
    (hn : 0 < h.lengthElements) (b : Nat) :
    h.overhangMask.testBit b = decide (b < p.w ∧ (h.lengthElements - 1) * p.w + b < h.lengthBits) := by
  have hbits := hg.lengthBits_eq hw hn
  have hbme : h.bme < p.w := hg.bme ▸ Nat.mod_lt _ hw
  rw [hg.overhangMask, hbits]
  split <;> rw [Nat.testBit_two_pow_sub_one] <;> exact decide_eq_decide.2 (by omega)

/-- Bit `b` of the last element of a nonempty array is stored bit `b` of its last `W` bits (R16, R24). -/
theorem testBit_last (hs : s.Inv) (hbound : s.allBound [hd]) (hnonempty : 0 < (s.handle hd).lengthBits) {b : Nat}
    (hb : b < s.par.w) : (emRead s.em (s.handle hd).last).testBit b =
      s.abit hd (((s.handle hd).lengthElements - 1) * s.par.w + b) := by
  have hw := hs.params.1
  rw [State.abit, ((hs.geometryOf_bound hbound).last_eq hw hnonempty).2, Nat.add_comm _ b,
    Nat.add_mul_div_right _ _ hw, Nat.div_eq_of_lt hb, Nat.zero_add, Nat.add_mul_mod_self_right, Nat.mod_eq_of_lt hb]

/-- Settles O36: the mask keeps the declared bits of the last element. -/
theorem lastvalReadsTheMaskedLastElement : Obligations.LastvalReadsTheMaskedLastElement := by
  intro hd s hs
  refine ⟨decode_fieldsWord (op := 0x28) rfl, array_contract rfl fun hbound hleft => ?_⟩
  refine contract_link hleft (notEmpty_iff s hd) fun hnonempty hnone => ?_
  refine ⟨_, exec_completes hs hnone, rfl, rfl, fun b => ?_⟩
  have hw := hs.params.1
  have hg := hs.geometryOf_bound hbound
  show (emRead s.em (s.handle hd).last &&& (s.handle hd).overhangMask).testBit b = _
  rw [Nat.testBit_and, hg.testBit_overhangMask hw (hg.last_eq hw hnonempty).1, Bool.and_comm]
  by_cases hb : b < s.par.w
  · rw [testBit_last hs hbound hnonempty hb]
  · simp [hb]

/-! ### Two commands in a row -/

/-- No check of a command reads `EM` or `STATUS`. -/
theorem checksOf_setEm_complete (i : Instr) (s : State) (m : Memory) :
    checksOf i (s.setEm m).complete = checksOf i s := by cases i <;> rfl

/-- RDBIT after a single-bit command that writes: both complete, and `RBIT` is the changed bit. -/
theorem modifyBit_then_rdbit {change : Elem → Elem → Elem} (hs : s.Inv) (hlegal : s.legal [hd])
    (hbound : s.allBound [hd]) (hpos : s.pos < (s.handle hd).lengthBits)
    (hchecks : checksOf i s = singleBitChecks s hd) (heffect : effectOf i s = modifyBit s hd change) :
    ∃ t u, exec i s = .next t ∧ exec (.rdbit hd) t = .next u ∧
      u.rbit = (change (emRead s.em ((s.handle hd).first + s.pos / s.par.w))
        (2 ^ (s.pos % s.par.w))).testBit (s.pos % s.par.w) ∧ statusErr u.status = false := by
  have hholds : firstCause (singleBitChecks s hd) = none :=
    (firstCause_cons_true ((selectorsLegal_iff s [hd]).2 hlegal) _ _).trans
      ((firstCause_cons_true ((handlesBound_iff s [hd]).2 hbound) _ _).trans
        (firstCause_cons_true ((indexInRange_iff s hd).2 hpos) _ _))
  obtain ⟨hexec, -⟩ := completesInMemory_setEm hs (hchecks ▸ hholds) heffect
  have hholds' : firstCause (checksOf (.rdbit hd) (modifyBit s hd change).complete) = none :=
    (congrArg firstCause (checksOf_setEm_complete _ s _)).trans hholds
  refine ⟨_, _, hexec, exec_completes (exec_inv hs hexec) hholds', ?_, statusErr_completed _⟩
  show (emRead (modifyBit s hd change).em ((s.handle hd).first + s.pos / s.par.w)).testBit (s.pos % s.par.w) = _
  rw [modifyBit_read_same, Nat.testBit_mod_two_pow]
  simp [Nat.mod_lt s.pos hs.params.1]

/-- Settles O49: bit `p` of `v ||| 2^p` is 1, and of `v &&& compl W (2^p)` is 0. -/
theorem setOrClearThenReadGivesTheBit : Obligations.SetOrClearThenReadGivesTheBit := by
  intro hd s hs hlegal hbound hpos
  have hmod := Nat.mod_lt s.pos hs.params.1
  have hmask : 2 ^ (s.pos % s.par.w) < 2 ^ s.par.w := bitMask_lt s.par.w s.pos hs.params.1
  constructor
  · obtain ⟨t, u, hset, hread, hbit, hok⟩ := modifyBit_then_rdbit (i := .setbit hd) hs hlegal hbound hpos rfl rfl
    refine ⟨t, u, hset, hread, ?_, hok⟩
    rw [hbit, writesMasked_or _ hmask hmod, Nat.testBit_two_pow_self, if_pos rfl]
  · obtain ⟨t, u, hclear, hread, hbit, hok⟩ := modifyBit_then_rdbit (i := .clrbit hd)
      (change := fun v m => v &&& compl s.par.w m) hs hlegal hbound hpos rfl rfl
    refine ⟨t, u, hclear, hread, ?_, hok⟩
    rw [hbit, writesMasked_andCompl _ hmask hmod, Nat.testBit_two_pow_self, if_pos rfl]

/-- Replace each of the `n` elements from `base` on by `op` of it. -/
def mapInPlace (w base n : Nat) (op : Elem → Elem) (m : Memory) : Memory :=
  fillUp w base n (fun j m => op (emRead m (base + j))) m

theorem mapInPlace_read (w base n : Nat) (op : Elem → Elem) (m : Memory) (k : Nat) :
    emRead (mapInPlace w base n op m) k =
      if base ≤ k ∧ k < base + n then op (emRead m k) % 2 ^ w else emRead m k := by
  split
  · next hk =>
    have hread := fillUp_read_of_lookAhead (w := w) (base := base) (value := fun j m => op (emRead m (base + j))) m
      (fun j _ m' hm' => congrArg op (hm' (base + j) (.inr le_rfl))) (k - base) (Nat.sub_lt_left_of_lt_add hk.1 hk.2)
    rwa [Nat.add_sub_cancel' hk.1] at hread
  · next hk => exact fillUp_read_outside m k (by omega)

/-- Replacing each element by an involution of it twice leaves every element. -/
theorem mapInPlace_twice_read {p : Params} {m : Memory} {op : Elem → Elem} (hm : Memory.wf p m)
    (hop : ∀ v < 2 ^ p.w, op v < 2 ^ p.w ∧ op (op v) = v) (base n k : Nat) :
    emRead (mapInPlace p.w base n op (mapInPlace p.w base n op m)) k = emRead m k := by
  have hlt := hm.read_lt k
  obtain ⟨hfits, hinvolution⟩ := hop _ hlt
  rw [mapInPlace_read, mapInPlace_read]
  split
  · rw [Nat.mod_eq_of_lt hfits, hinvolution, Nat.mod_eq_of_lt hlt]
  · rfl

/-- A second run restores `EM` when the effect of the command is an involution of some elements: the canonical form
makes the memories equal. -/
theorem secondRun_restores {base n : Nat} {op : Elem → Elem} (hs : s.Inv) (hexec : exec i s = .next t)
    (hok : statusErr t.status = false) (hop : ∀ v < 2 ^ s.par.w, op v < 2 ^ s.par.w ∧ op (op v) = v)
    (heffect : effectOf i s = s.setEm (mapInPlace s.par.w base n op s.em))
    (heffect' : ∀ m, effectOf i (s.setEm m).complete = (s.setEm m).complete.setEm (mapInPlace s.par.w base n op m)) :
    ∃ u, completesInMemory i t u ∧ u.em = s.em := by
  obtain ⟨hnone, rfl⟩ := exec_next_of_noErr hexec hok
  rw [heffect] at hexec ⊢
  have ht := exec_inv hs hexec
  have hnone' := (congrArg firstCause (checksOf_setEm_complete i s (mapInPlace s.par.w base n op s.em))).trans hnone
  have hcompletes := completesInMemory_setEm ht hnone' (heffect' _)
  have hwf := (exec_inv ht hcompletes.1).memory
  exact ⟨_, hcompletes, hwf.ext hs.memory (mapInPlace_twice_read hs.memory hop base n)⟩

/-- NOT of an array over the same storage is in place (R134, R136). -/
theorem bitwise1_eq_mapInPlace {hs1 : HSel} (h : (s.handle hd).first = (s.handle hs1).first) (op : Elem → Elem) :
    bitwise1 s op hd hs1 =
      s.setEm (mapInPlace s.par.w (s.handle hd).first (s.handle hd).lengthElements op s.em) := by
  rw [mapInPlace, bitwise1, h]

/-- Settles O50: XOR with one mask and the complement within `W` bits are involutions of elements; TGLBIT changes one
element and NOT all elements of the array. -/
theorem invertingTwiceRestoresMemory : Obligations.InvertingTwiceRestoresMemory := by
  refine ⟨fun hd s t hs hexec hok => ?_, fun hd hs1 s t hs hsame hexec hok => ?_⟩
  · have hxor : ∀ v < 2 ^ s.par.w, v ^^^ bitMask s.par.w s.pos < 2 ^ s.par.w ∧
        v ^^^ bitMask s.par.w s.pos ^^^ bitMask s.par.w s.pos = v :=
      fun v hv => ⟨Nat.xor_lt_two_pow hv (bitMask_lt _ _ hs.params.1), Nat.xor_xor_cancel_right v _⟩
    exact secondRun_restores (base := bitElement s.par.w (s.handle hd) s.pos) (n := 1) hs hexec hok hxor rfl
      fun _ => rfl
  · have hcompl : ∀ v < 2 ^ s.par.w, compl s.par.w v < 2 ^ s.par.w ∧ compl s.par.w (compl s.par.w v) = v :=
      fun v hv => ⟨compl_lt _ v, Nat.sub_sub_self (Nat.le_sub_one_of_lt hv)⟩
    exact secondRun_restores hs hexec hok hcompl (bitwise1_eq_mapInPlace hsame.1 _)
      fun m => bitwise1_eq_mapInPlace (s := (s.setEm m).complete) hsame.1 _

end Sys2Proof.Machine

/-! PROOFS. The statements of 42_bit_section_mover.md. First what RDSEC and WRSEC share: their chain of preconditions
(R121, R123), and the bits of `EM` counted from the first bit of element 0, so that one address orders the bits of all
arrays. Then the two datapaths, one element at a time, and reading a section before writing it back. -/

namespace Sys2Proof.Machine

variable {i : Instr} {s t : State} {hd hs1 : HSel}

/-! ### What the contracts of RDSEC and WRSEC share -/

/-- The machine's last check of the two commands, in the words of the contracts (R17, R64). -/
theorem aliasing_disjoint_iff (hs : s.Inv) (hbound : s.allBound [hd, hs1]) :
    (aliasing s disjoint [hd, hs1]).1 = true ↔ s.apart hd hs1 := by
  have hg := hs.geometryOf hd (hbound hd (by simp))
  have hg1 := hs.geometryOf hs1 (hbound hs1 (by simp))
  rw [State.apart_iff_disjoint hs.params.1 hg hg1]
  simp [aliasing, allPairs]

/-- The chain of RDSEC and of WRSEC: `n` is the length of the run, `host` the array it lies in. -/
theorem mover_contract {n : Nat} {host : HSel} {A : Prop} (hs : s.Inv)
    (hchecks : checksOf i s = [selectorsLegal s [hd, hs1], handlesBound s [hd, hs1], sectionInRange s n host,
      aliasing s disjoint [hd, hs1]])
    (hrest : firstCause (checksOf i s) = none → A) :
    if ¬ s.legal [hd, hs1] then raises i s .illegalCommand
    else if ¬ s.allBound [hd, hs1] then raises i s .unboundHandle
    else if ¬ s.pos + n ≤ (s.handle host).lengthBits then raises i s .sectionRange
    else if ¬ s.apart hd hs1 then raises i s .aliased
    else A :=
  contract_link (congrArg firstCause hchecks) (selectorsLegal_iff s [hd, hs1]) fun _ hleft =>
    contract_link hleft (handlesBound_iff s [hd, hs1]) fun hbound hleft =>
      contract_link hleft (sectionInRange_iff s n host) fun _ hleft =>
        contract_link hleft (aliasing_disjoint_iff hs hbound) fun _ hnone => hrest hnone

/-- When the checks of the two commands hold, their operands share no element. -/
theorem disjoint_of_aliasing (hc : firstCause (checksOf i s) = none)
    (hcheck : aliasing s disjoint [hd, hs1] ∈ checksOf i s) : disjoint (s.handle hd) (s.handle hs1) = true :=
  aliasing_head (check_holds hc hcheck) hs1 (List.mem_singleton_self hs1)

/-! ### The bits of the element memory (R16) -/

section Bits

variable {w lo mid hi k n a ls src dst : Nat} {f : Nat → Bool} {m m' m'' : Memory}

/-- Bit `v` of `EM`, all its elements in a row: bit `v mod W` of element `v div W`. -/
def emBit (w : Nat) (m : Memory) (v : Nat) : Bool := (emRead m (v / w)).testBit (v % w)

/-- The bits of an array that begins at element `first` are bits of `EM`, in the same order (R16). -/
theorem emBit_first_add (hw : 1 ≤ w) (m : Memory) (first u : Nat) :
    emBit w m (first * w + u) = (emRead m (first + u / w)).testBit (u % w) := by
  rw [emBit, Nat.mul_add_mod_self_right, Nat.mul_comm, Nat.mul_add_div hw]

theorem emBit_mul_add (m : Memory) (k : Nat) {b : Nat} (hb : b < w) :
    emBit w m (k * w + b) = (emRead m k).testBit b := by
  rw [emBit_first_add (by omega), Nat.div_eq_of_lt hb, Nat.mod_eq_of_lt hb, Nat.add_zero]

/-- The bits that the contracts speak of; `t` is a state that has the array where `s` has it. -/
theorem State.abit_eq_emBit {h : HSel} (hw : 1 ≤ s.par.w) (hpar : t.par = s.par) (hhandle : t.handle h = s.handle h)
    (u : Nat) : t.abit h u = emBit s.par.w t.em ((s.handle h).first * s.par.w + u) := by
  rw [State.abit, hpar, hhandle, emBit_first_add hw]

/-- Elements with the same bits are the same. -/
theorem emRead_eq_of_emBit_eq (hm : ∀ j, emRead m j < 2 ^ w) (hm' : ∀ j, emRead m' j < 2 ^ w)
    (h : ∀ b < w, emBit w m' (k * w + b) = emBit w m (k * w + b)) : emRead m' k = emRead m k := by
  refine Nat.eq_of_testBit_eq fun b => ?_
  by_cases hb : b < w
  · rw [← emBit_mul_add m' k hb, h b hb, emBit_mul_add m k hb]
  · rw [testBit_of_lt w b _ (hm' k) (by omega), testBit_of_lt w b _ (hm k) (by omega)]

/-- From `m` to `m'` every bit `v` from `lo` up to `hi` has become `f v`, and no other bit has changed. -/
def BitsWritten (w lo hi : Nat) (f : Nat → Bool) (m m' : Memory) : Prop :=
  ∀ v, emBit w m' v = if lo ≤ v ∧ v < hi then f v else emBit w m v

/-- Runs that meet join into one. -/
theorem BitsWritten.trans (hlow : BitsWritten w lo mid f m m') (hhigh : BitsWritten w mid hi f m' m'')
    (hlo : lo ≤ mid) (hhi : mid ≤ hi) : BitsWritten w lo hi f m m'' := by
  intro v
  rw [hhigh v, hlow v, ← ite_or]
  exact if_congr (by omega) rfl rfl

/-- An element outside the run is as before. -/
theorem BitsWritten.read_outside (h : BitsWritten w lo hi f m m') (hm : ∀ j, emRead m j < 2 ^ w)
    (hm' : ∀ j, emRead m' j < 2 ^ w) (hk : k * w + w ≤ lo ∨ hi ≤ k * w) : emRead m' k = emRead m k :=
  emRead_eq_of_emBit_eq hm hm' fun b hb => by rw [h, if_neg (by omega)]

/-- From `m` to `m'` the `n` bits from `dst` on have become the bits that `m` has from `src` on, and no other bit has
changed. -/
def RunCopied (w src dst n : Nat) (m m' : Memory) : Prop :=
  BitsWritten w dst (dst + n) (fun v => emBit w m (src + (v - dst))) m m'

/-- A run that is copied out and back is as before, like every bit that the copying out has left alone. -/
theorem RunCopied.restored (h : RunCopied w dst src n m' m'')
    (hcopy : ∀ u < n, emBit w m' (dst + u) = emBit w m (src + u)) {v : Nat} (hkeep : emBit w m' v = emBit w m v) :
    emBit w m'' v = emBit w m v := by
  rw [h v]
  split
  · next hrun => exact (hcopy (v - src) (by omega)).trans (by rw [Nat.add_sub_cancel' hrun.1])
  · exact hkeep

/-- The value that keeps the bits outside `ls <= b < ls + a` and takes the `a` bits of `new` there (R124). -/
theorem testBit_merge {old new : Elem} (hfits : ls + a ≤ w) (hnew : new < 2 ^ a) {b : Nat} (hb : b < w) :
    (old &&& compl w (lowMask a * 2 ^ ls) ||| new * 2 ^ ls).testBit b =
      if ls ≤ b ∧ b < ls + a then new.testBit (b - ls) else old.testBit b := by
  have hmask : lowMask a * 2 ^ ls < 2 ^ w :=
    Nat.lt_pow_two_of_testBit _ fun b hb => by rw [testBit_mul_two_pow, testBit_lowMask]; simp; omega
  rw [Nat.testBit_or, Nat.testBit_and, testBit_compl w b _ hmask, testBit_mul_two_pow, testBit_mul_two_pow,
    testBit_lowMask]
  by_cases hlow : ls ≤ b
  · by_cases hhigh : b < ls + a
    · have : b - ls < a := by omega
      simp [hb, hlow, hhigh, this]
    · have : ¬ b - ls < a := by omega
      simp [hb, hlow, hhigh, this, testBit_of_lt a (b - ls) new hnew (by omega)]
  · simp [hb, hlow]

/-- Merging `a` bits into one element writes their run of `EM` and nothing else (R53, R124). -/
theorem emWrite_merge_bitsWritten {new : Elem} (hw : 1 ≤ w) (hfits : ls + a ≤ w) (hnew : new < 2 ^ a)
    (hf : ∀ b < a, f (k * w + ls + b) = new.testBit b) :
    BitsWritten w (k * w + ls) (k * w + ls + a) f m
      (emWrite w m k (emRead m k &&& compl w (lowMask a * 2 ^ ls) ||| new * 2 ^ ls)) := by
  intro v
  have hmod := Nat.mod_lt v hw
  have hdiv := Nat.div_add_mod' v w
  rw [emBit, emRead_emWrite]
  by_cases hk : v / w = k
  · subst hk
    rw [if_pos rfl, Nat.testBit_mod_two_pow, testBit_merge hfits hnew hmod, decide_eq_true hmod, Bool.true_and, emBit]
    refine ite_congr (by simp only [eq_iff_iff]; omega) (fun hrun => ?_) fun _ => rfl
    rw [← hf _ (by omega)]
    congr 1
    omega
  · have hout : ¬ (k * w + ls ≤ v ∧ v < k * w + ls + a) := fun ⟨hle, hlt⟩ =>
      hk (Nat.div_eq_of_lt_le (by omega) (by rw [Nat.succ_mul]; omega))
    rw [if_neg hk, if_neg hout, emBit]

end Bits

/-! ### Arrays in the bits of the element memory -/

section Arrays

variable {p : Params} {h inp dst : Handle} {m m' : Memory}

/-- Disjoint arrays have no declared bit of `EM` in common (R17). -/
theorem GeometryHolds.bits_ne_of_disjoint (hg : GeometryHolds p h) (hg' : GeometryHolds p inp) (hw : 1 ≤ p.w)
    (hdisjoint : disjoint h inp = true) {u v : Nat} (hu : u < h.lengthBits) (hv : v < inp.lengthBits) :
    h.first * p.w + u ≠ inp.first * p.w + v := by
  intro heq
  have hindex := congrArg (· / p.w) heq
  simp only [Nat.mul_comm _ p.w, Nat.mul_add_div hw] at hindex
  have hlt := hg.div_lt_lengthElements hw hu
  have hlt' := hg'.div_lt_lengthElements hw hv
  have hlimiter := hg.limiter
  have hlimiter' := hg'.limiter
  exact (disjoint_iff_no_common_index h inp).1 hdisjoint (h.first + u / p.w)
    ⟨⟨Nat.le_add_right _ _, by omega⟩, hindex ▸ Nat.le_add_right _ _, by omega⟩

/-- A run inside an array leaves the elements outside its range. -/
theorem RunCopied.frame {src pos n : Nat} (hrun : RunCopied p.w src (h.first * p.w + pos) n m m')
    (hg : GeometryHolds p h) (hw : 1 ≤ p.w) (hfits : pos + n ≤ h.lengthBits) (hm : ∀ j, emRead m j < 2 ^ p.w)
    (hm' : ∀ j, emRead m' j < 2 ^ p.w) {k : Nat} (hk : ¬ (h.first ≤ k ∧ k < h.limiter)) :
    emRead m' k = emRead m k := by
  have hbits := hg.lengthBits_le hw
  refine BitsWritten.read_outside hrun hm hm' ?_
  obtain hbelow | habove : k + 1 ≤ h.first ∨ h.first + h.lengthElements ≤ k := by
    have := hg.limiter
    omega
  · have := Nat.mul_le_mul_right p.w hbelow
    rw [Nat.succ_mul] at this
    omega
  · have := Nat.mul_le_mul_right p.w habove
    rw [Nat.add_mul] at this
    omega

/-! ### WRSEC (R123, R124) -/

/-- The input elements up to the `j`-th carry `(j + 1) * W` bits, or all the bits of the input. -/
theorem wrsecCount_eq (hg : GeometryHolds p inp) (hw : 1 ≤ p.w) {j : Nat} (hj : j < inp.lengthElements) :
    j * p.w + wrsecCount p.w inp j = min ((j + 1) * p.w) inp.lengthBits := by
  have hbits := hg.lengthBits_eq hw (by omega)
  have hbme : inp.bme < p.w := hg.bme ▸ Nat.mod_lt _ hw
  have hsucc : (j + 1) * p.w = j * p.w + p.w := Nat.succ_mul j p.w
  unfold wrsecCount
  split
  · next hinner =>
    have := hg.mul_lt_lengthBits hw hinner
    rw [hsucc] at this ⊢
    omega
  · next hlast =>
    rw [show inp.lengthElements - 1 = j by omega] at hbits
    rw [← hbits, hsucc, min_eq_right]
    split at hbits <;> omega

/-- One step of WRSEC writes the bits that input element `j` carries in one run: those that fit above bit `ls` of one
element, the others from bit 0 of the next on. -/
theorem wrsecStep_bitsWritten {w e ls j lo : Nat} {f : Nat → Bool} (hw : 1 ≤ w) (hls : ls < w)
    (hcount : wrsecCount w inp j ≤ w) (hlo : lo = (dst.first + e + j) * w + ls)
    (hf : ∀ b < wrsecCount w inp j, f (lo + b) = (emRead m (inp.first + j)).testBit b) :
    BitsWritten w lo (lo + wrsecCount w inp j) f m (wrsecStep w inp dst e ls j m) := by
  subst hlo
  unfold wrsecStep
  simp only
  generalize wrsecCount w inp j = cnt at hcount hf ⊢
  generalize dst.first + e + j = k at hf ⊢
  generalize hx : emRead m (inp.first + j) % 2 ^ cnt = x
  have hbit : ∀ b < cnt, f (k * w + ls + b) = x.testBit b := fun b hb => by
    rw [hf b hb, ← hx, Nat.testBit_mod_two_pow, decide_eq_true hb, Bool.true_and]
  have hlow := emWrite_merge_bitsWritten (k := k) (ls := ls) (a := min cnt (w - ls)) (m := m) (f := f) hw (by omega)
    (Nat.mod_lt x (Nat.two_pow_pos _)) fun b hb => by
      rw [hbit b (by omega), Nat.testBit_mod_two_pow, decide_eq_true hb, Bool.true_and]
  split
  · next hspill =>
    have hnext : (k + 1) * w = k * w + ls + min cnt (w - ls) := by rw [Nat.succ_mul]; omega
    have hrest : x / 2 ^ (w - ls) < 2 ^ (cnt - (w - ls)) := by
      refine Nat.div_lt_of_lt_mul ?_
      rw [← Nat.pow_add, Nat.add_sub_cancel' hspill.le, ← hx]
      exact Nat.mod_lt _ (Nat.two_pow_pos _)
    have hhigh := emWrite_merge_bitsWritten (k := k + 1) (ls := 0) (f := f) (m := emWrite w m k
      (emRead m k &&& compl w (lowMask (min cnt (w - ls)) * 2 ^ ls) ||| x % 2 ^ min cnt (w - ls) * 2 ^ ls))
      hw (by omega) hrest fun b hb => by
        rw [hnext, Nat.add_zero, Nat.add_assoc _ _ b, hbit _ (by omega), ← shr, testBit_shr]
        congr 1
        omega
    simp only [pow_zero, Nat.mul_one, Nat.add_zero, hnext] at hhigh
    rw [show k * w + ls + min cnt (w - ls) + (cnt - (w - ls)) = k * w + ls + cnt by omega] at hhigh
    exact hlow.trans hhigh (by omega) (by omega)
  · next hfits => rwa [Nat.min_eq_left (by omega)] at hlow ⊢

/-- A run written in an array leaves the bits of a disjoint one (R125). -/
theorem RunCopied.emBit_disjoint {src pos n u : Nat} (hrun : RunCopied p.w src (dst.first * p.w + pos) n m m')
    (hgdst : GeometryHolds p dst) (hginp : GeometryHolds p inp) (hw : 1 ≤ p.w) (hdisjoint : disjoint dst inp = true)
    (hfits : pos + n ≤ dst.lengthBits) (hu : u < inp.lengthBits) :
    emBit p.w m' (inp.first * p.w + u) = emBit p.w m (inp.first * p.w + u) := by
  refine (hrun _).trans (if_neg fun hin => ?_)
  refine hgdst.bits_ne_of_disjoint hginp hw hdisjoint (u := inp.first * p.w + u - dst.first * p.w) ?_ hu ?_ <;> omega

/-- Step `j` of WRSEC lengthens the run that the earlier steps have copied: it finds its input as it was, because the
arrays are disjoint (R124, R125). -/
theorem RunCopied.extend_wrsecStep {pos j : Nat}
    (hrun : RunCopied p.w (inp.first * p.w) (dst.first * p.w + pos) (min (j * p.w) inp.lengthBits) m m')
    (hginp : GeometryHolds p inp) (hgdst : GeometryHolds p dst) (hw : 1 ≤ p.w) (hdisjoint : disjoint dst inp = true)
    (hfits : pos + inp.lengthBits ≤ dst.lengthBits) (hj : j < inp.lengthElements) :
    RunCopied p.w (inp.first * p.w) (dst.first * p.w + pos) (min ((j + 1) * p.w) inp.lengthBits) m
      (wrsecStep p.w inp dst (pos / p.w) (pos % p.w) j m') := by
  have hpos := Nat.div_add_mod' pos p.w
  obtain ⟨-, hcount, hdeclared⟩ := wrsecCount_bounds hginp hw hj
  rw [Nat.min_eq_left (by omega)] at hrun
  rw [← wrsecCount_eq hginp hw hj, RunCopied, ← Nat.add_assoc]
  refine BitsWritten.trans hrun (wrsecStep_bitsWritten hw (Nat.mod_lt pos hw) hcount ?_ fun b hb => ?_)
    (Nat.le_add_right _ _) (Nat.le_add_right _ _)
  · rw [Nat.add_mul, Nat.add_mul]
    omega
  · have hinput := hrun.emBit_disjoint hgdst hginp hw hdisjoint (u := j * p.w + b) (by omega) (by omega)
    rw [← Nat.add_assoc, ← Nat.add_mul, emBit_mul_add _ _ (hb.trans_le hcount)] at hinput
    rw [hinput, Nat.add_mul]
    congr 1
    omega

/-- WRSEC copies its input, which is all of its declared bits, to the run (R123). -/
theorem wrsecLoop_runCopied (hginp : GeometryHolds p inp) (hgdst : GeometryHolds p dst) (hw : 1 ≤ p.w)
    (hdisjoint : disjoint dst inp = true) {pos : Nat} (hfits : pos + inp.lengthBits ≤ dst.lengthBits) (m : Memory) :
    RunCopied p.w (inp.first * p.w) (dst.first * p.w + pos) inp.lengthBits m
      (forUp inp.lengthElements (wrsecStep p.w inp dst (pos / p.w) (pos % p.w)) m) := by
  have hloop := forUp_induct
    (fun j => RunCopied p.w (inp.first * p.w) (dst.first * p.w + pos) (min (j * p.w) inp.lengthBits) m)
    (wrsecStep p.w inp dst (pos / p.w) (pos % p.w)) m inp.lengthElements (fun v => by rw [if_neg (by omega)])
    fun j _ hj hrun => hrun.extend_wrsecStep hginp hgdst hw hdisjoint hfits hj
  rwa [Nat.min_eq_right (hginp.lengthBits_le hw)] at hloop

/-! ### RDSEC (R121, R122) -/

/-- A bit of RDSEC's output element that copies a declared bit of the source (R122): from the element at the offset, or
from the next one, which then exists. -/
theorem rdsecElem_testBit (hg : GeometryHolds p inp) (hw : 1 ≤ p.w) (hm : ∀ j, emRead m j < 2 ^ p.w) (missing : Nat)
    {pos j b : Nat} (hb : b < p.w) (hdeclared : pos + (j * p.w + b) < inp.lengthBits) :
    (rdsecElem p.w inp (pos / p.w) (pos % p.w) missing j m).testBit b =
      emBit p.w m (inp.first * p.w + (pos + (j * p.w + b))) := by
  have hpos := Nat.div_add_mod' pos p.w
  have hmod := Nat.mod_lt pos hw
  have haddr : inp.first * p.w + (pos + (j * p.w + b)) = (inp.first + pos / p.w + j) * p.w + (pos % p.w + b) := by
    rw [Nat.add_mul, Nat.add_mul]
    omega
  have hlt := hg.div_lt_lengthElements hw hdeclared
  have hlimiter := hg.limiter
  unfold rdsecElem
  simp only
  by_cases hin : pos % p.w + b < p.w
  · have hlow : ¬ p.w - pos % p.w ≤ b := by omega
    rw [haddr, emBit_mul_add m _ hin]
    split
    · next hr => rw [hr, Nat.zero_add]
    split <;> simp only [Nat.testBit_or, testBit_shr, testBit_shl, testBit_mul_two_pow, hlow, decide_false,
      Bool.false_and, Bool.and_false, Bool.or_false]
  · have hnext : pos / p.w + j + 1 ≤ (pos + (j * p.w + b)) / p.w := by
      rw [Nat.le_div_iff_mul_le hw, Nat.add_mul, Nat.add_mul]
      omega
    have haddr' : inp.first * p.w + (pos + (j * p.w + b)) =
        (inp.first + pos / p.w + j + 1) * p.w + (b - (p.w - pos % p.w)) := by
      rw [haddr, Nat.succ_mul]
      omega
    have hcur : (emRead m (inp.first + pos / p.w + j)).testBit (pos % p.w + b) = false :=
      testBit_of_lt p.w _ _ (hm _) (by omega)
    rw [haddr', emBit_mul_add m _ (by omega), if_neg (by omega), if_pos (by omega), Nat.testBit_or, testBit_shr, hcur,
      testBit_shl, decide_eq_true hb, decide_eq_true (by omega), Bool.true_and, Bool.true_and, Bool.false_or]

/-- The declared bits of RDSEC's destination after its loop are the run of the source: no step reads an element that an
earlier one has written, because the arrays are disjoint (R121, R125). -/
theorem rdsecLoop_emBit (hginp : GeometryHolds p inp) (hgdst : GeometryHolds p dst) (hw : 1 ≤ p.w)
    (hm : ∀ j, emRead m j < 2 ^ p.w) (hdisjoint : disjoint dst inp = true) {pos : Nat}
    (hfits : pos + dst.lengthBits ≤ inp.lengthBits) (missing : Nat) {u : Nat} (hu : u < dst.lengthBits) :
    emBit p.w (fillUp p.w dst.first dst.lengthElements (rdsecElem p.w inp (pos / p.w) (pos % p.w) missing) m)
      (dst.first * p.w + u) = emBit p.w m (inp.first * p.w + (pos + u)) := by
  have hmod := Nat.mod_lt u hw
  have hdiv := Nat.div_add_mod' u p.w
  have hj := hgdst.div_lt_lengthElements hw hu
  have hrun : pos / p.w + u / p.w < inp.lengthElements := by
    have hlt := hginp.div_lt_lengthElements hw (b := pos + u / p.w * p.w) (by omega)
    rwa [Nat.add_mul_div_right _ _ hw] at hlt
  have hread : ReadsOnly (Set.Ico inp.first inp.limiter)
      (rdsecElem p.w inp (pos / p.w) (pos % p.w) missing (u / p.w)) :=
    readsOnly_rdsecElem _ _ _ _ _ hginp hrun fun k hk => ⟨Nat.le_add_right _ _, by rw [hginp.limiter]; omega⟩
  have hsource : Set.EqOn
      (emRead (fillUp p.w dst.first (u / p.w) (rdsecElem p.w inp (pos / p.w) (pos % p.w) missing) m))
      (emRead m) (Set.Ico inp.first inp.limiter) := fun k ⟨hfirst, hbelow⟩ => by
    have hout := (disjoint_iff_no_common_index dst inp).1 hdisjoint k
    have hlimiter := hgdst.limiter
    exact fillUp_read_outside m k (by omega)
  rw [emBit_first_add hw, fillUp_read_at m _ hj, hread hsource, Nat.testBit_mod_two_pow, decide_eq_true hmod,
    Bool.true_and, rdsecElem_testBit hginp hw hm missing hmod (by omega), hdiv]

/-- The drawn bits of the last element (R66, R121): those below `bme` stay, the others are the draw. -/
theorem drawOverhang_testBit (hg : GeometryHolds p h) (hbme : h.bme ≠ 0) (d : Nat) {b : Nat} (hb : b < p.w) :
    (emRead (drawOverhang p.w h d m) h.last).testBit b =
      if b < h.bme then (emRead m h.last).testBit b else d.testBit (b - h.bme) := by
  have hmask : h.overhangMask.testBit b = decide (b < h.bme) := by
    rw [hg.overhangMask, if_neg hbme, Nat.testBit_two_pow_sub_one]
  rw [drawOverhang, if_neg hbme, emRead_emWrite_same, Nat.testBit_mod_two_pow, decide_eq_true hb, Bool.true_and,
    lastValue, Nat.testBit_or, Nat.testBit_and, hmask, testBit_mul_two_pow, Nat.testBit_mod_two_pow]
  by_cases hlow : b < h.bme
  · have : ¬ h.bme ≤ b := by omega
    simp [hlow, this]
  · have : b - h.bme < p.w - h.bme := by omega
    simp [hlow, this, Nat.le_of_not_lt hlow]

/-- The draw reaches no element but the last, and none of an array without overhang bits (R66). -/
theorem drawOverhang_read_ne (w d : Nat) {k : Nat} (hk : h.bme = 0 ∨ k ≠ h.last) :
    emRead (drawOverhang w h d m) k = emRead m k := by
  unfold drawOverhang
  split
  · rfl
  · next hbme => exact emRead_emWrite_ne _ _ _ _ _ (hk.resolve_left hbme)

/-- An array with overhang bits is not empty (R24). -/
theorem GeometryHolds.lengthBits_pos_of_bme (hg : GeometryHolds p h) (hbme : h.bme ≠ 0) : 0 < h.lengthBits :=
  Nat.pos_of_ne_zero fun hzero => hbme (by rw [hg.bme, hzero, Nat.zero_mod])

/-- The draw leaves the declared bits of the array (R66). -/
theorem drawOverhang_emBit (hg : GeometryHolds p h) (hw : 1 ≤ p.w) (d : Nat) {u : Nat} (hu : u < h.lengthBits) :
    emBit p.w (drawOverhang p.w h d m) (h.first * p.w + u) = emBit p.w m (h.first * p.w + u) := by
  have hmod := Nat.mod_lt u hw
  have hdiv := Nat.div_add_mod' u p.w
  rw [emBit_first_add hw, emBit_first_add hw]
  by_cases hout : h.bme = 0 ∨ h.first + u / p.w ≠ h.last
  · rw [drawOverhang_read_ne p.w d hout]
  · obtain ⟨hbme, hlast⟩ := not_or.1 hout
    obtain ⟨hpos, hlasteq⟩ := hg.last_eq hw (hg.lengthBits_pos_of_bme hbme)
    have hbits := hg.lengthBits_eq hw hpos
    have hindex : u / p.w = h.lengthElements - 1 := by omega
    rw [if_neg hbme, ← hindex] at hbits
    rw [not_ne_iff.1 hlast, drawOverhang_testBit hg hbme d hmod, if_pos (by omega)]

/-- The draw leaves the elements outside the range of the array (R66). -/
theorem drawOverhang_read_outside (hg : GeometryHolds p h) (hw : 1 ≤ p.w) (d : Nat) {k : Nat}
    (hk : ¬ (h.first ≤ k ∧ k < h.limiter)) : emRead (drawOverhang p.w h d m) k = emRead m k := by
  refine drawOverhang_read_ne p.w d (or_iff_not_imp_left.2 fun hbme hlast => hk ?_)
  have hlimiter := hg.limiter
  have := hg.last_eq hw (hg.lengthBits_pos_of_bme hbme)
  omega

end Arrays

/-! ### The two commands (R121, R123) -/

/-- The declared bits of RDSEC's destination are the run of the source, in the bits of `EM`. -/
theorem rdsec_emBit (hs : s.Inv) (hc : firstCause (checksOf (.rdsec hd hs1) s) = none) {u : Nat}
    (hu : u < (s.handle hd).lengthBits) :
    emBit s.par.w (effectOf (.rdsec hd hs1) s).em ((s.handle hd).first * s.par.w + u) =
      emBit s.par.w s.em ((s.handle hs1).first * s.par.w + (s.pos + u)) := by
  have hw := hs.params.1
  have hg := (operand_geometry hs hc (.head _)).1
  have hg1 := (operand_geometry hs hc (.tail _ (.head _))).1
  have hfits := (sectionInRange_iff s (s.handle hd).lengthBits hs1).1 (check_holds hc (by simp [checksOf]))
  have hdisjoint := disjoint_of_aliasing (hd := hd) (hs1 := hs1) hc (by simp [checksOf])
  exact (drawOverhang_emBit hg hw _ hu).trans (rdsecLoop_emBit hg1 hg hw hs.memory.read_lt hdisjoint hfits _ hu)

/-- A completing RDSEC leaves the elements outside the range of its destination. -/
theorem rdsec_frame (hs : s.Inv) (hc : firstCause (checksOf (.rdsec hd hs1) s) = none) {k : Nat}
    (hk : ¬ s.inRange hd k) : emRead (effectOf (.rdsec hd hs1) s).complete.em k = emRead s.em k := by
  have hg := (operand_geometry hs hc (.head _)).1
  have hlimiter := hg.limiter
  exact (drawOverhang_read_outside hg hs.params.1 _ hk).trans (fillUp_read_outside _ k (by omega))

/-- Settles O37: the loop copies the run, and the draw, the second one this execution takes, replaces the overhang bits
alone. -/
theorem rdsecCopiesTheRun : Obligations.RdsecCopiesTheRun := by
  intro hd hs1 s hs
  refine ⟨decode_fieldsWord (op := 0x30) rfl, mover_contract hs rfl fun hnone => ?_⟩
  refine ⟨_, exec_completes hs hnone, rfl, fun u hu => ?_, fun hbme => ?_, fun k hk => rdsec_frame hs hnone hk⟩
  · rw [State.abit_eq_emBit (t := State.complete _) hs.params.1 effectOf_par rfl,
      State.abit_eq_emBit (t := s) hs.params.1 rfl rfl]
    exact rdsec_emBit hs hnone hu
  · refine ⟨s.drawn + 1, Nat.le_succ _, Nat.lt_succ_self _, fun b hlow hb => ?_⟩
    exact (drawOverhang_testBit (operand_geometry hs hnone (.head _)).1 hbme _ hb).trans (if_neg (Nat.not_lt.2 hlow))

/-- When WRSEC's checks hold, the run lies inside the destination (R123). -/
theorem wrsec_fits (hc : firstCause (checksOf (.wrsec hd hs1) s) = none) :
    s.pos + (s.handle hs1).lengthBits ≤ (s.handle hd).lengthBits :=
  (sectionInRange_iff s (s.handle hs1).lengthBits hd).1 (check_holds hc (by simp [checksOf]))

/-- What a completing WRSEC writes, in the bits of `EM`. -/
theorem wrsec_runCopied (hs : s.Inv) (hc : firstCause (checksOf (.wrsec hd hs1) s) = none) :
    RunCopied s.par.w ((s.handle hs1).first * s.par.w) ((s.handle hd).first * s.par.w + s.pos)
      (s.handle hs1).lengthBits s.em (effectOf (.wrsec hd hs1) s).em :=
  wrsecLoop_runCopied (operand_geometry hs hc (.tail _ (.head _))).1 (operand_geometry hs hc (.head _)).1 hs.params.1
    (disjoint_of_aliasing hc (by simp [checksOf])) (wrsec_fits hc) s.em

/-- The stored bits of the destination after a completing WRSEC. -/
theorem wrsec_abit (hs : s.Inv) (hc : firstCause (checksOf (.wrsec hd hs1) s) = none) (u : Nat) :
    (effectOf (.wrsec hd hs1) s).complete.abit hd u =
      if s.pos ≤ u ∧ u < s.pos + (s.handle hs1).lengthBits then s.abit hs1 (u - s.pos) else s.abit hd u := by
  have hw := hs.params.1
  rw [State.abit_eq_emBit (t := State.complete _) hw effectOf_par rfl, State.abit_eq_emBit (t := s) hw rfl rfl,
    State.abit_eq_emBit (t := s) hw rfl rfl]
  refine (wrsec_runCopied hs hc _).trans (if_congr (by omega) ?_ rfl)
  simp only [Nat.add_sub_add_left]

/-- A completing WRSEC leaves the elements outside the range of its destination. -/
theorem wrsec_frame (hs : s.Inv) (hc : firstCause (checksOf (.wrsec hd hs1) s) = none) {k : Nat}
    (hk : ¬ s.inRange hd k) : emRead (effectOf (.wrsec hd hs1) s).complete.em k = emRead s.em k :=
  (wrsec_runCopied hs hc).frame (operand_geometry hs hc (.head _)).1 hs.params.1 (wrsec_fits hc) hs.memory.read_lt
    (effectOf_complete_inv hs hc).memory.read_lt hk

/-- Settles O38: the loop writes the run and nothing else. -/
theorem wrsecWritesExactlyTheRun : Obligations.WrsecWritesExactlyTheRun := by
  intro hd hs1 s hs
  refine ⟨decode_fieldsWord (op := 0x31) rfl, mover_contract hs rfl fun hnone => ?_⟩
  exact ⟨_, completesInMemory_setEm hs hnone rfl, fun u _ => wrsec_abit hs hnone u,
    fun _ hk => wrsec_frame hs hnone hk⟩

/-! ### Reading a section and writing it back -/

theorem disjoint_comm (a b : Handle) : disjoint a b = disjoint b a := by
  rw [disjoint, disjoint, min_comm, max_comm]

/-- RDSEC and the WRSEC that writes back what it has read have the same preconditions. -/
theorem wrsec_checks_of_rdsec {src dst : HSel} (hc : firstCause (checksOf (.rdsec dst src) s) = none) :
    firstCause (checksOf (.wrsec src dst) s) = none := by
  rw [firstCause_eq_none] at hc ⊢
  simp only [checksOf, List.forall_mem_cons, selectorsLegal_iff, handlesBound_iff, aliasing, List.map_cons,
    List.map_nil, allPairs, List.all_cons, List.all_nil, Bool.and_true] at hc ⊢
  obtain ⟨⟨hdst, hsrc, hnil⟩, ⟨hdstBound, hsrcBound, hnilBound⟩, hfits, hdisjoint⟩ := hc
  exact ⟨⟨hsrc, hdst, hnil⟩, ⟨hsrcBound, hdstBound, hnilBound⟩, hfits, disjoint_comm _ _ ▸ hdisjoint⟩

/-- Settles O39: the run of the source gets the bits it has given, and no other bit of the source changes. -/
theorem readThenWriteOfASectionRestores : Obligations.ReadThenWriteOfASectionRestores := by
  intro src dst s t hs hexec hok
  obtain ⟨hc, rfl⟩ := exec_next_of_noErr hexec hok
  have ht := effectOf_complete_inv hs hc
  have hc' : firstCause (checksOf (.wrsec src dst) (effectOf (.rdsec dst src) s).complete) = none :=
    wrsec_checks_of_rdsec hc
  refine ⟨_, completesInMemory_setEm ht hc' rfl, fun k hk => ?_⟩
  have hapart := disjoint_of_aliasing (hd := dst) (hs1 := src) hc (by simp [checksOf])
  have hkeep := rdsec_frame hs hc fun hin => (disjoint_iff_no_common_index _ _).1 hapart k ⟨hin, hk⟩
  refine emRead_eq_of_emBit_eq hs.memory.read_lt (effectOf_complete_inv ht hc').memory.read_lt fun b hb => ?_
  have hcopy : ∀ u < (s.handle dst).lengthBits, emBit s.par.w (effectOf (.rdsec dst src) s).em
      ((s.handle dst).first * s.par.w + u) = emBit s.par.w s.em ((s.handle src).first * s.par.w + s.pos + u) :=
    fun u hu => (rdsec_emBit hs hc hu).trans (by rw [Nat.add_assoc])
  have hkeepBit : emBit s.par.w (effectOf (.rdsec dst src) s).em (k * s.par.w + b) =
      emBit s.par.w s.em (k * s.par.w + b) :=
    (emBit_mul_add _ k hb).trans ((congrArg (Nat.testBit · b) hkeep).trans (emBit_mul_add _ k hb).symm)
  exact (wrsec_runCopied ht hc').restored hcopy hkeepBit

end Sys2Proof.Machine

/-! PROOFS. The statements of 43_bitwise_alu.md. First the chain of preconditions that the four commands share (R135),
then why each step of the loop finds its inputs as they were before the command (R136), then the effect for any operation
that works bit by bit, of which AND, OR, XOR and NOT are four (NOT looks at its input twice). -/

namespace Sys2Proof.Machine

variable {i : Instr} {s : State} {hd hs1 hs2 : HSel} {sources : List HSel}

/-! ### The preconditions (R64, R135) -/

/-- The machine's check of all pairs is Mathlib's `List.Pairwise`. -/
theorem allPairs_iff_pairwise (rel : Handle → Handle → Bool) (l : List Handle) :
    allPairs rel l = true ↔ l.Pairwise fun a b => rel a b = true := by
  induction l with
  | nil => simp [allPairs]
  | cons a rest ih => simp [allPairs, ih]

/-- For handles that satisfy R24 the contracts' form of "disjoint or coinciding" is the machine's check. -/
theorem State.apartOrSame_iff_disjointOrCoincide {a b : HSel} (hw : 1 ≤ s.par.w)
    (ha : GeometryHolds s.par (s.handle a)) (hb : GeometryHolds s.par (s.handle b)) :
    s.apartOrSame a b ↔ disjointOrCoincide (s.handle a) (s.handle b) = true := by
  rw [State.apartOrSame, State.apart_iff_disjoint hw ha hb]
  simp [disjointOrCoincide, coincide]

/-- The last check of the bitwise commands, in the words of the contracts. -/
theorem aliasing_disjointOrCoincide_iff (hs : s.Inv) {l : List HSel} (hbound : s.allBound l) :
    (aliasing s disjointOrCoincide l).1 = true ↔ l.Pairwise s.apartOrSame := by
  rw [aliasing, allPairs_iff_pairwise, List.pairwise_map]
  exact List.Pairwise.iff_of_mem fun ha hb => (State.apartOrSame_iff_disjointOrCoincide hs.params.1
    (hs.geometryOf _ (hbound _ ha)) (hs.geometryOf _ (hbound _ hb))).symm

/-! ### In-place use (R136) -/

/-- When the loop over the elements of `hd` comes to element `k`, it has not yet written element `k` of `h`: that lies
below the range of `hd`, or at or above element `k` of `hd`. -/
def State.ReadsAhead (s : State) (hd h : HSel) : Prop :=
  ∀ k < (s.handle hd).lengthElements, (s.handle h).first + k < (s.handle hd).first ∨
    (s.handle hd).first + k ≤ (s.handle h).first + k

/-- An array of the same length that is disjoint from the destination or coincides with it is read ahead of the writes. -/
theorem State.readsAhead_of_apartOrSame {h : HSel} (hw : 1 ≤ s.par.w) (hgd : GeometryHolds s.par (s.handle hd))
    (hg : GeometryHolds s.par (s.handle h)) (hbits : (s.handle h).lengthBits = (s.handle hd).lengthBits)
    (hrel : s.apartOrSame hd h) : s.ReadsAhead hd h := by
  intro k hk
  have hn := hg.lengthElements_congr hgd hbits
  have hnonempty := hgd.lengthElements_eq_zero_iff hw
  have hlimd := hgd.limiter
  have hlim := hg.limiter
  obtain hapart | ⟨hfirst, -⟩ := hrel
  · simp only [State.apart] at hapart
    omega
  · exact .inr (by rw [hfirst])

/-- The chain of a bitwise command: `L` and `P` are the contract's words for its last two checks. When all checks hold,
every source is read ahead of the writes. -/
theorem bitwise_contract {L P A : Prop} [Decidable L] [Decidable P] (hs : s.Inv)
    (hchecks : checksOf i s = bitwiseChecks s hd sources)
    (hL : L ↔ ∀ h ∈ sources, (s.handle h).lengthBits = (s.handle hd).lengthBits)
    (hP : P ↔ (hd :: sources).Pairwise s.apartOrSame)
    (hrest : GeometryHolds s.par (s.handle hd) → (∀ h ∈ sources, s.ReadsAhead hd h) →
      firstCause (checksOf i s) = none → A) :
    if ¬ s.legal (hd :: sources) then raises i s .illegalCommand
    else if ¬ s.allBound (hd :: sources) then raises i s .unboundHandle
    else if ¬ L then raises i s .lengthMismatch
    else if ¬ P then raises i s .aliased
    else A := by
  refine contract_link (congrArg firstCause hchecks) (selectorsLegal_iff s _) fun _ hleft => ?_
  refine contract_link hleft (handlesBound_iff s _) fun hbound hleft => ?_
  refine contract_link hleft ((lengthsAgree_iff s hd sources).trans hL.symm) fun hlengths hleft => ?_
  refine contract_link hleft ((aliasing_disjointOrCoincide_iff hs hbound).trans hP.symm) fun hpairs hnone => ?_
  have hg : ∀ h ∈ hd :: sources, GeometryHolds s.par (s.handle h) := fun h hmem => hs.geometryOf h (hbound h hmem)
  exact hrest (hg hd (.head _)) (fun h hmem => State.readsAhead_of_apartOrSame hs.params.1 (hg hd (.head _))
    (hg h (.tail _ hmem)) (hL.1 hlengths h hmem) (List.rel_of_pairwise_cons (hP.1 hpairs) hmem)) hnone

/-! ### The effect (R130 to R134) -/

/-- On elements of `w` bits `op` gives elements of `w` bits, and each bit of its value is `f` of the same bit of the two
inputs. -/
structure BitByBit (w : Nat) (op : Elem → Elem → Elem) (f : Bool → Bool → Bool) : Prop where
  /-- The value fits in an element. -/
  lt : ∀ ⦃x y : Elem⦄, x < 2 ^ w → y < 2 ^ w → op x y < 2 ^ w
  /-- Bit `b` of the value depends on the bits `b` of the inputs alone. -/
  testBit : ∀ ⦃x y : Elem⦄, x < 2 ^ w → y < 2 ^ w → ∀ b < w, (op x y).testBit b = f (x.testBit b) (y.testBit b)

theorem bitByBit_and (w : Nat) : BitByBit w (fun x y => x &&& y) (fun a b => a && b) where
  lt _ _ hx _ := Nat.and_le_left.trans_lt hx
  testBit x y _ _ b _ := Nat.testBit_and x y b

theorem bitByBit_or (w : Nat) : BitByBit w (fun x y => x ||| y) (fun a b => a || b) where
  lt _ _ hx hy := Nat.or_lt_two_pow hx hy
  testBit x y _ _ b _ := Nat.testBit_or x y b

theorem bitByBit_xor (w : Nat) : BitByBit w (fun x y => x ^^^ y) (fun a b => a ^^ b) where
  lt _ _ hx hy := Nat.xor_lt_two_pow hx hy
  testBit x y _ _ b _ := Nat.testBit_xor x y b

theorem bitByBit_compl (w : Nat) : BitByBit w (fun x _ => compl w x) (fun a _ => !a) where
  lt x _ _ _ := compl_lt w x
  testBit x _ hx _ b hb := by rw [testBit_compl w b x hx, decide_eq_true hb, Bool.true_and]

variable {op : Elem → Elem → Elem} {f : Bool → Bool → Bool}

/-- NOT is the loop of the other three with both inputs the same array. -/
theorem bitwise1_eq_bitwise2 (s : State) (op : Elem → Elem) (hd hs1 : HSel) :
    bitwise1 s op hd hs1 = bitwise2 s (fun x _ => op x) hd hs1 hs1 := rfl

/-- Element `k` of the destination is computed from the inputs before the command, in place or not (R136). -/
theorem bitwise2_read (hs : s.Inv) (hop : BitByBit s.par.w op f) (h1 : s.ReadsAhead hd hs1) (h2 : s.ReadsAhead hd hs2)
    {k : Nat} (hk : k < (s.handle hd).lengthElements) :
    emRead (bitwise2 s op hd hs1 hs2).em ((s.handle hd).first + k) =
      op (emRead s.em ((s.handle hs1).first + k)) (emRead s.em ((s.handle hs2).first + k)) := by
  have hfits := hop.lt (hs.memory.read_lt ((s.handle hs1).first + k)) (hs.memory.read_lt ((s.handle hs2).first + k))
  refine (fillUp_read_of_lookAhead s.em (fun j hj m hm => ?_) k hk).trans (Nat.mod_eq_of_lt hfits)
  exact congrArg₂ op (hm _ (h1 j hj)) (hm _ (h2 j hj))

/-- Stored bit `u` of the destination, overhang bits included. -/
theorem bitwise2_abit (hs : s.Inv) (hop : BitByBit s.par.w op f) (h1 : s.ReadsAhead hd hs1) (h2 : s.ReadsAhead hd hs2)
    {u : Nat} (hu : u < s.storedBits hd) :
    (bitwise2 s op hd hs1 hs2).abit hd u = f (s.abit hs1 u) (s.abit hs2 u) := by
  have hk : u / s.par.w < (s.handle hd).lengthElements := Nat.div_lt_of_lt_mul (Nat.mul_comm _ _ ▸ hu)
  have hread := congrArg (Nat.testBit · (u % s.par.w)) (bitwise2_read hs hop h1 h2 hk)
  exact hread.trans (hop.testBit (hs.memory.read_lt _) (hs.memory.read_lt _) _ (Nat.mod_lt u hs.params.1))

theorem bitwise2_frame (op : Elem → Elem → Elem) (hs1 hs2 : HSel) (hg : GeometryHolds s.par (s.handle hd)) {k : Nat}
    (hk : ¬ s.inRange hd k) : emRead (bitwise2 s op hd hs1 hs2).em k = emRead s.em k :=
  fillUp_read_outside s.em k (by have := hg.limiter; omega)

/-- How a command completes whose effect combines two arrays bit by bit. -/
theorem bitwise2_completes (hs : s.Inv) (hnone : firstCause (checksOf i s) = none)
    (heffect : effectOf i s = bitwise2 s op hd hs1 hs2) (hop : BitByBit s.par.w op f)
    (hg : GeometryHolds s.par (s.handle hd)) (h1 : s.ReadsAhead hd hs1) (h2 : s.ReadsAhead hd hs2) :
    ∃ t, completesInMemory i s t ∧
      (∀ k < (s.handle hd).lengthElements, emRead t.em ((s.handle hd).first + k) =
        op (emRead s.em ((s.handle hs1).first + k)) (emRead s.em ((s.handle hs2).first + k))) ∧
      (∀ u < s.storedBits hd, t.abit hd u = f (s.abit hs1 u) (s.abit hs2 u)) ∧
      ∀ k, ¬ s.inRange hd k → emRead t.em k = emRead s.em k :=
  ⟨_, completesInMemory_setEm hs hnone heffect, fun _ hk => bitwise2_read hs hop h1 h2 hk,
    fun _ hu => bitwise2_abit hs hop h1 h2 hu, fun _ hk => bitwise2_frame op hs1 hs2 hg hk⟩

/-- The contract of a command on two inputs. -/
theorem bitwise2_contract (hs : s.Inv) (hchecks : checksOf i s = bitwiseChecks s hd [hs1, hs2])
    (heffect : effectOf i s = bitwise2 s op hd hs1 hs2) (hop : BitByBit s.par.w op f) :
    if ¬ s.legal [hd, hs1, hs2] then raises i s .illegalCommand
    else if ¬ s.allBound [hd, hs1, hs2] then raises i s .unboundHandle
    else if ¬ ((s.handle hs1).lengthBits = (s.handle hd).lengthBits ∧
        (s.handle hs2).lengthBits = (s.handle hd).lengthBits) then raises i s .lengthMismatch
    else if ¬ (s.apartOrSame hd hs1 ∧ s.apartOrSame hd hs2 ∧ s.apartOrSame hs1 hs2) then raises i s .aliased
    else ∃ t, completesInMemory i s t ∧
      (∀ k < (s.handle hd).lengthElements, emRead t.em ((s.handle hd).first + k) =
        op (emRead s.em ((s.handle hs1).first + k)) (emRead s.em ((s.handle hs2).first + k))) ∧
      (∀ u < s.storedBits hd, t.abit hd u = f (s.abit hs1 u) (s.abit hs2 u)) ∧
      ∀ k, ¬ s.inRange hd k → emRead t.em k = emRead s.em k :=
  bitwise_contract hs hchecks (by simp) (by simp [and_assoc]) fun hg hahead hnone =>
    bitwise2_completes hs hnone heffect hop hg (hahead hs1 (by simp)) (hahead hs2 (by simp))

/-- Settles O40: AND works bit by bit. -/
theorem andCombinesElementwise : Obligations.AndCombinesElementwise := fun _ _ _ s hs =>
  ⟨decode_fieldsWord (op := 0x40) rfl, bitwise2_contract hs rfl rfl (bitByBit_and s.par.w)⟩

/-- Settles O41: OR works bit by bit. -/
theorem orCombinesElementwise : Obligations.OrCombinesElementwise := fun _ _ _ s hs =>
  ⟨decode_fieldsWord (op := 0x41) rfl, bitwise2_contract hs rfl rfl (bitByBit_or s.par.w)⟩

/-- Settles O42: XOR works bit by bit. -/
theorem xorCombinesElementwise : Obligations.XorCombinesElementwise := fun _ _ _ s hs =>
  ⟨decode_fieldsWord (op := 0x42) rfl, bitwise2_contract hs rfl rfl (bitByBit_xor s.par.w)⟩

/-- Settles O43: `ONES - x` inverts each of the `W` bits of an element. -/
theorem notInvertsElementwise : Obligations.NotInvertsElementwise := by
  intro hd hs1 s hs
  refine ⟨decode_fieldsWord (op := 0x43) rfl, ?_⟩
  refine bitwise_contract hs rfl (by simp) (by simp) fun hg hahead hnone => ?_
  have hahead1 := hahead hs1 (List.mem_singleton_self hs1)
  exact bitwise2_completes hs hnone (bitwise1_eq_bitwise2 s _ hd hs1) (bitByBit_compl s.par.w) hg hahead1 hahead1

end Sys2Proof.Machine

/-! PROOFS. The statements of 44_ripple_carry_adder.md. First the full adder of one element (R141) and what the last
element gives under its mask (R143). Then the carry chain (R142): after any number of elements the sum so far is exact,
so the whole sum is (R140). Last, that an exact sum is what a bit-serial full adder gives (95_test_vectors.md S7). -/

namespace Sys2Proof.Machine

/-! ### The element full adder (R141) -/

section Element

variable {w bme x y : Nat} {c : Bool}

/-- One addition step of `fa`: the cut sum is below the first summand exactly when the step overflowed. -/
theorem mod_add_overflow {n x y : Nat} (hx : x < n) (hy : y < n) :
    (x + y) % n + n * (decide ((x + y) % n < x)).toNat = x + y := by
  by_cases hfits : x + y < n
  · simp [Nat.mod_eq_of_lt hfits]
  · have hmod : (x + y) % n = x + y - n := by rw [Nat.mod_eq_sub_mod (by omega), Nat.mod_eq_of_lt (by omega)]
    rw [hmod, decide_eq_true (by omega), Bool.toNat_true]
    omega

/-- Two exact steps that add up to less than twice `n` do not both carry, so their carries add up to `c1 || c2`. -/
theorem two_steps_exact {n x y c t v : Nat} {c1 c2 : Bool} (hlt : x + c + y < 2 * n) (hfirst : t + n * c1.toNat = x + c)
    (hsecond : v + n * c2.toNat = t + y) : v + n * (c1 || c2).toNat = x + y + c := by
  cases c1 <;> cases c2 <;> simp at hfirst hsecond ⊢ <;> omega

/-- The full adder is exact, at every element width. -/
theorem fullAdd_exact (hw : 1 ≤ w) (hx : x < 2 ^ w) (hy : y < 2 ^ w) (c : Bool) :
    (fullAdd w x y c).1 < 2 ^ w ∧ (fullAdd w x y c).1 + 2 ^ w * (fullAdd w x y c).2.toNat = x + y + c.toNat := by
  have hone : 1 < 2 ^ w := Nat.one_lt_two_pow (by omega)
  have hc : c.toNat < 2 := Bool.toNat_lt c
  have hfirst := mod_add_overflow hx (y := c.toNat) (by omega)
  have hsecond := mod_add_overflow (Nat.mod_lt (x + c.toNat) (Nat.two_pow_pos w)) hy
  exact ⟨Nat.mod_lt _ (Nat.two_pow_pos w), two_steps_exact (by omega) hfirst hsecond⟩

/-- A sum that fits in an element has no carry. -/
theorem fullAdd_of_lt (hw : 1 ≤ w) (hfits : x + y + c.toNat < 2 ^ w) :
    fullAdd w x y c = (x + y + c.toNat, false) := by
  obtain ⟨-, hsum⟩ := fullAdd_exact hw (show x < 2 ^ w by omega) (show y < 2 ^ w by omega) c
  cases hcarry : (fullAdd w x y c).2 with
  | false => exact Prod.ext (by simpa [hcarry] using hsum) hcarry
  | true =>
    rw [hcarry] at hsum
    have hle : 2 ^ w * 1 ≤ x + y + c.toNat := (Nat.le_add_left _ _).trans_eq hsum
    omega

/-- How many bits of its last element a nonempty array declares (R24). -/
def lastBits (w bme : Nat) : Nat := if bme = 0 then w else bme

theorem lastBits_le (h : bme < w) : lastBits w bme ≤ w := by
  unfold lastBits
  split <;> omega

/-- Masked operands with a boundary bit to spare: the last step does not overflow (R143). -/
theorem fullAdd_of_boundaryBit (h : bme < w) (hx : x < 2 ^ bme) (hy : y < 2 ^ bme) (c : Bool) :
    x + y + c.toNat < 2 ^ (bme + 1) ∧ fullAdd w x y c = (x + y + c.toNat, false) := by
  have hc : c.toNat < 2 := Bool.toNat_lt c
  have hsum : x + y + c.toNat < 2 ^ (bme + 1) := by rw [Nat.pow_succ]; omega
  exact ⟨hsum, fullAdd_of_lt (by omega) (hsum.trans_le (Nat.pow_le_pow_right (by decide) h))⟩

/-- The declared bits of the last sum and the carry-out are exact, with and without overhang bits (R143). -/
theorem carryOut_exact (h : bme < w) (hx : x < 2 ^ lastBits w bme) (hy : y < 2 ^ lastBits w bme) (c : Bool) :
    (fullAdd w x y c).1 % 2 ^ lastBits w bme +
      2 ^ lastBits w bme * (carryOut bme (fullAdd w x y c).1 (fullAdd w x y c).2).toNat = x + y + c.toNat := by
  unfold lastBits at *
  unfold carryOut
  split at hx
  · next hzero =>
    rw [if_pos hzero] at hy ⊢
    obtain ⟨hlt, hsum⟩ := fullAdd_exact (by omega) hx hy c
    rwa [if_pos hzero, Nat.mod_eq_of_lt hlt]
  · next hbme =>
    rw [if_neg hbme] at hy ⊢
    obtain ⟨hlt, hsum⟩ := fullAdd_of_boundaryBit h hx hy c
    rw [if_neg hbme, hsum, Nat.toNat_testBit, ← Nat.mod_pow_succ, Nat.mod_eq_of_lt hlt]

/-- Above the declared bits the last sum has the carry-out in its boundary bit and zeros (R143). -/
theorem testBit_fullAdd_overhang (hbme : bme ≠ 0) (h : bme < w) (hx : x < 2 ^ bme) (hy : y < 2 ^ bme) (c : Bool)
    {b : Nat} (hb : bme ≤ b) : (fullAdd w x y c).1.testBit b =
      (decide (b = bme) && carryOut bme (fullAdd w x y c).1 (fullAdd w x y c).2) := by
  rw [carryOut, if_neg hbme]
  by_cases hboundary : b = bme
  · rw [hboundary, decide_eq_true rfl, Bool.true_and]
  · obtain ⟨hlt, hsum⟩ := fullAdd_of_boundaryBit h hx hy c
    rw [decide_eq_false hboundary, Bool.false_and, hsum]
    exact testBit_of_lt (bme + 1) b _ hlt (by omega)

end Element

/-- Settles O44: both addition steps are exact, and they do not both overflow. -/
theorem elementFullAdderIsExact : Obligations.ElementFullAdderIsExact := fun _ _ _ c hw hx hy =>
  fullAdd_exact hw hx hy c

/-! ### The value of the first bits of an array (R16) -/

theorem bitsToNat_add (f : Nat → Bool) (n k : Nat) :
    bitsToNat f (n + k) = bitsToNat f n + 2 ^ n * bitsToNat (fun u => f (n + u)) k := by
  induction k with
  | zero => rfl
  | succ k ih =>
    rw [← Nat.add_assoc, bitsToNat, ih, bitsToNat, Nat.pow_add]
    ring

theorem bitsToNat_testBit (x n : Nat) : bitsToNat x.testBit n = x % 2 ^ n :=
  Nat.eq_of_testBit_eq fun b => by rw [testBit_bitsToNat, Nat.testBit_mod_two_pow]

section Chain

variable {w n d a b o : Nat} {m m' : Memory} {c : Bool}

/-- The value of the first `n` stored bits of an array that begins at element `first`. -/
def lowBitsValue (w first : Nat) (m : Memory) (n : Nat) : Nat := bitsToNat (storedBit w first m) n

/-- The first `d` bits of element `k` above the elements below it. -/
theorem lowBitsValue_mul_add (first : Nat) (m : Memory) (k : Nat) (hd : d ≤ w) : lowBitsValue w first m (k * w + d) =
    lowBitsValue w first m (k * w) + 2 ^ (k * w) * (emRead m (first + k) % 2 ^ d) := by
  have hbits : ∀ u < d, storedBit w first m (k * w + u) = (emRead m (first + k)).testBit u := by
    intro u hu
    rw [storedBit, Nat.mul_comm, Nat.mul_add_div (by omega), Nat.mul_add_mod, Nat.div_eq_of_lt (by omega),
      Nat.mod_eq_of_lt (by omega), Nat.add_zero]
  rw [lowBitsValue, bitsToNat_add, bitsToNat_congr _ _ d hbits, bitsToNat_testBit]
  rfl

/-- The value depends on the elements that hold the bits alone. -/
theorem lowBitsValue_congr {first : Nat} (hm : ∀ k < n, emRead m (first + k) = emRead m' (first + k)) :
    lowBitsValue w first m (n * w) = lowBitsValue w first m' (n * w) :=
  bitsToNat_congr _ _ _ fun u hu => by
    rw [storedBit, storedBit, hm _ (Nat.div_lt_of_lt_mul (Nat.mul_comm n w ▸ hu))]

/-! ### The carry chain (R142) -/

/-- What the chain has done after `n` elements: from `m` to the memory `r.1` nothing but the `n` elements from `o` on
has changed, and the first `bits` bits there with the carry `r.2` above them are the sum of those from `a` on, of those
from `b` on and of the carry-in. -/
structure SumsUpTo (w a b o : Nat) (cin : Bool) (m : Memory) (n bits : Nat) (r : Memory × Bool) : Prop where
  /-- Every other element is as before. -/
  outside : ∀ k, k < o ∨ o + n ≤ k → emRead r.1 k = emRead m k
  /-- The sum so far is exact. -/
  sum : lowBitsValue w o r.1 bits + 2 ^ bits * r.2.toNat = lowBitsValue w a m bits + lowBitsValue w b m bits + cin.toNat

/-- One more element of which the first `d` bits and the new carry are exact. -/
theorem SumsUpTo.write {cin c' : Bool} {v : Elem} (h : SumsUpTo w a b o cin m n (n * w) (m', c)) (hd : d ≤ w)
    (hv : v < 2 ^ w) (hexact : v % 2 ^ d + 2 ^ d * c'.toNat =
      emRead m (a + n) % 2 ^ d + emRead m (b + n) % 2 ^ d + c.toNat) :
    SumsUpTo w a b o cin m (n + 1) (n * w + d) (emWrite w m' (o + n) v, c') where
  outside k hk := (emRead_emWrite_ne _ _ _ _ _ (by omega)).trans (h.outside k (by omega))
  sum := by
    have hkeep : lowBitsValue w o (emWrite w m' (o + n) v) (n * w) = lowBitsValue w o m' (n * w) :=
      lowBitsValue_congr fun k hk => emRead_emWrite_ne _ _ _ _ _ (by omega)
    have hsum := h.sum
    simp only [lowBitsValue_mul_add _ _ _ hd, hkeep, emRead_emWrite_same, Nat.mod_eq_of_lt hv, Nat.pow_add]
    linear_combination hsum + 2 ^ (n * w) * hexact

/-- The chain of whole elements: each is read before an element at its place is written. -/
theorem sumsUpTo_addSteps (hw : 1 ≤ w) (hm : ∀ k, emRead m k < 2 ^ w) (cin : Bool)
    (ha : ∀ k < n, a + k < o ∨ o + k ≤ a + k) (hb : ∀ k < n, b + k < o ∨ o + k ≤ b + k) :
    SumsUpTo w a b o cin m n (n * w) (forUp n (addStep w a b o) (m, cin)) := by
  refine forUp_induct (fun k r => SumsUpTo w a b o cin m k (k * w) r) _ _ n
    ⟨fun _ _ => rfl, by simp [lowBitsValue, bitsToNat]⟩ fun k r hk ih => ?_
  obtain ⟨hlt, hexact⟩ := fullAdd_exact hw (hm (a + k)) (hm (b + k)) r.2
  rw [addStep, ih.outside _ (ha k hk), ih.outside _ (hb k hk), Nat.succ_mul]
  refine ih.write le_rfl hlt ?_
  rwa [Nat.mod_eq_of_lt hlt, Nat.mod_eq_of_lt (hm _), Nat.mod_eq_of_lt (hm _)]

end Chain

/-! ### The effect (R140, R143) -/

theorem GeometryHolds.bme_lt {p : Params} {h : Handle} (hg : GeometryHolds p h) (hw : 1 ≤ p.w) : h.bme < p.w :=
  hg.bme ▸ Nat.mod_lt _ hw

/-- The overhang mask cuts the last element to its declared bits (R24, R67). -/
theorem GeometryHolds.and_overhangMask {p : Params} {h : Handle} (hg : GeometryHolds p h) (x : Elem) :
    x &&& h.overhangMask = x % 2 ^ lastBits p.w h.bme := by
  rw [hg.overhangMask, lastBits]
  split <;> exact Nat.and_two_pow_sub_one_eq_mod _ _

theorem GeometryHolds.overhangMask_congr {p : Params} {a b : Handle} (ha : GeometryHolds p a) (hb : GeometryHolds p b)
    (h : a.lengthBits = b.lengthBits) : a.overhangMask = b.overhangMask := by
  rw [ha.overhangMask, hb.overhangMask, ha.bme, hb.bme, h]

variable {s : State} {hd hs1 hs2 : HSel} {cin : Bool}

/-- Array `h` can be an input of ADD with the output `hd`: it has the shape of `hd`, and its elements are read before
elements of `hd` are written over them. -/
structure State.AddInput (s : State) (hd h : HSel) : Prop where
  lengthBits : (s.handle h).lengthBits = (s.handle hd).lengthBits
  lengthElements : (s.handle h).lengthElements = (s.handle hd).lengthElements
  overhangMask : (s.handle h).overhangMask = (s.handle hd).overhangMask
  ahead : s.ReadsAhead hd h

/-- What the effect of ADD needs of its operands. -/
structure State.AddReady (s : State) (hd hs1 hs2 : HSel) : Prop where
  width : 1 ≤ s.par.w
  elements : ∀ k, emRead s.em k < 2 ^ s.par.w
  output : GeometryHolds s.par (s.handle hd)
  nonempty : 0 < (s.handle hd).lengthElements
  input1 : s.AddInput hd hs1
  input2 : s.AddInput hd hs2

/-- The checks of ADD establish it. -/
theorem addReady_of_checks (hs : s.Inv) (hc : firstCause (checksOf (.add hd hs1 hs2 cin) s) = none) :
    s.AddReady hd hs1 hs2 := by
  have hw := hs.params.1
  have hg : ∀ h ∈ [hd, hs1, hs2], GeometryHolds s.par (s.handle h) := fun h hmem => (operand_geometry hs hc hmem).1
  have hgd := hg hd (.head _)
  have hlengths := (lengthsAgree_iff s hd [hs1, hs2]).1 (check_holds hc (by simp [checksOf]))
  have hdisjoint : ∀ h ∈ [hs1, hs2], disjoint (s.handle hd) (s.handle h) = true :=
    aliasing_head (check_holds hc (by simp [checksOf]))
  have hinput : ∀ h ∈ [hs1, hs2], s.AddInput hd h := fun h hmem =>
    have hgh := hg h (.tail _ hmem)
    have hbits := hlengths h hmem
    { lengthBits := hbits
      lengthElements := hgh.lengthElements_congr hgd hbits
      overhangMask := hgh.overhangMask_congr hgd hbits
      ahead := s.readsAhead_of_apartOrSame hw hgd hgh hbits
        (.inl ((State.apart_iff_disjoint hw hgd hgh).2 (hdisjoint h hmem))) }
  exact { width := hw, elements := hs.memory.read_lt, output := hgd
          nonempty := (hgd.last_eq hw ((notEmpty_iff s hd).1 (check_holds hc (by simp [checksOf])))).1
          input1 := hinput hs1 (.head _), input2 := hinput hs2 (.tail _ (.head _)) }

/-- The declared bits of the last element of an input. -/
def State.lastOperand (s : State) (hd h : HSel) : Elem :=
  emRead s.em ((s.handle h).first + ((s.handle hd).lengthElements - 1)) % 2 ^ lastBits s.par.w (s.handle hd).bme

/-- Memory and carry when the chain comes to the last element. -/
def State.addLow (s : State) (hd hs1 hs2 : HSel) (cin : Bool) : Memory × Bool :=
  forUp ((s.handle hd).lengthElements - 1)
    (addStep s.par.w (s.handle hs1).first (s.handle hs2).first (s.handle hd).first) (s.em, cin)

/-- Sum and carry of the last element. -/
def State.addLast (s : State) (hd hs1 hs2 : HSel) (cin : Bool) : Elem × Bool :=
  fullAdd s.par.w (s.lastOperand hd hs1) (s.lastOperand hd hs2) (s.addLow hd hs1 hs2 cin).2

theorem State.addLast_lt (s : State) (hd hs1 hs2 : HSel) (cin : Bool) :
    (s.addLast hd hs1 hs2 cin).1 < 2 ^ s.par.w := Nat.mod_lt _ (Nat.two_pow_pos _)

namespace State.AddReady

variable (h : s.AddReady hd hs1 hs2) (cin)
include h

theorem bme_lt : (s.handle hd).bme < s.par.w := h.output.bme_lt h.width

theorem addLow_sumsUpTo : SumsUpTo s.par.w (s.handle hs1).first (s.handle hs2).first (s.handle hd).first cin s.em
    ((s.handle hd).lengthElements - 1) (((s.handle hd).lengthElements - 1) * s.par.w) (s.addLow hd hs1 hs2 cin) :=
  sumsUpTo_addSteps h.width h.elements cin (fun k _ => h.input1.ahead k (by omega))
    (fun k _ => h.input2.ahead k (by omega))

/-- The effect of ADD in terms of the state before it. -/
theorem addEffect_eq : addEffect hd hs1 hs2 cin s =
    (s.setEm (emWrite s.par.w (s.addLow hd hs1 hs2 cin).1 ((s.handle hd).first + ((s.handle hd).lengthElements - 1))
      (s.addLast hd hs1 hs2 cin).1)).setCarry
    (carryOut (s.handle hd).bme (s.addLast hd hs1 hs2 cin).1 (s.addLast hd hs1 hs2 cin).2) := by
  have hlow := h.addLow_sumsUpTo cin
  have hn := h.nonempty
  have hx := hlow.outside _ (h.input1.ahead _ (Nat.sub_one_lt_of_lt hn))
  have hy := hlow.outside _ (h.input2.ahead _ (Nat.sub_one_lt_of_lt hn))
  unfold State.addLow at hx hy
  simp only [addEffect, addChain, h.input1.lengthElements, h.input1.overhangMask, h.output.and_overhangMask, hx, hy,
    emRead_emWrite_same]
  exact congrArg (fun v => (s.setEm _).setCarry (carryOut _ v _)) (Nat.mod_eq_of_lt (s.addLast_lt hd hs1 hs2 cin))

/-- After the effect the whole sum is exact, and nothing but the output has changed (R140). -/
theorem addEffect_sumsUpTo : SumsUpTo s.par.w (s.handle hs1).first (s.handle hs2).first (s.handle hd).first cin s.em
    (s.handle hd).lengthElements (s.handle hd).lengthBits
    ((addEffect hd hs1 hs2 cin s).em, (addEffect hd hs1 hs2 cin s).carry) := by
  have hwrite := (h.addLow_sumsUpTo cin).write (lastBits_le h.bme_lt) (s.addLast_lt hd hs1 hs2 cin)
    (carryOut_exact h.bme_lt (Nat.mod_lt _ (Nat.two_pow_pos _)) (Nat.mod_lt _ (Nat.two_pow_pos _)) _)
  rw [h.addEffect_eq cin, h.output.lengthBits_eq h.width h.nonempty]
  rwa [Nat.sub_add_cancel h.nonempty] at hwrite

/-- The overhang bits that the effect leaves (R143). -/
theorem addEffect_overhang (hbme : (s.handle hd).bme ≠ 0) {b : Nat} (hb : (s.handle hd).bme ≤ b) :
    (emRead (addEffect hd hs1 hs2 cin s).em (s.handle hd).last).testBit b =
      (decide (b = (s.handle hd).bme) && (addEffect hd hs1 hs2 cin s).carry) := by
  have hoperand : ∀ k, s.lastOperand hd k < 2 ^ (s.handle hd).bme := fun k => by
    rw [State.lastOperand, lastBits, if_neg hbme]
    exact Nat.mod_lt _ (Nat.two_pow_pos _)
  rw [h.addEffect_eq cin, (h.output.last_eq h.width (h.output.lengthBits_pos_of_bme hbme)).2]
  simp only [State.setCarry_em, State.setEm_em, State.setCarry_carry, emRead_emWrite_same,
    Nat.mod_eq_of_lt (s.addLast_lt hd hs1 hs2 cin)]
  exact testBit_fullAdd_overhang hbme h.bme_lt (hoperand hs1) (hoperand hs2) _ hb

/-- The exact sum in the values that the contract speaks of (R16, R140). -/
theorem val_addEffect : (addEffect hd hs1 hs2 cin s).val hd +
    2 ^ (s.handle hd).lengthBits * (addEffect hd hs1 hs2 cin s).carry.toNat = s.val hs1 + s.val hs2 + cin.toNat := by
  have hsum := (h.addEffect_sumsUpTo cin).sum
  rw [State.val, State.val, State.val, h.input1.lengthBits, h.input2.lengthBits]
  exact hsum

end State.AddReady

/-! ### The contract (R140, R144) -/

/-- The last check of ADD, in the words of the contracts. -/
theorem aliasing_disjoint_iff_pairwise (hs : s.Inv) {l : List HSel} (hbound : s.allBound l) :
    (aliasing s disjoint l).1 = true ↔ l.Pairwise s.apart := by
  rw [aliasing, allPairs_iff_pairwise, List.pairwise_map]
  exact List.Pairwise.iff_of_mem fun ha hb => (State.apart_iff_disjoint hs.params.1
    (hs.geometryOf _ (hbound _ ha)) (hs.geometryOf _ (hbound _ hb))).symm

/-- The chain of preconditions of ADD. -/
theorem add_contract {A : Prop} (hs : s.Inv)
    (hrest : firstCause (checksOf (.add hd hs1 hs2 cin) s) = none → A) :
    if ¬ s.legal [hd, hs1, hs2] then raises (.add hd hs1 hs2 cin) s .illegalCommand
    else if ¬ s.allBound [hd, hs1, hs2] then raises (.add hd hs1 hs2 cin) s .unboundHandle
    else if ¬ ((s.handle hs1).lengthBits = (s.handle hd).lengthBits ∧
        (s.handle hs2).lengthBits = (s.handle hd).lengthBits) then raises (.add hd hs1 hs2 cin) s .lengthMismatch
    else if ¬ 0 < (s.handle hd).lengthBits then raises (.add hd hs1 hs2 cin) s .empty
    else if ¬ (s.apart hd hs1 ∧ s.apart hd hs2 ∧ s.apart hs1 hs2) then raises (.add hd hs1 hs2 cin) s .aliased
    else A := by
  refine contract_link rfl (selectorsLegal_iff s _) fun _ hleft => ?_
  refine contract_link hleft (handlesBound_iff s _) fun hbound hleft => ?_
  refine contract_link hleft ((lengthsAgree_iff s hd [hs1, hs2]).trans (by simp)) fun _ hleft => ?_
  refine contract_link hleft (notEmpty_iff s hd) fun _ hleft => ?_
  exact contract_link hleft ((aliasing_disjoint_iff_pairwise hs hbound).trans (by simp [and_assoc])) fun _ => hrest

/-- Settles O45: the carry chain is exact from the lowest element to the declared bits of the last. -/
theorem addIsExactUnsignedAddition : Obligations.AddIsExactUnsignedAddition := by
  intro hd hs1 hs2 cin s hs
  refine ⟨decode_fieldsWord (op := 0x50) rfl, add_contract hs fun hnone => ?_⟩
  have hready := addReady_of_checks hs hnone
  have hlimiter := hready.output.limiter
  exact ⟨_, exec_completes hs hnone, rfl, hready.val_addEffect cin, bitsToNat_lt _ _,
    fun hbme _ hb _ => hready.addEffect_overhang cin hbme hb,
    fun k hk => (hready.addEffect_sumsUpTo cin).outside k (by omega)⟩

/-! ### The bit-serial full adder (95_test_vectors.md S7) -/

/-- Sum bit `u` of a bit-serial full adder on `a` and `b`. -/
def serialSum (a b : Nat → Bool) (cin : Bool) (u : Nat) : Bool := a u ^^ b u ^^ serialCarry a b cin u

/-- One bit of a full adder: the parity and the majority are the sum. -/
theorem parity_add_majority (x y c : Bool) :
    (x ^^ y ^^ c).toNat + 2 * ((x && y) || (x && c) || (y && c)).toNat = x.toNat + y.toNat + c.toNat := by
  cases x <;> cases y <;> cases c <;> rfl

/-- The bit-serial full adder is exact after every bit. -/
theorem serialSum_exact (a b : Nat → Bool) (cin : Bool) (n : Nat) :
    bitsToNat (serialSum a b cin) n + 2 ^ n * (serialCarry a b cin n).toNat =
      bitsToNat a n + bitsToNat b n + cin.toNat := by
  induction n with
  | zero => simp [bitsToNat, serialCarry]
  | succ n ih =>
    have hbit := parity_add_majority (a n) (b n) (serialCarry a b cin n)
    simp only [bitsToNat, serialSum, serialCarry, Nat.pow_succ]
    linear_combination ih + 2 ^ n * hbit

/-- "this fixes both uniquely" (R140): a value below `2^n` and a carry above it. -/
theorem bitsToNat_carry_unique {f g : Nat → Bool} {n : Nat} {c c' : Bool}
    (h : bitsToNat f n + 2 ^ n * c.toNat = bitsToNat g n + 2 ^ n * c'.toNat) : (∀ u < n, f u = g u) ∧ c = c' := by
  have hpos := Nat.two_pow_pos n
  have hvalue := congrArg (· % 2 ^ n) h
  have hcarry := congrArg (· / 2 ^ n) h
  simp only [Nat.add_mul_mod_self_left, Nat.mod_eq_of_lt (bitsToNat_lt _ n)] at hvalue
  simp only [Nat.add_mul_div_left _ _ hpos, Nat.div_eq_of_lt (bitsToNat_lt _ n), Nat.zero_add] at hcarry
  refine ⟨fun u hu => ?_, Function.LeftInverse.injective Bool.ofNat_toNat hcarry⟩
  simpa [testBit_bitsToNat, hu] using congrArg (Nat.testBit · u) hvalue

/-- Settles O46: both adders are exact, and the sum has one value and one carry. -/
theorem addMatchesBitSerialAdder : Obligations.AddMatchesBitSerialAdder := by
  intro hd hs1 hs2 cin s t hs hexec hok
  obtain ⟨hnone, rfl⟩ := exec_next_of_noErr hexec hok
  have hready := addReady_of_checks hs hnone
  have hserial := serialSum_exact (s.abit hs1) (s.abit hs2) cin (s.handle hd).lengthBits
  exact bitsToNat_carry_unique ((hready.addEffect_sumsUpTo cin).sum.trans hserial.symm)

end Sys2Proof.Machine

/-! PROOFS. The statements of 45_barrel_shifter.md. First what LSH and RSH share: their chain of preconditions (R150),
where their operands may lie (R64), and how they end with the draw of the overhang bits (R155). Then the two datapaths,
one output element at a time (R153), each with the reason why its loop finds its input as it was, and shifts of
values. -/

namespace Sys2Proof.Machine

variable {i : Instr} {s : State} {hd hs1 : HSel}

/-! ### What the contracts of LSH and RSH share -/

/-- The chain of LSH and of RSH (R150, R164). -/
theorem shift_contract {A : Prop} (hs : s.Inv) (hchecks : checksOf i s = shiftChecks s hd hs1)
    (hrest : firstCause (checksOf i s) = none → A) :
    if ¬ s.legal [hd, hs1] then raises i s .illegalCommand
    else if ¬ s.allBound [hd, hs1] then raises i s .unboundHandle
    else if ¬ (s.handle hs1).lengthBits = (s.handle hd).lengthBits then raises i s .lengthMismatch
    else if ¬ s.pos ≤ (s.handle hd).lengthBits then raises i s .shiftRange
    else if ¬ s.apartOrSame hd hs1 then raises i s .aliased
    else A := by
  refine contract_link (congrArg firstCause hchecks) (selectorsLegal_iff s _) fun _ hleft => ?_
  refine contract_link hleft (handlesBound_iff s _) fun hbound hleft => ?_
  refine contract_link hleft ((lengthsAgree_iff s hd [hs1]).trans (by simp)) fun _ hleft => ?_
  refine contract_link hleft (shiftInRange_iff s hd) fun _ hleft => ?_
  exact contract_link hleft ((aliasing_disjointOrCoincide_iff hs hbound).trans (by simp)) fun _ => hrest

/-- How two arrays lie that a shifter can read and write: both have the length of `dst`, and they begin at one element
or one ends before the other begins (R64). -/
structure ShiftOperands (p : Params) (dst inp : Handle) : Prop where
  width : 1 ≤ p.w
  output : GeometryHolds p dst
  input : GeometryHolds p inp
  lengthBits : inp.lengthBits = dst.lengthBits
  lengthElements : inp.lengthElements = dst.lengthElements
  place : inp.first = dst.first ∨ dst.first + dst.lengthElements ≤ inp.first ∨
    inp.first + dst.lengthElements ≤ dst.first

/-- The checks of LSH and RSH establish it. -/
theorem shiftOperands_of_checks (hs : s.Inv) (hc : firstCause (checksOf i s) = none)
    (hchecks : checksOf i s = shiftChecks s hd hs1) : ShiftOperands s.par (s.handle hd) (s.handle hs1) := by
  rw [hchecks, firstCause_eq_none] at hc
  have hbound := (handlesBound_iff s [hd, hs1]).1 (hc _ (by simp [shiftChecks]))
  have hg := hs.geometryOf hd (hbound hd (by simp))
  have hg1 := hs.geometryOf hs1 (hbound hs1 (by simp))
  have hbits := (lengthsAgree_iff s hd [hs1]).1 (hc _ (by simp [shiftChecks])) hs1 (List.mem_singleton_self hs1)
  have hrel : min (s.handle hd).limiter (s.handle hs1).limiter ≤ max (s.handle hd).first (s.handle hs1).first ∨
      (s.handle hd).first = (s.handle hs1).first ∧ (s.handle hd).lengthBits = (s.handle hs1).lengthBits := by
    simpa [aliasing, allPairs, disjointOrCoincide, disjoint, coincide] using
      hc (aliasing s disjointOrCoincide [hd, hs1]) (by simp [shiftChecks])
  have helements := hg1.lengthElements_congr hg hbits
  have hlimiter := hg.limiter
  have hlimiter1 := hg1.limiter
  exact ⟨hs.params.1, hg, hg1, hbits, helements, by omega⟩

/-- The state in which a shift completes: `m` is the memory after its loop, and `f` the declared bits of the output
there. -/
theorem shift_completes {m : Memory} {f : Nat → Bool} (hs : s.Inv) (hnone : firstCause (checksOf i s) = none)
    (hg : GeometryHolds s.par (s.handle hd))
    (heffect : effectOf i s = (s.setEm (drawOverhang s.par.w (s.handle hd) (Config.draw s.drawn) m)).addDrawn 1)
    (hbits : ∀ u < (s.handle hd).lengthBits, emBit s.par.w m ((s.handle hd).first * s.par.w + u) = f u)
    (hframe : ∀ k, ¬ s.inRange hd k → emRead m k = emRead s.em k) :
    ∃ t, exec i s = .next t ∧ t = { s with em := t.em, drawn := t.drawn, status := statusCompleted s.status } ∧
      (∀ u < (s.handle hd).lengthBits, t.abit hd u = f u) ∧
      t.val hd = bitsToNat f (s.handle hd).lengthBits ∧
      ((s.handle hd).bme ≠ 0 → ∃ n, s.drawn ≤ n ∧ n < t.drawn ∧ ∀ p, (s.handle hd).bme ≤ p → p < s.par.w →
        (emRead t.em (s.handle hd).last).testBit p = (Config.draw n).testBit (p - (s.handle hd).bme)) ∧
      ∀ k, ¬ s.inRange hd k → emRead t.em k = emRead s.em k := by
  have hw := hs.params.1
  have hexec := exec_completes hs hnone
  rw [heffect] at hexec
  have habit : ∀ u < (s.handle hd).lengthBits, (State.complete ((s.setEm
      (drawOverhang s.par.w (s.handle hd) (Config.draw s.drawn) m)).addDrawn 1)).abit hd u = f u := fun u hu => by
    rw [State.abit_eq_emBit (s := s) hw]
    · exact (drawOverhang_emBit hg hw _ hu).trans (hbits u hu)
    · rfl
    · rfl
  refine ⟨_, hexec, rfl, habit, bitsToNat_congr _ _ _ habit, fun hbme => ?_, fun k hk => ?_⟩
  · refine ⟨s.drawn, Nat.le_refl _, Nat.lt_succ_self _, fun b hlow hb => ?_⟩
    exact (drawOverhang_testBit hg hbme _ hb).trans (if_neg (Nat.not_lt.2 hlow))
  · exact (drawOverhang_read_outside hg hw _ hk).trans (hframe k hk)

/-- A bit of an array in the element that holds `v`, cut to `W` bits. -/
theorem emBit_of_emRead_eq {w first u : Nat} {m : Memory} {v : Elem} (hw : 1 ≤ w)
    (h : emRead m (first + u / w) = v % 2 ^ w) : emBit w m (first * w + u) = v.testBit (u % w) := by
  rw [emBit_first_add hw, h, Nat.testBit_mod_two_pow, decide_eq_true (Nat.mod_lt u hw), Bool.true_and]

/-! ### LSH (R151, R153) -/

section Lsh

variable {w e r j k : Nat} {m m' : Memory} {p : Params} {dst inp : Handle}

/-- Bit `j` of LSH's output element `k`: the input bit that lies `e` elements and `r` bits lower, 0 where that is below
the input. -/
theorem lshElem_testBit (hm : ∀ j, emRead m j < 2 ^ w) (hr : r < w) (hj : j < w) :
    (lshElem w inp e r k m).testBit j =
      if k * w + j < e * w + r then false else emBit w m (inp.first * w + (k * w + j - (e * w + r))) := by
  unfold lshElem
  split
  · next hk =>
    have := Nat.mul_le_mul_right w hk
    rw [Nat.succ_mul] at this
    rw [if_pos (by omega), Nat.zero_testBit]
  next hk =>
  obtain ⟨d, rfl⟩ := Nat.exists_eq_add_of_le (Nat.le_of_not_lt hk)
  simp only [Nat.add_sub_cancel_left, Nat.add_mul]
  split
  · next hzero =>
    have haddr : inp.first * w + (e * w + d * w + j - (e * w + r)) = (inp.first + d) * w + j := by
      rw [Nat.add_mul]; omega
    rw [if_neg (by omega), haddr, emBit_mul_add m _ hj]
  rw [Nat.testBit_or, testBit_shl, decide_eq_true hj, Bool.true_and]
  by_cases hlow : r ≤ j
  · have haddr : inp.first * w + (e * w + d * w + j - (e * w + r)) = (inp.first + d) * w + (j - r) := by
      rw [Nat.add_mul]; omega
    have hnext : (if d = 0 then 0 else shr (emRead m (inp.first + (d - 1))) (w - r)).testBit j = false := by
      split
      · exact Nat.zero_testBit j
      · exact (testBit_shr _ _ _).trans (testBit_of_lt w _ _ (hm _) (by omega))
    rw [hnext, if_neg (by omega), haddr, emBit_mul_add m _ (by omega), decide_eq_true hlow, Bool.true_and,
      Bool.or_false]
  · rw [decide_eq_false hlow, Bool.false_and, Bool.false_or]
    cases d with
    | zero => rw [if_pos rfl, if_pos (by omega), Nat.zero_testBit]
    | succ d =>
      have haddr : inp.first * w + (e * w + (d + 1) * w + j - (e * w + r)) = (inp.first + d) * w + (w - r + j) := by
        rw [Nat.add_mul inp.first, Nat.succ_mul d]; omega
      rw [if_neg (Nat.succ_ne_zero d), if_neg (by rw [Nat.succ_mul]; omega), haddr, emBit_mul_add m _ (by omega),
        testBit_shr, Nat.add_sub_cancel]

/-- LSH's output element `k` depends on the input elements up to `k` alone. -/
theorem lshElem_congr (h : ∀ j ≤ k, emRead m' (inp.first + j) = emRead m (inp.first + j)) :
    lshElem w inp e r k m' = lshElem w inp e r k m := by
  rw [lshElem, lshElem, h (k - e) (by omega), h (k - e - 1) (by omega)]

/-- The output after LSH's loop: from high to low no step reads an element that an earlier one has written. -/
theorem lshLoop_emBit (ho : ShiftOperands p dst inp) (hm : ∀ j, emRead m j < 2 ^ p.w) {pos u : Nat}
    (hu : u < dst.lengthBits) :
    emBit p.w (fillDown p.w dst.first dst.lengthElements (lshElem p.w inp (pos / p.w) (pos % p.w)) m)
      (dst.first * p.w + u) = if u < pos then false else emBit p.w m (inp.first * p.w + (u - pos)) := by
  have hplace := ho.place
  have hread := fillDown_read_of_lookBehind (w := p.w) (base := dst.first) (n := dst.lengthElements)
    (value := lshElem p.w inp (pos / p.w) (pos % p.w)) m
    (fun k hk m' hm' => lshElem_congr fun j hj => hm' _ (by omega)) _ (ho.output.div_lt_lengthElements ho.width hu)
  rw [emBit_of_emRead_eq ho.width hread, lshElem_testBit hm (Nat.mod_lt pos ho.width) (Nat.mod_lt u ho.width),
    Nat.div_add_mod', Nat.div_add_mod']

end Lsh

/-- Shifting an array up multiplies its value by a power of two and cuts it to its length (R151). -/
theorem bitsToNat_shiftUp (f : Nat → Bool) (n pos : Nat) :
    bitsToNat (fun u => if u < pos then false else f (u - pos)) n = bitsToNat f n * 2 ^ pos % 2 ^ n := by
  refine Nat.eq_of_testBit_eq fun u => ?_
  rw [testBit_bitsToNat, Nat.testBit_mod_two_pow, testBit_mul_two_pow, testBit_bitsToNat]
  by_cases hu : u < n
  · have hlt : u - pos < n := by omega
    by_cases hpos : u < pos
    · simp [hpos]
    · simp [hpos, hlt, Nat.le_of_not_lt hpos]
  · simp [hu]

/-- Settles O47: the loop shifts up, and the draw that this execution takes replaces the overhang bits alone. -/
theorem lshShiftsTowardHigherBits : Obligations.LshShiftsTowardHigherBits := by
  intro hd hs1 s hs
  refine ⟨decode_fieldsWord (op := 0x60) rfl, shift_contract hs rfl fun hnone => ?_⟩
  have ho := shiftOperands_of_checks hs hnone rfl
  have hlimiter := ho.output.limiter
  rw [State.val, ho.lengthBits, ← bitsToNat_shiftUp]
  refine shift_completes hs hnone ho.output rfl (fun u hu => ?_) fun k hk => fillDown_read_outside _ k (by omega)
  rw [State.abit_eq_emBit (t := s) ho.width rfl rfl]
  exact lshLoop_emBit ho hs.memory.read_lt hu

/-! ### RSH (R152, R153) -/

section Rsh

variable {e r j k : Nat} {m m' : Memory} {p : Params} {dst inp : Handle}

/-- The bits of RSH's input element `k`: those that the array declares there, and no others (R67). -/
theorem rshIn_testBit (hg : GeometryHolds p inp) (hw : 1 ≤ p.w) (hm : ∀ j, emRead m j < 2 ^ p.w) (k b : Nat) :
    (rshIn inp k m).testBit b =
      (decide (b < p.w ∧ k * p.w + b < inp.lengthBits) && (emRead m (inp.first + k)).testBit b) := by
  unfold rshIn
  split
  · next hinner =>
    have hnext := hg.mul_lt_lengthBits hw hinner
    rw [Nat.succ_mul] at hnext
    by_cases hb : b < p.w
    · rw [decide_eq_true ⟨hb, by omega⟩, Bool.true_and]
    · rw [testBit_of_lt p.w b _ (hm _) (Nat.le_of_not_lt hb), Bool.and_false]
  split
  · next hlast =>
    rw [Nat.testBit_and, hg.testBit_overhangMask hw (by omega), ← hlast, Nat.add_sub_cancel, Bool.and_comm]
  · have hbits := hg.lengthBits_le hw
    have habove : inp.lengthElements * p.w ≤ k * p.w := Nat.mul_le_mul_right _ (by omega)
    rw [Nat.zero_testBit, decide_eq_false (by omega), Bool.false_and]

/-- A bit of RSH's input in the bits of `EM`. -/
theorem rshIn_testBit_of_lt (hg : GeometryHolds p inp) (hm : ∀ j, emRead m j < 2 ^ p.w) {b u : Nat} (hb : b < p.w)
    (hu : k * p.w + b = u) :
    (rshIn inp k m).testBit b = if u < inp.lengthBits then emBit p.w m (inp.first * p.w + u) else false := by
  subst hu
  rw [rshIn_testBit hg (by omega) hm, ← Nat.add_assoc, ← Nat.add_mul, emBit_mul_add m _ hb]
  simp [hb]

/-- Above the array RSH's output elements are 0 already by their inputs (R153). -/
theorem rshElem_eq (w e r k : Nat) : rshElem w inp e r k m =
    if r = 0 then rshIn inp (k + e) m else shr (rshIn inp (k + e) m) r ||| shl w (rshIn inp (k + e + 1) m) (w - r) := by
  unfold rshElem
  split
  · next habove =>
    have hzero : ∀ j, inp.lengthElements ≤ j → rshIn inp j m = 0 := fun j hj => by
      rw [rshIn, if_neg (by omega), if_neg (by omega)]
    rw [hzero _ habove, hzero _ (Nat.le_succ_of_le habove)]
    simp [shr, shl]
  · rfl

/-- Bit `j` of RSH's output element `k`: the input bit that lies `e` elements and `r` bits higher, 0 where the input
declares none. -/
theorem rshElem_testBit (hg : GeometryHolds p inp) (hm : ∀ j, emRead m j < 2 ^ p.w) (hr : r < p.w) (hj : j < p.w) :
    (rshElem p.w inp e r k m).testBit j =
      if k * p.w + j + (e * p.w + r) < inp.lengthBits then
        emBit p.w m (inp.first * p.w + (k * p.w + j + (e * p.w + r))) else false := by
  rw [rshElem_eq]
  split
  · next hzero => exact rshIn_testBit_of_lt hg hm hj (by rw [Nat.add_mul]; omega)
  rw [Nat.testBit_or, testBit_shr, testBit_shl, decide_eq_true hj, Bool.true_and]
  by_cases hlow : r + j < p.w
  · have hout : ¬ p.w - r ≤ j := by omega
    rw [decide_eq_false hout, Bool.false_and, Bool.or_false]
    exact rshIn_testBit_of_lt hg hm hlow (by rw [Nat.add_mul]; omega)
  · have hin : p.w - r ≤ j := by omega
    rw [rshIn_testBit hg (by omega) hm _ (r + j), decide_eq_false (fun h => hlow h.1), Bool.false_and, Bool.false_or,
      decide_eq_true hin, Bool.true_and]
    exact rshIn_testBit_of_lt hg hm (by omega) (by rw [Nat.succ_mul, Nat.add_mul]; omega)

theorem rshIn_congr (h : k < inp.lengthElements → emRead m' (inp.first + k) = emRead m (inp.first + k)) :
    rshIn inp k m' = rshIn inp k m := by
  by_cases hk : k < inp.lengthElements
  · rw [rshIn, rshIn, h hk]
  · rw [rshIn, rshIn, if_neg (by omega), if_neg (by omega), if_neg (by omega), if_neg (by omega)]

/-- RSH's output element `k` depends on the input elements from `k` on alone. -/
theorem rshElem_congr {w : Nat}
    (h : ∀ j, k ≤ j → j < inp.lengthElements → emRead m' (inp.first + j) = emRead m (inp.first + j)) :
    rshElem w inp e r k m' = rshElem w inp e r k m := by
  rw [rshElem, rshElem, rshIn_congr (h (k + e) (by omega)), rshIn_congr (h (k + e + 1) (by omega))]

/-- The output after RSH's loop: from low to high no step reads an element that an earlier one has written. -/
theorem rshLoop_emBit (ho : ShiftOperands p dst inp) (hm : ∀ j, emRead m j < 2 ^ p.w) {pos u : Nat}
    (hu : u < dst.lengthBits) :
    emBit p.w (fillUp p.w dst.first dst.lengthElements (rshElem p.w inp (pos / p.w) (pos % p.w)) m)
      (dst.first * p.w + u) =
        if u + pos < dst.lengthBits then emBit p.w m (inp.first * p.w + (u + pos)) else false := by
  have hplace := ho.place
  have helements := ho.lengthElements
  have hread := fillUp_read_of_lookAhead (w := p.w) (base := dst.first) (n := dst.lengthElements)
    (value := rshElem p.w inp (pos / p.w) (pos % p.w)) m
    (fun k hk m' hm' => rshElem_congr fun j hj hlt => hm' _ (by omega)) _ (ho.output.div_lt_lengthElements ho.width hu)
  rw [emBit_of_emRead_eq ho.width hread, rshElem_testBit ho.input hm (Nat.mod_lt pos ho.width)
    (Nat.mod_lt u ho.width), Nat.div_add_mod', Nat.div_add_mod', ho.lengthBits]

end Rsh

/-- Shifting an array down divides its value by a power of two (R152). -/
theorem bitsToNat_shiftDown (f : Nat → Bool) (n pos : Nat) :
    bitsToNat (fun u => if u + pos < n then f (u + pos) else false) n = bitsToNat f n / 2 ^ pos := by
  refine Nat.eq_of_testBit_eq fun u => ?_
  rw [testBit_bitsToNat, ← shr, testBit_shr, testBit_bitsToNat, Nat.add_comm pos u]
  by_cases hlt : u + pos < n
  · have hu : u < n := by omega
    simp [hlt, hu]
  · simp [hlt]

/-- Settles O48: the loop shifts down, and the draw that this execution takes replaces the overhang bits alone. -/
theorem rshShiftsTowardLowerBits : Obligations.RshShiftsTowardLowerBits := by
  intro hd hs1 s hs
  refine ⟨decode_fieldsWord (op := 0x61) rfl, shift_contract hs rfl fun hnone => ?_⟩
  have ho := shiftOperands_of_checks hs hnone rfl
  have hlimiter := ho.output.limiter
  rw [State.val, ho.lengthBits, ← bitsToNat_shiftDown]
  refine shift_completes hs hnone ho.output rfl (fun u hu => ?_) fun k hk => fillUp_read_outside _ k (by omega)
  rw [State.abit_eq_emBit (t := s) ho.width rfl rfl]
  exact rshLoop_emBit ho hs.memory.read_lt hu

end Sys2Proof.Machine

/-! PROOFS. The statements of 60_exceptions.md. First the idle step and the host's impossible writes (R177, 70 R187),
how a command ends (R165) and who writes `STATUS` (R31, R166). Then the order of a command's checks, by which the first
violated precondition is reported (R164), and the causes that they raise (R163). -/

namespace Sys2Proof.Machine

variable {i : Instr} {s t : State} {c : Cause}

/-! ### Idle steps and host faults (R177, R187) -/

theorem step_of_host_nil (h : s.host = []) : step s = .next s := by
  unfold step hostStep
  rw [h]

theorem hostWrite_of_not_lt {n v : Nat} (hv : ¬ v < 2 ^ n) (s : State) : hostWrite n v s = .fault .valueTooWide :=
  if_neg hv

/-- Settles O25: the step carries out the host write, which tests the place and then the width of the value. -/
theorem idleStepsAndHostFaults : Obligations.IdleStepsAndHostFaults := by
  refine ⟨fun s => step_of_host_nil, fun s k v rest hhost => ?_, fun s v rest hhost hv => ?_⟩
  · rw [step_of_host_cons hhost]
    split
    · next hk => exact if_neg hk
    · next hk =>
      have hk : k < s.par.m := not_not.1 hk
      split
      · next hv => exact (if_pos hk).trans (hostWrite_of_not_lt hv _)
      · next hv => exact ⟨_, (if_pos hk).trans (hostWrite_of_lt (not_not.1 hv) _)⟩
  · rw [step_of_host_cons hhost]
    exact hostWrite_of_not_lt (Nat.not_lt.2 hv) _

/-! ### How a command ends, and who writes `STATUS` (R165, R166, R31) -/

/-- Settles O8: a raise writes `STATUS` and nothing else, and no effect touches the `STATUS` that a completion then
writes. -/
theorem commandsEndByWritingStatus : Obligations.CommandsEndByWritingStatus := by
  intro i s t h
  obtain ⟨c, -, rfl⟩ | ⟨-, rfl⟩ := exec_next h
  · exact ⟨(statusLegal_raised c).zeros, .inr ⟨c, statusErr_raised c, statusCause_raised c, statusErrs_raised c, rfl⟩⟩
  · rw [State.complete_status, effectOf_status]
    exact ⟨(statusLegal_completed s.status).zeros,
      .inl ⟨statusErr_completed _, statusCause_completed _, statusErrs_completed _⟩⟩

/-- No command clears `ERRS` (R166). -/
theorem exec_keeps_errs (h : exec i s = .next t) (herrs : statusErrs s.status = true) :
    statusErrs t.status = true := by
  obtain ⟨-, ⟨-, -, hsame⟩ | ⟨c, -, -, hset, -⟩⟩ := commandsEndByWritingStatus i s t h
  · exact hsame.trans herrs
  · exact hset

/-- A host action other than reset leaves `ERRS` set. -/
theorem ActsTo.keeps_errs {a : HostAction} (h : ActsTo s a t) (hreset : a ≠ .reset)
    (herrs : statusErrs s.status = true) : statusErrs t.status = true := by
  cases h with
  | reset => exact absurd rfl hreset
  | illegalWord => exact statusErrs_raised _
  | command _ hexec => exact exec_keeps_errs hexec herrs
  | _ => exact herrs

/-- A host action that is neither a command word nor reset leaves `STATUS` (R31). -/
theorem ActsTo.status_eq {a : HostAction} (h : ActsTo s a t) (hreset : a ≠ .reset) (hissue : ∀ cw, a ≠ .issue cw) :
    t.status = s.status := by
  cases h with
  | reset => exact absurd rfl hreset
  | illegalWord => exact absurd rfl (hissue _)
  | command => exact absurd rfl (hissue _)
  | _ => rfl

/-- Settles O11: a step carries out the pending action, and only a command word or reset among them writes `STATUS`. -/
theorem onlyResetClearsErrs : Obligations.OnlyResetClearsErrs := by
  intro s t a rest hhost hreset h
  have hact := step_next_cons hhost h
  exact ⟨hact.keeps_errs hreset, hact.status_eq hreset⟩

/-! ### The checks that fail and the preconditions that are violated (R161, R164) -/

/-- A check fails with cause `c` when that is its cause and what it checks does not hold. -/
theorem fails_iff {x : Bool × Cause} {P : Prop} (h : c = x.2 → (x.1 = true ↔ P)) : (false, c) = x ↔ c = x.2 ∧ ¬ P := by
  obtain ⟨b, d⟩ := x
  rw [Prod.mk.injEq, and_comm]
  refine and_congr_right fun hc => ?_
  rw [← h hc, eq_comm, Bool.not_eq_true]

theorem selectorsLegal_fails_iff (hs : List HSel) :
    (false, c) = selectorsLegal s hs ↔ c = .illegalCommand ∧ ¬ s.legal hs :=
  fails_iff fun _ => selectorsLegal_iff s hs

theorem handlesBound_fails_iff (hs : List HSel) :
    (false, c) = handlesBound s hs ↔ c = .unboundHandle ∧ ¬ s.allBound hs :=
  fails_iff fun _ => handlesBound_iff s hs

theorem storageFits_fails_iff (first : Nat) : (false, c) = storageFits s first ↔
    c = .storageRange ∧ ¬ first + (s.len + s.par.w - 1) / s.par.w ≤ s.par.m :=
  fails_iff fun _ => storageFits_iff s first

theorem lengthsAgree_fails_iff (hd : HSel) (sources : List HSel) : (false, c) = lengthsAgree s hd sources ↔
    c = .lengthMismatch ∧ ¬ ∀ h ∈ sources, (s.handle h).lengthBits = (s.handle hd).lengthBits :=
  fails_iff fun _ => lengthsAgree_iff s hd sources

theorem notEmpty_fails_iff (h : HSel) : (false, c) = notEmpty s h ↔ c = .empty ∧ ¬ 0 < (s.handle h).lengthBits :=
  fails_iff fun _ => notEmpty_iff s h

theorem indexInRange_fails_iff (h : HSel) :
    (false, c) = indexInRange s h ↔ c = .indexRange ∧ ¬ s.pos < (s.handle h).lengthBits :=
  fails_iff fun _ => indexInRange_iff s h

theorem sectionInRange_fails_iff (n : Nat) (h : HSel) :
    (false, c) = sectionInRange s n h ↔ c = .sectionRange ∧ ¬ s.pos + n ≤ (s.handle h).lengthBits :=
  fails_iff fun _ => sectionInRange_iff s n h

theorem shiftInRange_fails_iff (h : HSel) :
    (false, c) = shiftInRange s h ↔ c = .shiftRange ∧ ¬ s.pos ≤ (s.handle h).lengthBits :=
  fails_iff fun _ => shiftInRange_iff s h

theorem aliasing_disjoint_fails_iff (hs : s.Inv) {l : List HSel} (hbound : c = .aliased → s.allBound l) :
    (false, c) = aliasing s disjoint l ↔ c = .aliased ∧ ¬ l.Pairwise s.apart :=
  fails_iff fun hc => aliasing_disjoint_iff_pairwise hs (hbound hc)

theorem aliasing_disjointOrCoincide_fails_iff (hs : s.Inv) {l : List HSel} (hbound : c = .aliased → s.allBound l) :
    (false, c) = aliasing s disjointOrCoincide l ↔ c = .aliased ∧ ¬ l.Pairwise s.apartOrSame :=
  fails_iff fun hc => aliasing_disjointOrCoincide_iff hs (hbound hc)

/-- The causes of a command's failing checks are those whose preconditions it violates. For ALIAS its operands must be
bound: only then do their ranges lie as R24 says. Both sides are tables over the commands and the causes, which agree
entry by entry. -/
theorem check_fails_iff_violates (hs : s.Inv) (hbound : c = .aliased → s.allBound (operandsOf i)) :
    (false, c) ∈ checksOf i s ↔ violates i s c := by
  cases i
  all_goals simp only [operandsOf, Instr.selectors] at hbound
  -- The left side becomes a disjunction over the command's checks: each its cause, and what it checks negated.
  all_goals simp only [checksOf, singleBitChecks, sectionChecks, bitwiseChecks, shiftChecks, List.mem_cons,
    List.not_mem_nil, or_false, selectorsLegal_fails_iff, handlesBound_fails_iff, storageFits_fails_iff,
    lengthsAgree_fails_iff, notEmpty_fails_iff, indexInRange_fails_iff, sectionInRange_fails_iff,
    shiftInRange_fails_iff, aliasing_disjoint_fails_iff hs hbound, aliasing_disjointOrCoincide_fails_iff hs hbound]
  -- For a given cause it is one check at most, which `violates` says in the words of R161.
  all_goals cases c
  all_goals simp only [violates, Instr.selectors, reduceCtorEq, Instr.init.injEq, false_and, true_and, or_false,
    false_or, ne_eq, not_false_eq_true, implies_true, forall_eq', Nat.not_lt, Nat.not_le, Nat.le_zero_eq,
    List.mem_cons, List.not_mem_nil, List.pairwise_cons, List.Pairwise.nil, forall_eq_or_imp, forall_eq, and_true,
    and_assoc, IsEmpty.forall_iff]

/-- Where R162 is not violated a command reaches elements of bound handles only. -/
theorem allBound_operandsOf_of_not_violates (h : ¬ violates i s .unboundHandle) : s.allBound (operandsOf i) := by
  cases i with
  | init hd => exact List.forall_mem_nil _
  | setlen hd => exact List.forall_mem_nil _
  | _ => exact not_not.1 fun hunbound => h ⟨nofun, hunbound⟩

/-! ### The order of the causes (R164) -/

/-- A command's checks stand in the order of their causes. -/
theorem checksOf_sorted (i : Instr) (s : State) :
    (checksOf i s).Pairwise fun x y => causeRank x.2 < causeRank y.2 := by
  have hranks : ((checksOf i s).map fun x => causeRank x.2).Pairwise (· < ·) :=
    of_decide_eq_true (by cases i <;> rfl)
  exact List.pairwise_map.1 hranks

/-- ALIAS stands last. -/
theorem causeRank_le_aliased (c : Cause) : causeRank c ≤ causeRank .aliased := by cases c <;> decide

/-- In a list in the order of the causes the first failing check is the one whose cause stands first. -/
theorem firstCause_eq_some_of_least {checks : List (Bool × Cause)}
    (hsorted : checks.Pairwise fun x y => causeRank x.2 < causeRank y.2) (hc : (false, c) ∈ checks)
    (hleast : ∀ c', (false, c') ∈ checks → causeRank c ≤ causeRank c') : firstCause checks = some c := by
  induction checks with
  | nil => exact absurd hc List.not_mem_nil
  | cons x rest ih =>
    obtain ⟨holds, d⟩ := x
    rw [List.pairwise_cons] at hsorted
    cases holds with
    | true =>
      have hrest : (false, c) ∈ rest := by simpa using hc
      exact ih hsorted.2 hrest fun c' hc' => hleast c' (.tail _ hc')
    | false =>
      obtain heq | hrest := List.mem_cons.1 hc
      · cases heq; rfl
      · exact absurd (hsorted.1 _ hrest) (Nat.not_lt.2 (hleast d (.head _)))

/-- Settles O10: the checks that fail are the violated preconditions, and they stand in R164's order. ALIAS, which is
read from the ranges of bound handles only, comes after UNBOUND_HANDLE. -/
theorem firstViolatedCauseIsReported : Obligations.FirstViolatedCauseIsReported := by
  intro i s hs
  refine ⟨fun c hc hleast => ?_, fun hnone => ?_⟩
  · have hbound : c = .aliased → s.allBound (operandsOf i) := by
      rintro rfl
      exact allBound_operandsOf_of_not_violates fun hunbound => absurd (hleast _ hunbound) (by decide)
    have hfails : (false, c) ∈ checksOf i s := (check_fails_iff_violates hs hbound).2 hc
    have hfirst : firstCause (checksOf i s) = some c := by
      refine firstCause_eq_some_of_least (checksOf_sorted i s) hfails fun c' hc' => ?_
      by_cases halias : c' = .aliased
      · rw [halias]; exact causeRank_le_aliased c
      · exact hleast c' ((check_fails_iff_violates hs (absurd · halias)).1 hc')
    exact ⟨s.raise c, (exec_eq_runCommand i s).trans (runCommand_raises hfirst), rfl, statusErr_raised c,
      statusCause_raised c⟩
  · have hbound := allBound_operandsOf_of_not_violates (hnone .unboundHandle)
    have hholds : firstCause (checksOf i s) = none := firstCause_eq_none.2 fun ⟨b, c⟩ hx => by
      cases b with
      | true => rfl
      | false => exact absurd ((check_fails_iff_violates hs fun _ => hbound).1 hx) (hnone c)
    exact ⟨_, exec_completes hs hholds, statusErr_completed _⟩

/-! ### The causes that a command can raise (R163) -/

theorem mem_of_firstCause_eq_some {checks : List (Bool × Cause)} (h : firstCause checks = some c) :
    (false, c) ∈ checks := by
  induction checks with
  | nil => exact nomatch h
  | cons x rest ih =>
    obtain ⟨holds, d⟩ := x
    cases holds with
    | true => exact .tail _ (ih h)
    | false => cases h; exact .head _

/-- The causes of a command's checks are those of its row. -/
theorem checksOf_causes (i : Instr) (s : State) : ∀ x ∈ checksOf i s, x.2 ∈ causesOf i :=
  of_decide_eq_true (by cases i <;> rfl)

/-- Two overlapping arrays of 20 bits, an empty array and an unbound handle. -/
def causesHandles : List Handle := [geom 8 0 20, geom 8 1 20, geom 8 16 0, Handle.unbound]

/-- The test vectors' parameters with these handles, and a `LEN` that no storage fits. -/
def causesState (pos : Nat) : State :=
  { State.resetWith Params.vectors [] with handles := causesHandles, pos := pos, len := 2 ^ 32 - 1 }

theorem causesState_inv {pos : Nat} (hpos : pos < 2 ^ 32) : (causesState pos).Inv :=
  { resetWith_inv (p := Params.vectors) (by decide) (Memory.wf_nil _) with
    fileSize := rfl
    geometry := by
      have hgeom {base bits : Nat} := geom_geometryHolds Params.vectors (by decide) base bits
      simp only [causesState, causesHandles, List.forall_mem_cons]
      exact ⟨fun _ => hgeom (by decide), fun _ => hgeom (by decide), fun _ => hgeom (by decide), nofun, nofun⟩
    unbound := (by decide : ∀ h ∈ causesHandles, h.bound = false → h = Handle.unbound)
    pos := hpos
    len := (by decide : 2 ^ 32 - 1 < 2 ^ 32) }

/-- For each cause the selectors, as the fields of a word, and the `POS` with which every command that can raise the
cause does so in `causesState`. -/
def raisingOperands : Cause → CommandWord × Nat
  | .illegalCommand => (layOut 0 15 15 15 false, 21)
  | .unboundHandle => (layOut 0 3 3 3 false, 21)
  | .lengthMismatch => (layOut 0 0 2 2 false, 21)
  | .empty => (layOut 0 2 2 2 false, 21)
  | .aliased => (layOut 0 0 1 1 false, 0)
  | _ => (layOut 0 0 0 0 false, 21)

/-- The tie to the model: its checks, evaluated for each entry of R163's table. -/
theorem firstCause_raisingOperands (i : Instr) : ∀ c ∈ causesOf i,
    firstCause (checksOf (i.readFrom (raisingOperands c).1) (causesState (raisingOperands c).2)) = some c :=
  of_decide_eq_true (by cases i <;> rfl)

/-- Settles O9: a raised cause is that of a check of the command, and `raisingOperands` raise each cause of the row. -/
theorem causesAreThoseOfTheTable : Obligations.CausesAreThoseOfTheTable := by
  refine ⟨fun i s t h herr => ?_, fun i c hc => ?_⟩
  · obtain ⟨c, hc, rfl⟩ | ⟨-, rfl⟩ := exec_next h
    · exact ⟨c, checksOf_causes i s _ (mem_of_firstCause_eq_some hc), statusCause_raised c⟩
    · exact absurd herr (by simp)
  · have hpos : (raisingOperands c).2 < 2 ^ 32 := by cases c <;> decide
    exact ⟨i.readFrom (raisingOperands c).1, causesState (raisingOperands c).2, i.readFrom_op _, causesState_inv hpos,
      (exec_eq_runCommand _ _).trans (runCommand_raises (firstCause_raisingOperands i c hc))⟩

end Sys2Proof.Machine

/-! PROOFS. The statements of 70_reset_and_hazards.md: the reset input (R180) and the host's writes of the operand
registers (R187, 10 R29). -/

namespace Sys2Proof.Machine

/-- The reset input, as the pending action, applies R180 at once. -/
theorem step_reset {s : State} {rest : List HostAction} (hhost : s.host = .reset :: rest) :
    step s = .next { s with host := rest }.applyReset := step_of_host_cons hhost

/-- Settles O22: `applyReset` takes the element memory over into R35's state. -/
theorem resetKeepsElementMemory : Obligations.ResetKeepsElementMemory :=
  fun _ _ hhost => ⟨_, step_reset hhost, rfl⟩

/-- Settles O24: each of the three is a host write to a place `IDXW` bits wide, which the value fits. -/
theorem hostWritesOperandRegisters : Obligations.HostWritesOperandRegisters := by
  refine fun s v rest hv => ⟨fun hpos => ?_, fun hlen => ?_, fun hbase => ?_⟩
  · exact (step_of_host_cons hpos).trans (hostWrite_of_lt hv _)
  · exact (step_of_host_cons hlen).trans (hostWrite_of_lt hv _)
  · exact (step_of_host_cons hbase).trans (hostWrite_of_lt hv _)

end Sys2Proof.Machine
